-- ==== Sys2Proof/Word.lean ====
section
/-!
DEFINITION. The word types of the Doggie FFT engine: 32-bit registers, bytes, binary64 encodings and
complex values (spec/10_state.md R20, spec/20_memory.md R61, R62, spec/00_scope.md R10).
-/

namespace Sys2Proof

/-- A 32-bit register of the window (10_state.md R20). -/
abbrev Word := BitVec 32

/-- One byte of system memory (00_scope.md R6). -/
abbrev Byte := BitVec 8

/-- A 64-bit byte address held in a register pair (10_state.md R29, R32). -/
abbrev Addr := BitVec 64

/-- An IEEE 754 binary64 value, as its encoding: sign in bit 63, exponent in bits 62..52, fraction in
bits 51..0 (00_scope.md R5, R10; `f64_of` and `bits_of` of R11 are the identity on encodings). -/
abbrev F64 := BitVec 64

/-- A complex value, a pair of binary64 values (00_scope.md R10, 20_memory.md R61). -/
structure C64 where
  re : F64
  im : F64
  deriving DecidableEq, Repr

/-- The place of a floating-point operation inside a run: the number of the run's set of free values
last, then the path to the operation. Two operations of one run never share a site, so each NaN result
is a draw of its own (40_datapath.md R121). -/
abbrev Site := List Nat

end Sys2Proof
end

