-- ==== Sys2Proof/Machine/Index.lean ====
section
/-!
DEFINITION. Exact integer arithmetic of lengths and indices (spec/00_scope.md R9, R12) and the
bit-reversal of an index (spec/40_datapath.md R136).
-/

namespace Sys2Proof.Machine

/-- `is_pow2(N)` of 00_scope.md R12: it holds of 0 and of every 2^k. -/
def isPow2 (n : Nat) : Bool := n == 0 || 2 ^ n.log2 == n

/-- `nextpow2(n)` of 00_scope.md R12: the least power of two that is at least n, for n ≥ 1. -/
def nextPow2 (n : Nat) : Nat := if n ≤ 1 then 1 else 2 ^ ((n - 1).log2 + 1)

/-- `bitrev_b(i)` of 40_datapath.md R136: bit k of the result is bit b-1-k of i. -/
def bitrev : Nat → Nat → Nat
  | 0, _ => 0
  | b + 1, i => (i % 2) * 2 ^ b + bitrev b (i / 2)

end Sys2Proof.Machine
end

