-- ==== Sys2Proof/Config.lean ====
section
/-!
DEFINITION. What an implementation or a platform fixes (spec/00_scope.md R7), and the model's free values.

`Platform` is plain data held in State and changed by no step, so a statement over all states holds for
every platform (log 1). The opaque constants are the values the spec leaves open: nothing can evaluate
them, so no claim can rest on them.
-/

namespace Sys2Proof

/-- A run of `size` byte addresses from `base`. -/
structure Span where
  base : Nat
  size : Nat
  deriving DecidableEq, Repr

/-- The parameters of 00_scope.md R7 that the model takes as data, and what else it takes of the platform. -/
structure Platform where
  /-- LOG2_LMAX, integer 1..30 (10_state.md R23). -/
  log2Lmax   : Nat
  /-- PA_BITS, integer 32..64 (20_memory.md R66). -/
  paBits     : Nat
  /-- MMIO_BASE, the bus address of the register window (20_memory.md R60). -/
  mmioBase   : Nat
  /-- IO_COHERENT (20_memory.md R78). -/
  ioCoherent : Bool
  /-- A line of the host's caches holds 2^log2Line bytes (20_memory.md R78 speaks of lines and gives no size, log 13).
  Nothing reads it where IO_COHERENT is true. -/
  log2Line   : Nat
  /-- The addresses where BUS_OK is false (20_memory.md R70). -/
  busFail    : List Span
  /-- The addresses whose accesses never complete (70_reset_and_hazards.md R274). -/
  busHang    : List Span
  /-- The addresses of devices with read side effects (20_memory.md R69). -/
  device     : List Span
  /-- NUM_INSTANCES, integer from 1: this engine and the other instances (60_exceptions.md R250). -/
  numInstances : Nat
  deriving DecidableEq, Repr

/-- The platform of the vectors (95_test_vectors.md, "Platform assumed unless a vector says otherwise").
DESIGN CHOICE (log 1): R7 leaves every parameter OPEN; `State.reset` takes this one. -/
def Platform.vectors : Platform where
  log2Lmax   := 10
  paBits     := 32
  mmioBase   := 0x40000000
  ioCoherent := true
  log2Line   := 6
  busFail    := []
  busHang    := []
  device     := []
  numInstances := 1

/-- Free value (log 6): the sign and fraction bits of the NaN result of the operation at a site
(NaNDraw, 40_datapath.md R121). -/
opaque Config.nanBits : Site → BitVec 64

/-- Free value (logs 11, 12, 13, 29, 31, 32): a byte that is "any value" (20_memory.md R75, R78,
70_reset_and_hazards.md R261, R265, R267, R269). -/
opaque Config.anyByte : Site → Byte

/-- Free value (log 10): an 8-byte word of region D after a race (20_memory.md R75). -/
opaque Config.anyWord : Site → BitVec 64

end Sys2Proof
end

