-- ==== Sys2Proof/Machine/Float64.lean ====
section
/-!
DEFINITION. IEEE 754 binary64 arithmetic with roundTiesToEven (spec/40_datapath.md R120-R122, R128;
spec/00_scope.md R10).

Every finite binary64 value is a whole number of units of 2^-1074. An operation computes its exact result
in such units, as an integer or a fraction, and rounds once with `roundMag`. There is no fused operation,
no flush to zero and no status flag.
-/

namespace Sys2Proof.Machine

/-- The encoding of +∞ without its sign bit: exponent all ones, fraction zero. -/
def infMag : Nat := 0x7FF * 2 ^ 52

/-- The sign bit. -/
def signBit (x : F64) : Bool := x.toNat / 2 ^ 63 == 1

/-- The encoding without its sign bit. -/
def magBits (x : F64) : Nat := x.toNat % 2 ^ 63

/-- A NaN encoding: exponent all ones and fraction nonzero (40_datapath.md R121). -/
def isNaN (x : F64) : Bool := decide (infMag < magBits x)

/-- An infinity. -/
def isInf (x : F64) : Bool := magBits x == infMag

/-- A finite value: neither NaN nor infinity. -/
def isFinite (x : F64) : Bool := decide (magBits x < infMag)

/-- The value with the given sign whose encoding without its sign bit is `mag`. -/
def packF64 (neg : Bool) (mag : Nat) : F64 := BitVec.ofNat 64 ((if neg then 2 ^ 63 else 0) + mag)

/-- +0 (00_scope.md R10). -/
def zeroF : F64 := 0

/-- `neg(x)`: flips the sign bit, and is exact (00_scope.md R10). -/
def negF (x : F64) : F64 := x ^^^ 0x8000000000000000#64

/-- The magnitude, in units of 2^-1074, of the finite value whose encoding without its sign bit is m:
subnormals are m units, and exponent field e ≥ 1 gives (2^52 + fraction)·2^(e-1) units. -/
def unitsOfMag (m : Nat) : Nat :=
  if m / 2 ^ 52 = 0 then m else (2 ^ 52 + m % 2 ^ 52) * 2 ^ (m / 2 ^ 52 - 1)

/-- The magnitude of a finite value in units of 2^-1074. -/
def unitsOf (x : F64) : Nat := unitsOfMag (magBits x)

/-- A finite value in units of 2^-1074. -/
def intUnits (x : F64) : Int := if signBit x then -(unitsOf x : Int) else (unitsOf x : Int)

/-- n/d to the nearest integer, ties to even. -/
def rneDiv (n d : Nat) : Nat :=
  let q := n / d
  let r := n % d
  if 2 * r < d then q else if d < 2 * r then q + 1 else q + q % 2

/-- RNE of a magnitude of n/d units of 2^-1074, as an encoding without sign bit (00_scope.md R10,
40_datapath.md R120). The unit in the last place is 2^sh units; a carry out of the fraction moves on to
the exponent, and what passes the largest finite value is ∞. -/
def roundMag (n d : Nat) : Nat :=
  let sh := (n / d).log2 - 52
  min infMag (sh * 2 ^ 52 + rneDiv n (d * 2 ^ sh))

/-- A NaN result: any sign, exponent all ones, any nonzero fraction (40_datapath.md R121, free value,
log 6). -/
def nanF (t : Site) : F64 :=
  let w := (Config.nanBits t).toNat
  let fraction := w % 2 ^ 52
  packF64 (w / 2 ^ 63 == 1) (infMag + if fraction = 0 then 1 else fraction)

/-- Binary64 addition (40_datapath.md R120). An exact zero sum is +0 but for (-0) + (-0) = -0. -/
def addF (t : Site) (a b : F64) : F64 :=
  if isNaN a || isNaN b then nanF t
  else if isInf a then (if isInf b && signBit a != signBit b then nanF t else a)
  else if isInf b then b
  else
    let x := intUnits a + intUnits b
    if x = 0 then packF64 (signBit a && signBit b) 0
    else packF64 (decide (x < 0)) (roundMag x.natAbs 1)

/-- Binary64 subtraction (40_datapath.md R120): IEEE 754 defines a - b as a + (-b). -/
def subF (t : Site) (a b : F64) : F64 := addF t a (negF b)

/-- Binary64 multiplication (40_datapath.md R120); 0 * ∞ is NaN. -/
def mulF (t : Site) (a b : F64) : F64 :=
  let neg := signBit a != signBit b
  if isNaN a || isNaN b then nanF t
  else if isInf a || isInf b then
    (if unitsOf a = 0 || unitsOf b = 0 then nanF t else packF64 neg infMag)
  else packF64 neg (roundMag (unitsOf a * unitsOf b) (2 ^ 1074))

/-- Binary64 division (40_datapath.md R120); 0/0 and ∞/∞ are NaN, a finite nonzero value over 0 is ∞. -/
def divF (t : Site) (a b : F64) : F64 :=
  let neg := signBit a != signBit b
  if isNaN a || isNaN b then nanF t
  else if isInf a then (if isInf b then nanF t else packF64 neg infMag)
  else if isInf b then packF64 neg 0
  else if unitsOf b = 0 then (if unitsOf a = 0 then nanF t else packF64 neg infMag)
  else packF64 neg (roundMag (unitsOf a * 2 ^ 1074) (unitsOf b))

/-- `f64(d)` for an integer d ≥ 0 (40_datapath.md R127): exact for d ≤ 2^53. -/
def natF (d : Nat) : F64 := packF64 false (roundMag (d * 2 ^ 1074) 1)

/-- `HALF(x) = x * 0.5` (40_datapath.md R128). -/
def halfF (t : Site) (x : F64) : F64 := mulF t x 0x3FE0000000000000

end Sys2Proof.Machine
end

