-- ==== Sys2Proof/Syntax.lean ====
section
/-!
DEFINITION. The syntax of the nine commands and of the raw command word (spec/30_encoding.md R90-R95).
-/

namespace Sys2Proof

/-- An operand's element format: the FA and FB fields (30_encoding.md R93). -/
inductive Fmt where
  | real      -- field value 0: 8-byte binary64 elements
  | complex   -- field value 1: 16-byte pairs
  deriving DecidableEq, Repr

/-- The transform engine selected by ENG (30_encoding.md R92). -/
inductive Engine where
  | auto
  | radix2
  | bluestein
  deriving DecidableEq, Repr

/-- The exponent sign s of a transform (00_scope.md R13): forward is -1, inverse is +1. -/
inductive Direction where
  | forward
  | inverse
  deriving DecidableEq, Repr

/-- The command word cut into the fields of 30_encoding.md R90, before any check. -/
structure CmdFields where
  op   : BitVec 4
  eng  : BitVec 2
  fa   : Bool
  fb   : Bool
  herm : Bool
  res0 : BitVec 23
  deriving DecidableEq, Repr

/-- The nine commands of 30_encoding.md R95 with the free fields of each row. An illegal word (R96) is no
term of this type. -/
inductive Instr where
  | fft    (fa : Fmt)                -- FFT <fa>            41_transforms.md R173
  | fftR2  (fa : Fmt)                -- FFT.R2 <fa>         R174
  | fftBl  (fa : Fmt)                -- FFT.BL <fa>         R175
  | ifft   (fa : Fmt) (herm : Bool)  -- IFFT <fa>[, herm]   R177
  | ifftR2 (fa : Fmt) (herm : Bool)  -- IFFT.R2             R178
  | ifftBl (fa : Fmt) (herm : Bool)  -- IFFT.BL             R179
  | conv   (fa fb : Fmt)             -- CONV <fa>, <fb>     42_convolution.md R202
  | cconv  (fa fb : Fmt)             -- CCONV <fa>, <fb>    R205
  | nconv  (fa fb : Fmt)             -- NCONV <fa>, <fb>    R208
  deriving DecidableEq, Repr

/-- The first clause of 30_encoding.md R96 that makes a command word illegal. -/
inductive DecodeError where
  | reservedOp          -- a reserved OP value
  | reservedEng         -- ENG = 3
  | engOnConvolution    -- ENG other than 0 with OP 4, 5 or 6
  | fbOnTransform       -- FB = 1 with OP 1 or 2
  | hermNotInverse      -- HERM = 1 with OP other than 2
  | reservedBits        -- a bit of [31:9] set
  deriving DecidableEq, Repr

end Sys2Proof
end

