-- ==== Sys2Proof/Machine/Trig.lean ====
section
/-!
DEFINITION. The sine/cosine generator, the twiddle factors and ROM, the chirp and the twist
(spec/40_datapath.md R130-R135).

The spec defines a value as RNE of the exact real cos θ or sin θ. The model computes an approximation of
cos((π/2)·q) from an approximation of π and the first terms of the cosine series, in exact integer
arithmetic, and widens it to a bracket around the exact value. Where both ends of the bracket round to one
binary64 value, that value is RNE of the exact cosine. A first bracket decides almost every angle; where it
does not, a second one is so narrow that no point where the rounding changes can lie in it (log 7;
Laws/TrigExact.lean proves the result RNE at every angle). Every sine and every quadrant follows by the
identities of R131 and R133, which are exact, and a zero is never negated.
-/

namespace Sys2Proof.Machine

/-! ## The cosine of the first quadrant -/

/-- 1 - x/((j+1)(j+2))·(1 - x/((j+3)(j+4))·(…)) with `n` divisions, for x = x2/y2, as a fraction. -/
def cosSeries (x2 y2 : Int) : Nat → Nat → Int × Int
  | 0, _ => (1, 1)
  | n + 1, j =>
    match cosSeries x2 y2 n (j + 2) with
    | (a, b) => ((((j + 1) * (j + 2) : Nat) : Int) * y2 * b - x2 * a,
                 (((j + 1) * (j + 2) : Nat) : Int) * y2 * b)

/-- The first n + 1 terms of the cosine series of (P/S)·q, as a fraction. -/
def cosPoly (P S : Int) (n : Nat) (q : Rat) : Int × Int :=
  cosSeries (P * q.num * (P * q.num)) (S * q.den * (S * q.den)) n 0

/-- What the lower end and the upper end of the bracket a/b ± 2^-bits round to, as encodings; a lower end
below 0 counts as 0. -/
def roundEnds (a b : Int) (bits : Nat) : Nat × Nat :=
  let d := (b * 2 ^ bits).toNat
  (roundMag ((a * 2 ^ bits - b).toNat * 2 ^ 1074) d, roundMag ((a * 2 ^ bits + b).toNat * 2 ^ 1074) d)

/-! ### The first bracket -/

/-- ⌊π·2^256⌋ (PRESUMED: the digits of π are general knowledge; log 8). -/
def piBits : Nat := 0x3243f6a8885a308d313198a2e03707344a4093822299f31d0082efa98ec4e6c89

/-- The denominator under `piBits` for π/2. -/
def halfPiScale : Int := 2 ^ 257

/-- `cosPoly` with `piBits` for π and 32 terms is within 2^-trigBits of cos((π/2)·q) for 0 ≤ q ≤ 1 (DEDUCED,
log 7; proved in Laws/Trig.lean). -/
def trigBits : Nat := 250

/-- The rounding of cos((π/2)·q), as an encoding, where the bracket around it lies above 0 and both
its ends round alike. -/
def cosBracket (q : Rat) : Option Nat :=
  let f := cosPoly piBits halfPiScale 31 q
  let ends := roundEnds f.1 f.2 trigBits
  if f.2 < f.1 * 2 ^ trigBits ∧ ends.1 = ends.2 then some ends.1 else none

/-! ### The second bracket -/

/-- The first n terms from term i on of the arctangent series at 1/k. -/
def arctanSum (k : Rat) : Nat → Nat → Rat
  | 0, _ => 0
  | n + 1, i => (-1) ^ i * ((1 / k) ^ (2 * i + 1) / (2 * i + 1)) + arctanSum k n (i + 1)

/-- A rational number at most π and within 4·2^-4n of it: Machin's formula (PRESUMED, log 8; proved in
Laws/Pi.lean). -/
def piBelow (n : Nat) : Rat := 16 * arctanSum 5 (2 * n) 0 - 4 * arctanSum 239 (2 * n + 1) 0

/-- The bits of a bracket around cos((π/2)·(u/den)) that decides every rounding (DEDUCED, log 7; proved in
Laws/TrigExact.lean): with n = 4·den, the cosine x has cos(n·arccos x) = 1, and no half-way point y between two
binary64 values is nearer to x than 2^-1074n/(2n²), since 2·cos(n·arccos y) is no integer but a multiple of
2^-1074n. -/
def decidingBits (den : Nat) : Nat := 4304 * den + 8

/-- The centre of the second bracket of a given number of bits, as a fraction. -/
def cosFine (bits : Nat) (q : Rat) : Int × Int :=
  cosPoly (piBelow (bits + 1)).num (2 * (piBelow (bits + 1)).den) (bits + 2) q

/-- The rounding of cos((π/2)·q), as an encoding, from the second bracket, whose ends round alike. -/
def cosDecided (q : Rat) : Nat :=
  (roundEnds (cosFine (decidingBits q.den) q).1 (cosFine (decidingBits q.den) q).2 (decidingBits q.den)).1

/-- RNE of cos((π/2)·q) for a rational 0 ≤ q ≤ 1 (40_datapath.md R130), +0 at q = 1. -/
def cosQuarter (q : Rat) : F64 :=
  if q = 1 then zeroF
  else
    match cosBracket q with
    | some mag => packF64 false mag
    | none     => packF64 false (cosDecided q)

/-! ## The generator -/

/-- Negation that keeps an exact zero +0 (40_datapath.md R130, R133 step 4). -/
def negNonzero (x : F64) : F64 := if x = zeroF then zeroF else negF x

/-- The sign s of a direction applied to a sine part (40_datapath.md R130). -/
def signed (s : Direction) (x : F64) : F64 :=
  match s with
  | .inverse => x
  | .forward => negNonzero x

/-- `Gen(r, D, s)` (40_datapath.md R130): the parts of exp(s·2πi·(r mod D)/D), each correctly rounded.
The angle is (π/2)·(k + q) with quadrant k and 0 ≤ q < 1. -/
def gen (r D : Nat) (s : Direction) : C64 :=
  let k := 4 * (r % D) / D
  let q : Rat := ((4 * (r % D) % D : Nat) : Rat) / (D : Rat)
  let c := cosQuarter q
  let n := cosQuarter (1 - q)
  match k with
  | 0 => ⟨c, signed s n⟩
  | 1 => ⟨negNonzero n, signed s c⟩
  | 2 => ⟨negNonzero c, signed s (negNonzero n)⟩
  | _ => ⟨n, signed s (negNonzero c)⟩

/-- `W(j, m, s)`, the twiddle factor of a stage of length m (40_datapath.md R132). -/
def twiddle (j m : Nat) (s : Direction) : C64 := gen j m s

/-- `Chirp(n, N, s)` (40_datapath.md R134): n² is reduced mod 2N first. -/
def chirp (n N : Nat) (s : Direction) : C64 := gen (n * n % (2 * N)) (2 * N) s

/-- `Twist(n, N)` (40_datapath.md R135). -/
def twist (n N : Nat) : C64 := gen n (2 * N) .inverse

/-- Entry t of the twiddle ROM's quarter-wave table, `T[t] = RNE(cos(2π t / LMAX))` (40_datapath.md R133). -/
def romEntry (lmax t : Nat) : F64 := cosQuarter ((4 * t : Nat) / (lmax : Rat))

/-- The ROM's derivation of W(j, m, s) for m dividing LMAX (40_datapath.md R133, steps 1 to 4). No command
reads it: R133 says its values are rule R132's, and R44 that it is no state. -/
def romTwiddle (lmax j m : Nat) (s : Direction) : C64 :=
  let t := j * (lmax / m)
  let c := if t ≤ lmax / 4 then romEntry lmax t else negNonzero (romEntry lmax (lmax / 2 - t))
  let n := if t ≤ lmax / 4 then romEntry lmax (lmax / 4 - t) else romEntry lmax (t - lmax / 4)
  ⟨c, signed s n⟩

end Sys2Proof.Machine
end

