-- ==== Sys2Proof/Machine/Complex.lean ====
section
/-!
DEFINITION. The complex unit, the butterfly, the real-input kernels, the pointwise product and the sequence
helpers (spec/40_datapath.md R123-R129, R138-R142).

The first argument of a unit is its site, so that each NaN result is a draw of its own (R121).
-/

namespace Sys2Proof.Machine

/-- (+0, +0) (00_scope.md R11). -/
def zeroC : C64 := ⟨zeroF, zeroF⟩

/-- `CADD(p, q)` (40_datapath.md R123). -/
def cadd (t : Site) (p q : C64) : C64 := ⟨addF (0 :: t) p.re q.re, addF (1 :: t) p.im q.im⟩

/-- `CSUB(p, q)` (40_datapath.md R124). -/
def csub (t : Site) (p q : C64) : C64 := ⟨subF (0 :: t) p.re q.re, subF (1 :: t) p.im q.im⟩

/-- `CMUL(p, q)` (40_datapath.md R125): four rounded products, one rounded difference, one rounded sum. -/
def cmul (t : Site) (p q : C64) : C64 :=
  ⟨subF (0 :: t) (mulF (1 :: t) p.re q.re) (mulF (2 :: t) p.im q.im),
   addF (3 :: t) (mulF (4 :: t) p.re q.im) (mulF (5 :: t) p.im q.re)⟩

/-- `CCONJ(p)` (40_datapath.md R126). -/
def cconj (p : C64) : C64 := ⟨p.re, negF p.im⟩

/-- `CDIVN(p, d)` (40_datapath.md R127): a true division of each part by f64(d). -/
def cdivn (t : Site) (p : C64) (d : Nat) : C64 := ⟨divF (0 :: t) p.re (natF d), divF (1 :: t) p.im (natF d)⟩

/-- `PROMOTE(x)` (40_datapath.md R129). -/
def promote (x : F64) : C64 := ⟨x, zeroF⟩

/-- `BF(u, v, j, m, s)` (40_datapath.md R138): at j = 0 there is no multiply. -/
def butterfly (t : Site) (u v : C64) (j m : Nat) (s : Direction) : C64 × C64 :=
  let w := if j = 0 then v else cmul (0 :: t) (twiddle j m s) v
  (cadd (1 :: t) u w, csub (2 :: t) u w)

/-- `REAL2(a, b)` (40_datapath.md R139). -/
def real2 (t : Site) (a b : F64) : C64 × C64 := (⟨addF (0 :: t) a b, zeroF⟩, ⟨subF (1 :: t) a b, zeroF⟩)

/-- `RREC(zk, zc, k, N, s)` (40_datapath.md R140): the pair (X[k], X[N-k]). -/
def rrec (t : Site) (zk zc : C64) (k N : Nat) (s : Direction) : C64 × C64 :=
  let er := halfF (0 :: t) (addF (1 :: t) zk.re zc.re)
  let ei := halfF (2 :: t) (subF (3 :: t) zk.im zc.im)
  let odr := halfF (4 :: t) (addF (5 :: t) zk.im zc.im)
  let odi := halfF (6 :: t) (subF (7 :: t) zc.re zk.re)
  let tw := cmul (8 :: t) (gen k N s) ⟨odr, odi⟩
  let xr := addF (9 :: t) er tw.re
  let xi := addF (10 :: t) ei tw.im
  (⟨xr, xi⟩, ⟨xr, negF xi⟩)

/-- `PMUL(A, B)` (40_datapath.md R141). -/
def pmul (t : Site) (a b : List C64) : List C64 :=
  (a.zip b).zipIdx.map fun e => cmul (e.2 :: t) e.1.1 e.1.2

/-- `PADR(x, L)` (40_datapath.md R142). -/
def padReal (x : List F64) (l : Nat) : List F64 := x ++ List.replicate (l - x.length) zeroF

/-- `PADC(x, L)` (40_datapath.md R142). -/
def padComplex (x : List C64) (l : Nat) : List C64 := x ++ List.replicate (l - x.length) zeroC

/-- `REPART(x)` (40_datapath.md R142). -/
def repart (x : List C64) : List F64 := x.map C64.re

end Sys2Proof.Machine
end

