-- ==== Sys2Proof/WellFormed.lean ====
section
/-!
DEFINITION. The well-formedness checks: of the raw command fields (spec/30_encoding.md R96) and of the
platform's parameters (spec/00_scope.md R7). `Instr` itself has no ill-formed term.
-/

namespace Sys2Proof

/-- OP is a transform, 0x1 or 0x2 (30_encoding.md R91). -/
def CmdFields.isTransform (f : CmdFields) : Bool := f.op == 1 || f.op == 2

/-- OP is a convolution, 0x4, 0x5 or 0x6 (30_encoding.md R91). -/
def CmdFields.isConvolution (f : CmdFields) : Bool := f.op == 4 || f.op == 5 || f.op == 6

/-- The clause of 30_encoding.md R96 that the fields break, if any, in the order R96 lists them. -/
def CmdFields.illegal (f : CmdFields) : Option DecodeError :=
  if !f.isTransform && !f.isConvolution then some .reservedOp
  else if f.eng == 3 then some .reservedEng
  else if f.isConvolution && f.eng != 0 then some .engOnConvolution
  else if f.isTransform && f.fb then some .fbOnTransform
  else if f.herm && f.op != 2 then some .hermNotInverse
  else if f.res0 != 0 then some .reservedBits
  else none

/-- The fields are those of a legal command word (30_encoding.md R96). -/
def CmdFields.wf (f : CmdFields) : Bool := f.illegal == none

/-- The platform's parameters lie in the ranges of 00_scope.md R7. -/
def Platform.wf (p : Platform) : Bool :=
  decide (1 ≤ p.log2Lmax ∧ p.log2Lmax ≤ 30 ∧ 32 ≤ p.paBits ∧ p.paBits ≤ 64 ∧ 1 ≤ p.numInstances)

end Sys2Proof
end

