-- ==== Sys2Proof/Decode.lean ====
section
/-!
DEFINITION. The decoder and the encoder of the command word (spec/30_encoding.md R90-R96, R100).

`decode` looks the word up in the match/mask table of R95 and reads the free fields of R90; a word that
selects no row is named by the clause of R96 it breaks. Decoding depends on the word alone (R90, R103).
The encoder is written from the field tables R91-R94, so that the two readings can be compared.
-/

namespace Sys2Proof

/-- The fields of a command word (30_encoding.md R90). -/
def fieldsOf (w : Word) : CmdFields where
  op   := w.extractLsb' 0 4
  eng  := w.extractLsb' 4 2
  fa   := w.getLsbD 6
  fb   := w.getLsbD 7
  herm := w.getLsbD 8
  res0 := w.extractLsb' 9 23

/-- FA and FB: 0 is real, 1 is complex (30_encoding.md R93). -/
def fmtOf (b : Bool) : Fmt := if b then .complex else .real

/-- The field value of a format (30_encoding.md R93). -/
def Fmt.bit : Fmt → Bool
  | .real    => false
  | .complex => true

/-- One row of 30_encoding.md R95: a word w selects it when `w &&& mask = value`; `make` reads the row's
free fields FA, FB and HERM. -/
structure OpcodeRow where
  mnemonic : String
  value    : Word
  mask     : Word
  make     : Fmt → Fmt → Bool → Instr

/-- The match/mask table of 30_encoding.md R95, row by row. -/
def opcodeRows : List OpcodeRow :=
  [ ⟨"FFT",     0x00000001, 0xFFFFFFBF, fun fa _ _ => .fft fa⟩
  , ⟨"FFT.R2",  0x00000011, 0xFFFFFFBF, fun fa _ _ => .fftR2 fa⟩
  , ⟨"FFT.BL",  0x00000021, 0xFFFFFFBF, fun fa _ _ => .fftBl fa⟩
  , ⟨"IFFT",    0x00000002, 0xFFFFFEBF, fun fa _ herm => .ifft fa herm⟩
  , ⟨"IFFT.R2", 0x00000012, 0xFFFFFEBF, fun fa _ herm => .ifftR2 fa herm⟩
  , ⟨"IFFT.BL", 0x00000022, 0xFFFFFEBF, fun fa _ herm => .ifftBl fa herm⟩
  , ⟨"CONV",    0x00000004, 0xFFFFFF3F, fun fa fb _ => .conv fa fb⟩
  , ⟨"CCONV",   0x00000005, 0xFFFFFF3F, fun fa fb _ => .cconv fa fb⟩
  , ⟨"NCONV",   0x00000006, 0xFFFFFF3F, fun fa fb _ => .nconv fa fb⟩ ]

/-- Does the word select the row (30_encoding.md R95)? -/
def OpcodeRow.selects (r : OpcodeRow) (w : Word) : Bool := (w &&& r.mask) == r.value

/-- Decoding a command word: the command of the row the word selects (30_encoding.md R95), or the first
clause of R96 that makes it illegal. -/
def decode (w : Word) : Except DecodeError Instr :=
  let f := fieldsOf w
  match opcodeRows.find? (fun r => r.selects w) with
  | some r => .ok (r.make (fmtOf f.fa) (fmtOf f.fb) f.herm)
  | none   => .error (f.illegal.getD .reservedOp)

/-- The mnemonic of a command, as 30_encoding.md R100 spells it. -/
def Instr.mnemonic : Instr → String
  | .fft _      => "FFT"
  | .fftR2 _    => "FFT.R2"
  | .fftBl _    => "FFT.BL"
  | .ifft _ _   => "IFFT"
  | .ifftR2 _ _ => "IFFT.R2"
  | .ifftBl _ _ => "IFFT.BL"
  | .conv _ _   => "CONV"
  | .cconv _ _  => "CCONV"
  | .nconv _ _  => "NCONV"

/-- The field values of a command (30_encoding.md R91-R94): the encoder's own reading of the tables. -/
def Instr.fields : Instr → CmdFields
  | .fft fa      => ⟨1, 0, fa.bit, false, false, 0⟩
  | .fftR2 fa    => ⟨1, 1, fa.bit, false, false, 0⟩
  | .fftBl fa    => ⟨1, 2, fa.bit, false, false, 0⟩
  | .ifft fa h   => ⟨2, 0, fa.bit, false, h, 0⟩
  | .ifftR2 fa h => ⟨2, 1, fa.bit, false, h, 0⟩
  | .ifftBl fa h => ⟨2, 2, fa.bit, false, h, 0⟩
  | .conv fa fb  => ⟨4, 0, fa.bit, fb.bit, false, 0⟩
  | .cconv fa fb => ⟨5, 0, fa.bit, fb.bit, false, 0⟩
  | .nconv fa fb => ⟨6, 0, fa.bit, fb.bit, false, 0⟩

/-- The word with the given fields: RES0, HERM, FB, FA, ENG, OP from the top (30_encoding.md R90). -/
def CmdFields.word (f : CmdFields) : Word :=
  f.res0 ++ BitVec.ofBool f.herm ++ BitVec.ofBool f.fb ++ BitVec.ofBool f.fa ++ f.eng ++ f.op

/-- Encoding a command as its 32-bit word (30_encoding.md R100). -/
def encode (i : Instr) : Word := i.fields.word

/-- Every command is well formed: its fields pass 30_encoding.md R96. -/
def Instr.wf (i : Instr) : Bool := i.fields.wf

/-- The command the decoder reads from a word of `nbits` bits numbered as spec/opcode_table.json numbers
them; the command is one 32-bit word, whose bits above `nbits` are 0. -/
def decodeTableWord (nbits w : Nat) : Option Instr :=
  match decode (BitVec.ofNat 32 (w % 2 ^ nbits)) with
  | .ok i    => some i
  | .error _ => none

end Sys2Proof
end

