-- ==== Sys2Proof/Machine/State.lean ====
section
/-!
DEFINITION. The machine's state as plain data, the reasons a step can stop, and the state after reset
(spec/10_state.md R20-R47, spec/70_reset_and_hazards.md R260).
-/

namespace Sys2Proof.Machine

/-- The sequencer state STATUS.STATE (10_state.md R21, R25). -/
inductive Seq where
  | idle
  | busy
  | done
  | error
  deriving DecidableEq, Repr

/-- The error codes STATUS.ERRCODE (60_exceptions.md R231); 0x08 to 0xFF are never produced. -/
inductive ErrCode where
  | none         -- 0x00
  | illegalCmd   -- 0x01
  | notPow2      -- 0x02
  | lenMismatch  -- 0x03
  | lenRange     -- 0x04
  | align        -- 0x05
  | addrRange    -- 0x06
  | busError     -- 0x07
  deriving DecidableEq, Repr

/-- The width of a host access in bytes (30_encoding.md R102; 10_state.md R38). -/
inductive Width where
  | w1
  | w2
  | w4
  | w8
  deriving DecidableEq, Repr

/-- One action of the host or the platform (00_scope.md R6, 30_encoding.md R102). -/
inductive HostEvent where
  /-- A read of `width` bytes at a bus address: R32 in the window, MR64 and the like in memory. -/
  | read (addr : Nat) (width : Width)
  /-- A write of the low `width` bytes of `value` at a bus address: W32 or MW64 and the like. -/
  | write (addr : Nat) (width : Width) (value : BitVec 64)
  /-- POLL: repeat a 32-bit register read until `v &&& mask = value`. -/
  | poll (addr : Nat) (mask value : Word)
  /-- Make the host's writes to these bytes visible to the engine (70_reset_and_hazards.md R267). -/
  | clean (span : Span)
  /-- Invalidate the host's cache lines over these bytes (70_reset_and_hazards.md R269). -/
  | invalidate (span : Span)
  /-- Wait until irq is high, and take the interrupt (20_memory.md R74, 70_reset_and_hazards.md R264 step 7). -/
  | takeIrq
  /-- Another engine instance is started on these regions A and B and this region D (20_memory.md R81). -/
  | peerStart (inst : Nat) (inputs : List Span) (result : Span)
  /-- Another engine instance's 8-byte write, through no host cache (20_memory.md R68, R78, R81). -/
  | peerWrite (addr : Nat) (value : BitVec 64)
  /-- Another engine instance ends, in DONE or ERROR. -/
  | peerEnd (inst : Nat)
  /-- The host observes that another engine instance has ended (70_reset_and_hazards.md R269, of that instance). -/
  | peerSeen (inst : Nat)
  /-- The host does nothing for one turn; the engine moves. -/
  | wait
  /-- The platform asserts the engine's reset input (70_reset_and_hazards.md R260). -/
  | reset
  deriving DecidableEq, Repr

/-- Another engine instance that is BUSY, or has ended and the host has not observed it (60_exceptions.md R250,
20_memory.md R81; log 32). -/
structure Peer where
  /-- Which of the NUM_INSTANCES instances it is, where this engine is 0 (log 32). -/
  inst   : Nat
  /-- Its regions A and B. -/
  inputs : List Span
  /-- Its region D, or a part of it. -/
  result : Span
  busy   : Bool
  deriving DecidableEq, Repr

/-- System memory: the bytes that differ from what an unlisted byte reads as, by rising address. -/
abbrev Memory := List Host.Cell

/-- Everything the spec gives the machine, with the model's own fields last (INVENTORY.md, State). -/
structure State where
  /-- The platform's parameters (00_scope.md R7); no step changes them. -/
  platform : Platform
  /-- STATUS.STATE (10_state.md R21, R25). -/
  seq      : Seq
  /-- STATUS.ERRCODE (10_state.md R25). -/
  err      : ErrCode
  /-- CMD (10_state.md R26). -/
  cmd      : Word
  /-- LEN_A (10_state.md R27). -/
  lenA     : Word
  /-- LEN_B (10_state.md R27). -/
  lenB     : Word
  /-- OUT_LEN (10_state.md R28). -/
  outLen   : Word
  /-- SRC_A_LO and SRC_A_HI (10_state.md R29). -/
  srcALo   : Word
  srcAHi   : Word
  /-- SRC_B_LO and SRC_B_HI (10_state.md R29). -/
  srcBLo   : Word
  srcBHi   : Word
  /-- DST_LO and DST_HI (10_state.md R29). -/
  dstLo    : Word
  dstHi    : Word
  /-- IRQ_EN[1:0]: DONE_IE in bit 0, ERR_IE in bit 1 (10_state.md R30). -/
  irqEn    : BitVec 2
  /-- IRQ_STAT[1:0]: DONE_IP in bit 0, ERR_IP in bit 1 (10_state.md R31). -/
  irqStat  : BitVec 2
  /-- ERR_ADDR_HI:ERR_ADDR_LO (10_state.md R32). -/
  errAddr  : Addr
  /-- System memory (00_scope.md R6). -/
  mem      : Memory
  /-- A host write, or another instance, has raced with the running command (20_memory.md R75, R81). -/
  raced    : Bool
  /-- Bytes the host wrote and has not made visible to the engine, when IO_COHERENT is false
  (70_reset_and_hazards.md R267). -/
  unclean  : List Span
  /-- Bytes the engine or another instance wrote and the host has not invalidated, when IO_COHERENT is false
  (70_reset_and_hazards.md R269; 20_memory.md R78). -/
  stale    : List Span
  /-- Bytes of region D of commands that went to DONE, where the host has not observed it since
  (70_reset_and_hazards.md R265, R269; log 31). -/
  unseen   : List Span
  /-- The other engine instances that run, or that have ended and the host has not observed (20_memory.md R81,
  60_exceptions.md R250; log 32). -/
  peers    : List Peer
  /-- The model's own: the host's accesses still to come, oldest first (log 3). -/
  script   : List HostEvent
  /-- The model's own: what the host's last read returned (log 23). -/
  hostData : BitVec 64
  /-- The model's own: the number of the next set of free values (log 22). -/
  draws    : Nat
  deriving DecidableEq, Repr

/-- The faults: the step has no next state. -/
inductive Fault where
  /-- Raised by an engine access that never completes (70_reset_and_hazards.md R274: "a model treats it as
  **stuck**"). Safe: nothing is claimed of the machine after it (log 16). -/
  | busHang (addr : Nat)
  /-- Raised by an access of the host outside 0 .. 2^PA_BITS - 1, where there is no system memory (20_memory.md R60).
  Safe (log 18). -/
  | noSuchAddress (addr : Nat)
  deriving DecidableEq, Repr

/-- The refusals: the spec gives the case no meaning. -/
inductive Refusal where
  /-- An instruction without a meaning in the model; raised by no arm of `exec`. -/
  | notModelled (mnemonic : String)
  /-- Raised by a host access to the window that is not 32 bits wide at a multiple of 4 (10_state.md R38,
  MMIO_NARROW: "A model **refuses** such an access"). Safe (log 17). -/
  | registerAccess (addr : Nat)
  /-- Raised by a command with a region over a device with read side effects, and by another instance's write to
  one (20_memory.md R69: "a model **refuses** such a command"). Safe (log 15). -/
  | deviceRegion
  /-- Raised by a host access to such a device, which is no part of this block. Safe (log 15). -/
  | hostDevice (addr : Nat)
  deriving DecidableEq, Repr

/-- The machine right after reset on a given platform: every register at 10_state.md R20's reset column,
no byte of memory listed (70_reset_and_hazards.md R260, R262), no host access pending. -/
def State.resetOn (p : Platform) : State where
  platform := p
  seq      := .idle
  err      := .none
  cmd      := 0
  lenA     := 0
  lenB     := 0
  outLen   := 0
  srcALo   := 0
  srcAHi   := 0
  srcBLo   := 0
  srcBHi   := 0
  dstLo    := 0
  dstHi    := 0
  irqEn    := 0
  irqStat  := 0
  errAddr  := 0
  mem      := []
  raced    := false
  unclean  := []
  stale    := []
  unseen   := []
  peers    := []
  script   := []
  hostData := 0
  draws    := 0

/-- The machine right after reset (10_state.md R47), on the vectors' platform (DESIGN CHOICE, log 1). -/
def State.reset : State := State.resetOn Platform.vectors

end Sys2Proof.Machine
end

