-- ==== Sys2Proof/Machine/Ops.lean ====
section
/-!
DEFINITION. The named operations over memory, address spans and the sequencer's registers
(spec/20_memory.md R60-R63, spec/10_state.md R28-R47, spec/60_exceptions.md R236, R239).

Taking an error (`State.enterError`), leaving it (`State.clear`) and completing a command
(`State.enterDone`) stand here, each once.
-/

namespace Sys2Proof.Machine

/-! ## Memory -/

/-- What a byte of system memory reads as before anything has written it (DESIGN CHOICE, log 9;
70_reset_and_hazards.md R262 gives no value). -/
def unwrittenByte : Byte := 0

/-- The canonical form of memory: addresses strictly rising from at least `lo`, no byte listed that equals
what an unlisted byte reads as. -/
def memWfFrom : Nat → Memory → Bool
  | _, [] => true
  | lo, (a, b) :: rest => decide (lo ≤ a) && b != unwrittenByte && memWfFrom (a + 1) rest

/-- The canonical form of memory. -/
def Memory.wf (m : Memory) : Bool := memWfFrom 0 m

/-- The byte at an address. -/
def memRead : Memory → Nat → Byte
  | [], _ => unwrittenByte
  | (k, b) :: rest, a => if a = k then b else if a < k then unwrittenByte else memRead rest a

/-- Writing the byte at an address, keeping the canonical form. -/
def memWrite : Memory → Nat → Byte → Memory
  | [], a, b => if b = unwrittenByte then [] else [(a, b)]
  | (k, c) :: rest, a, b =>
    if a = k then (if b = unwrittenByte then rest else (a, b) :: rest)
    else if a < k then (if b = unwrittenByte then (k, c) :: rest else (a, b) :: (k, c) :: rest)
    else (k, c) :: memWrite rest a b

/-- The n bytes that `byteAt` gives at a, a+1, …, assembled little-endian (20_memory.md R62, 00_scope.md R11). -/
def leBytes (byteAt : Nat → Byte) : Nat → Nat → Nat
  | _, 0 => 0
  | a, n + 1 => (byteAt a).toNat + 256 * leBytes byteAt (a + 1) n

/-- `MemRead(addr, n)` (00_scope.md R11). -/
def memReadBytes (m : Memory) (a n : Nat) : Nat := leBytes (memRead m) a n

/-- `MemWrite(addr, n, v)` (00_scope.md R11): the n low-order bytes of v, little-endian. -/
def memWriteBytes : Memory → Nat → Nat → Nat → Memory
  | m, _, 0, _ => m
  | m, a, n + 1, v => memWriteBytes (memWrite m a (BitVec.ofNat 8 v)) (a + 1) n (v / 256)

/-- Writing a free byte at each of n addresses (70_reset_and_hazards.md R261). -/
def memFillAny (t : Site) : Memory → Nat → Nat → Memory
  | m, _, 0 => m
  | m, a, n + 1 => memFillAny t (memWrite m a (Config.anyByte (a :: t))) (a + 1) n

/-! ## Address spans -/

end Sys2Proof.Machine

namespace Sys2Proof

/-- The address lies in the span. -/
def Span.has (x : Span) (a : Nat) : Bool := decide (x.base ≤ a ∧ a < x.base + x.size)

/-- The address lies in one of the spans. -/
def spansHave (xs : List Span) (a : Nat) : Bool := xs.any fun x => x.has a

/-- The two spans share an address. -/
def Span.overlaps (x y : Span) : Bool :=
  decide (0 < x.size ∧ 0 < y.size ∧ x.base < y.base + y.size ∧ y.base < x.base + x.size)

/-- The addresses in both spans. -/
def Span.inter (x y : Span) : Span :=
  ⟨max x.base y.base, min (x.base + x.size) (y.base + y.size) - max x.base y.base⟩

/-- The addresses of x that are not in y. -/
def Span.minus (x y : Span) : List Span :=
  (if x.base < y.base then [⟨x.base, min (x.base + x.size) y.base - x.base⟩] else [])
    ++ (if y.base + y.size < x.base + x.size
        then [⟨max x.base (y.base + y.size), x.base + x.size - max x.base (y.base + y.size)⟩] else [])

/-- The addresses of the spans that are not in y. -/
def spansDrop (xs : List Span) (y : Span) : List Span := xs.flatMap fun x => x.minus y

/-- The addresses of the spans that are in none of ys. -/
def spansDropAll (xs ys : List Span) : List Span := ys.foldl spansDrop xs

/-- The addresses of the spans that are in y. -/
def spansInter (xs : List Span) (y : Span) : List Span := xs.map fun x => x.inter y

/-- The cache lines of 2^k bytes that hold the addresses of a span. -/
def Span.lines (k : Nat) (x : Span) : Span :=
  if x.size = 0 then x
  else
    let lo := x.base / 2 ^ k * 2 ^ k
    ⟨lo, ((x.base + x.size - 1) / 2 ^ k + 1) * 2 ^ k - lo⟩

end Sys2Proof

namespace Sys2Proof.Machine

/-- Writing a free byte at each address of each span (20_memory.md R78). -/
def memFillSpans (t : Site) : List Span → Memory → Memory
  | [], m => m
  | x :: xs, m => memFillSpans t xs (memFillAny t m x.base x.size)

/-! ## The address registers (30_encoding.md R98) -/

/-- `srcA = {SRC_A_HI, SRC_A_LO}` (10_state.md R29). -/
def State.srcA (s : State) : Addr := s.srcAHi ++ s.srcALo

/-- `srcB = {SRC_B_HI, SRC_B_LO}` (10_state.md R29). -/
def State.srcB (s : State) : Addr := s.srcBHi ++ s.srcBLo

/-- `dst = {DST_HI, DST_LO}` (10_state.md R29). -/
def State.dst (s : State) : Addr := s.dstHi ++ s.dstLo

/-- LMAX = 2^CAPS[4:0] (10_state.md R23). -/
def State.lmax (s : State) : Nat := 2 ^ s.platform.log2Lmax

/-! ## The sequencer's transitions (10_state.md R39) -/

/-- Error entry, with code `e` and address `a` (60_exceptions.md R236): STATE, ERRCODE, err_addr, OUT_LEN and
ERR_IP change in one step, nothing else. -/
def State.enterError (s : State) (e : ErrCode) (a : Addr) : State :=
  { s with seq := .error, err := e, errAddr := a, outLen := 0, irqStat := s.irqStat ||| 2 }

/-- Entry to DONE with `n` result elements (10_state.md R28, R31; 41_transforms.md R172). -/
def State.enterDone (s : State) (n : Word) : State :=
  { s with seq := .done, outLen := n, irqStat := s.irqStat ||| 1 }

/-- Entry to BUSY (10_state.md R40): the command begins, raced from its start where another instance's run races
with it (20_memory.md R81). -/
def State.enterBusy (s : State) (raced : Bool) : State := { s with seq := .busy, raced := raced }

/-- The exit from DONE or ERROR to IDLE (10_state.md R41): ERRCODE and err_addr become 0. -/
def State.enterIdle (s : State) : State := { s with seq := .idle, err := .none, errAddr := 0 }

/-- System memory replaced. -/
def State.withMem (s : State) (m : Memory) : State := { s with mem := m }

/-- What is left of an ended instance's result after its bytes in x have been written anew. -/
def Peer.rewritten (x : Span) (p : Peer) : List Peer :=
  if p.busy then [p] else (p.result.minus x).map fun r => { p with result := r }

/-- The bytes of x hold no earlier result any more, this engine's or another instance's, that the host has yet to see:
they have been written anew (log 31). -/
def State.rewritten (s : State) (x : Span) : State :=
  { s with unseen := spansDrop s.unseen x, peers := s.peers.flatMap (Peer.rewritten x) }

/-- What another instance still hides of a byte from the host: a byte of regions A, B or D while it is BUSY, and of
region D until the host has observed its end (70_reset_and_hazards.md R265, R269; log 32). -/
def Peer.hides (p : Peer) (a : Nat) : Bool := p.result.has a || (p.busy && spansHave p.inputs a)

/-- One of the instances hides the byte. -/
def peersHide (ps : List Peer) (a : Nat) : Bool := ps.any fun p => p.hides a

/-- The end of a run's accesses: its free values are spent, its race flag is done with, and with
IO_COHERENT false the host's cache lines over the region written are stale (20_memory.md R78,
70_reset_and_hazards.md R269). What an earlier command left there is no longer its result. -/
def State.endRun (s : State) (written : Span) : State :=
  State.rewritten
    { s with
        draws := s.draws + 1, raced := false,
        stale := if s.platform.ioCoherent then s.stale else written :: s.stale }
    written

/-- A result in a region that the host may read only after it has observed DONE (70_reset_and_hazards.md R269). -/
def State.awaitSight (s : State) (d : Span) : State := { s with unseen := d :: s.unseen }

/-- The host looks at the engine: where it finds it DONE, it sees every result so far (20_memory.md R74,
70_reset_and_hazards.md R269). -/
def State.observe (s : State) (foundDone : Bool) : State :=
  { s with unseen := if foundDone then [] else s.unseen }

/-- Every register at its reset value (10_state.md R47, 70_reset_and_hazards.md R260); system memory, the
platform and the host's side stay (R262). -/
def State.resetRegisters (s : State) : State :=
  { State.resetOn s.platform with
      mem := s.mem, unclean := s.unclean, stale := s.stale, unseen := s.unseen, peers := s.peers,
      script := s.script, hostData := s.hostData, draws := s.draws }

end Sys2Proof.Machine
end

