-- ==== Sys2Proof/Machine/Flags.lean ====
section
/-!
DEFINITION. The status flags: STATUS, the pending bits and the interrupt output (spec/10_state.md R25, R30,
R31, R45, R46; spec/60_exceptions.md R231, R243). The engine has no condition codes and no floating-point
flags (R46).
-/

namespace Sys2Proof.Machine

/-- STATUS[1:0] (10_state.md R25). -/
def Seq.bits : Seq → BitVec 2
  | .idle  => 0
  | .busy  => 1
  | .done  => 2
  | .error => 3

/-- STATUS[15:8] (60_exceptions.md R231). -/
def ErrCode.bits : ErrCode → BitVec 8
  | .none        => 0x00
  | .illegalCmd  => 0x01
  | .notPow2     => 0x02
  | .lenMismatch => 0x03
  | .lenRange    => 0x04
  | .align       => 0x05
  | .addrRange   => 0x06
  | .busError    => 0x07

/-- The STATUS register (10_state.md R25). -/
def State.statusWord (s : State) : Word := 0#16 ++ s.err.bits ++ 0#6 ++ s.seq.bits

/-- DONE_IP and ERR_IP (10_state.md R31). -/
def State.doneIp (s : State) : Bool := s.irqStat.getLsbD 0
def State.errIp (s : State) : Bool := s.irqStat.getLsbD 1

/-- DONE_IE and ERR_IE (10_state.md R30). -/
def State.doneIe (s : State) : Bool := s.irqEn.getLsbD 0
def State.errIe (s : State) : Bool := s.irqEn.getLsbD 1

/-- The interrupt output, a level (10_state.md R45). -/
def State.irq (s : State) : Bool := (s.doneIp && s.doneIe) || (s.errIp && s.errIe)

/-- DONE_IP with DONE_IE, one of the two signs of DONE (70_reset_and_hazards.md R269). -/
def State.doneIrq (s : State) : Bool := s.doneIp && s.doneIe

/-- The pending bits left after the host writes `v` to IRQ_STAT: write 1 to clear (10_state.md R31). -/
def clearPending (pending : BitVec 2) (v : Word) : BitVec 2 := pending &&& ~~~ (v.extractLsb' 0 2)

end Sys2Proof.Machine
end

