-- ==== Sys2Proof/Machine/Operands.lean ====
section
/-!
DEFINITION. Operands: the formatted sequences, the three regions of a command and the engine's memory port
(spec/20_memory.md R61-R73, spec/30_encoding.md R93, R97, R98).
-/

namespace Sys2Proof.Machine

/-! ## Sequences of a format -/

/-- A sequence of real or of complex elements (30_encoding.md R93). -/
inductive Operand where
  | real (xs : List F64)
  | complex (zs : List C64)
  deriving DecidableEq, Repr

/-- The number of elements. -/
def Operand.length : Operand → Nat
  | .real xs    => xs.length
  | .complex zs => zs.length

/-- The 8-byte words read as complex elements: the real part first (20_memory.md R61, R63). -/
def pairUp : List F64 → List C64
  | a :: b :: rest => ⟨a, b⟩ :: pairUp rest
  | _ => []

/-- The 8-byte words of a region read in a format (20_memory.md R63). -/
def operandOf : Fmt → List F64 → Operand
  | .real, ws    => .real ws
  | .complex, ws => .complex (pairUp ws)

/-- The 8-byte words a sequence is written as (20_memory.md R63). -/
def Operand.words : Operand → List F64
  | .real xs    => xs
  | .complex zs => zs.flatMap fun z => [z.re, z.im]

/-- The sequence as complex values, real elements promoted (40_datapath.md R129). -/
def Operand.toComplex : Operand → List C64
  | .real xs    => xs.map promote
  | .complex zs => zs

/-- PADR or PADC, by the operand's format (40_datapath.md R142, 42_convolution.md R202). -/
def Operand.pad (x : Operand) (l : Nat) : Operand :=
  match x with
  | .real xs    => .real (padReal xs l)
  | .complex zs => .complex (padComplex zs l)

/-- Both operands are real, so the output is (42_convolution.md R201). -/
def Operand.bothReal : Operand → Operand → Bool
  | .real _, .real _ => true
  | _, _             => false

/-! ## Regions (20_memory.md R64) -/

end Sys2Proof.Machine

namespace Sys2Proof

/-- `esz(F)`: the bytes of one element (20_memory.md R61). -/
def Fmt.size : Fmt → Nat
  | .real    => 8
  | .complex => 16

/-- The output format of a convolution (42_convolution.md R201). -/
def fmtOut : Fmt → Fmt → Fmt
  | .real, .real => .real
  | _, _         => .complex

/-- Format of operand A (30_encoding.md R93). -/
def Instr.fmtA : Instr → Fmt
  | .fft fa      => fa
  | .fftR2 fa    => fa
  | .fftBl fa    => fa
  | .ifft fa _   => fa
  | .ifftR2 fa _ => fa
  | .ifftBl fa _ => fa
  | .conv fa _   => fa
  | .cconv fa _  => fa
  | .nconv fa _  => fa

/-- Format of operand B; a transform has none (30_encoding.md R93). -/
def Instr.fmtB : Instr → Fmt
  | .fft _      => .real
  | .fftR2 _    => .real
  | .fftBl _    => .real
  | .ifft _ _   => .real
  | .ifftR2 _ _ => .real
  | .ifftBl _ _ => .real
  | .conv _ fb  => fb
  | .cconv _ fb => fb
  | .nconv _ fb => fb

/-- The number of result elements for operand lengths N and M (10_state.md R28, 42_convolution.md R202, R203). -/
def outLength (i : Instr) (n m : Nat) : Nat :=
  match i with
  | .fft _      => n
  | .fftR2 _    => n
  | .fftBl _    => n
  | .ifft _ _   => n
  | .ifftR2 _ _ => n
  | .ifftBl _ _ => n
  | .conv _ _   => if n = 0 ∨ m = 0 then 0 else n + m - 1
  | .cconv _ _  => n
  | .nconv _ _  => n

/-- The bytes of regions A, B and D for lengths N and M (20_memory.md R64). -/
def regionSizes (i : Instr) (n m : Nat) : Nat × Nat × Nat :=
  match i with
  | .conv fa fb  =>
    if n = 0 ∨ m = 0 then (0, 0, 0)
    else (n * fa.size, m * fb.size, (n + m - 1) * (fmtOut fa fb).size)
  | .cconv fa fb => (n * fa.size, n * fb.size, n * (fmtOut fa fb).size)
  | .nconv fa fb => (n * fa.size, n * fb.size, n * (fmtOut fa fb).size)
  | .fft fa      => (n * fa.size, 0, 16 * n)
  | .fftR2 fa    => (n * fa.size, 0, 16 * n)
  | .fftBl fa    => (n * fa.size, 0, 16 * n)
  | .ifft fa _   => (n * fa.size, 0, 16 * n)
  | .ifftR2 fa _ => (n * fa.size, 0, 16 * n)
  | .ifftBl fa _ => (n * fa.size, 0, 16 * n)

end Sys2Proof

namespace Sys2Proof.Machine

/-- N = zext(LEN_A) and M = zext(LEN_B) (30_encoding.md R98). -/
def State.lenN (s : State) : Nat := s.lenA.toNat
def State.lenM (s : State) : Nat := s.lenB.toNat

/-- Regions A, B and D of a command (20_memory.md R64). -/
def regionA (i : Instr) (s : State) : Span := ⟨s.srcA.toNat, (regionSizes i s.lenN s.lenM).1⟩
def regionB (i : Instr) (s : State) : Span := ⟨s.srcB.toNat, (regionSizes i s.lenN s.lenM).2.1⟩
def regionD (i : Instr) (s : State) : Span := ⟨s.dst.toNat, (regionSizes i s.lenN s.lenM).2.2⟩

/-- The three regions in the order of the start checks (60_exceptions.md R240). -/
def regionsOf (i : Instr) (s : State) : List Span := [regionA i s, regionB i s, regionD i s]

/-- The command the sequencer is executing, if any (10_state.md R39). -/
def State.running (s : State) : Option Instr :=
  match s.seq, decode s.cmd with
  | .busy, .ok i => some i
  | _, _         => none

/-- A byte of the span lies in a region of the running command (20_memory.md R75). -/
def State.hitsRunning (s : State) (x : Span) : Bool :=
  match s.running with
  | some i => (regionsOf i s).any fun r => r.overlaps x
  | none   => false

/-- A region of command i shares a byte with region D of another instance that is BUSY (20_memory.md R81). -/
def State.peersHit (s : State) (i : Instr) : Bool :=
  s.peers.any fun p => p.busy && (regionsOf i s).any fun r => r.overlaps p.result

/-! ## The engine's memory port (20_memory.md R68-R73) -/

/-- How an engine access ends a command's phase. -/
inductive BusStop where
  | fail (addr : Nat)   -- ¬BUS_OK: BUS_ERROR at this address (R70)
  | hang (addr : Nat)   -- the access never completes (70_reset_and_hazards.md R274)
  deriving DecidableEq, Repr

/-- The address of the access that stopped the run. -/
def BusStop.addr : BusStop → Nat
  | .fail a => a
  | .hang a => a

/-- The outcome of an 8-byte engine access at an address: none when it completes. -/
def busAccess (p : Platform) (a : Nat) : Option BusStop :=
  if spansHave p.busHang a then some (.hang a)
  else if spansHave p.busFail a then some (.fail a)
  else none

/-- The lines of the host's caches that hold bytes the host wrote and has not cleaned (20_memory.md R78). -/
def State.dirtyLines (s : State) : List Span := s.unclean.map (Span.lines s.platform.log2Line)

/-- What memory holds at an address is open: the host's last write there was not made visible, or the engine wrote
there and a dirty line of the host may be written back over it at any time (20_memory.md R78,
70_reset_and_hazards.md R267, log 13). -/
def State.unsettled (s : State) (a : Nat) : Bool :=
  spansHave s.unclean a || (spansHave s.stale a && spansHave s.dirtyLines a)

/-- The byte an engine read sees: memory's, or any value where memory's is open (free value, log 13). `region` tells
operand A's reads from B's. -/
def engineByte (s : State) (region a : Nat) : Byte :=
  if s.unsettled a then Config.anyByte [a, region, s.draws] else memRead s.mem a

/-- The 8-byte word an engine read at an address returns (20_memory.md R62, R68). -/
def engineWord (s : State) (region a : Nat) : F64 := BitVec.ofNat 64 (leBytes (engineByte s region) a 8)

/-- The read phase of one region: n words from address a, ascending, up to the first failing access
(20_memory.md R70, R71). -/
def readWords (s : State) (region : Nat) : Nat → Nat → Except BusStop (List F64)
  | _, 0 => .ok []
  | a, n + 1 =>
    match busAccess s.platform a with
    | some stop => .error stop
    | none =>
      match readWords s region (a + 8) n with
      | .error stop => .error stop
      | .ok ws      => .ok (engineWord s region a :: ws)

/-- The write phase: the words from address a, ascending, up to the first failing access (20_memory.md R71,
R73). It answers the memory left and the access that stopped it, if one did. -/
def writeWords (p : Platform) : Nat → List F64 → Memory → Memory × Option BusStop
  | _, [], m => (m, none)
  | a, w :: ws, m =>
    match busAccess p a with
    | some stop => (m, some stop)
    | none      => writeWords p (a + 8) ws (memWriteBytes m a 8 w.toNat)

end Sys2Proof.Machine
end

