-- ==== Sys2Proof/Machine/Transforms.lean ====
section
/-!
DEFINITION. The radix-2 engine, the Bluestein engine and the dispatcher (spec/40_datapath.md R137,
spec/41_transforms.md R160-R171).
-/

namespace Sys2Proof.Machine

/-! ## The radix-2 engine -/

/-- `BITREV(x)` (40_datapath.md R137). -/
def bitReverse (x : List C64) : List C64 :=
  (List.range x.length).map fun i => x.getD (bitrev x.length.log2 i) zeroC

/-- One butterfly stage of half-length h over `blocks` blocks of 2h elements (41_transforms.md R160): in each
block element j meets element j + h. -/
def stage (t : Site) (s : Direction) (h : Nat) : Nat → List C64 → List C64
  | 0, a => a
  | g + 1, a =>
    let pairs := (((a.take h).zip ((a.drop h).take h)).zipIdx).map fun e =>
      butterfly (e.2 :: g :: t) e.1.1 e.1.2 e.2 (2 * h) s
    pairs.map Prod.fst ++ pairs.map Prod.snd ++ stage t s h g (a.drop (2 * h))

/-- The stages of half-length 2^k, 2^(k+1), …, `b` of them, on a sequence of length n (41_transforms.md R160). -/
def stages (t : Site) (s : Direction) (n : Nat) : Nat → Nat → List C64 → List C64
  | _, 0, a => a
  | k, b + 1, a => stages t s n (k + 1) b (stage (k :: t) s (2 ^ k) (n / 2 ^ (k + 1)) a)

/-- `R2C(x, s)`, the complex radix-2 path (41_transforms.md R160, R161). -/
def r2c (t : Site) (x : List C64) (s : Direction) : List C64 :=
  if x.length ≤ 1 then x else stages t s x.length 0 x.length.log2 (bitReverse x)

/-- The packing of `R2R`: even samples real, odd samples imaginary (41_transforms.md R163). -/
def packReal (x : List F64) : List C64 := pairUp x

/-- The spectrum of a real sequence of length N from the transform Z of its packing (41_transforms.md R163):
X[0] and X[N/2] by REAL2, X[k] and X[N-k] by RREC. -/
def unpackReal (t : Site) (z : List C64) (n : Nat) (s : Direction) : List C64 :=
  let h := n / 2
  let z0 := z.getD 0 zeroC
  let ends := real2 (0 :: t) z0.re z0.im
  let recs := (List.range (h - 1)).map fun i =>
    rrec (i :: 1 :: t) (z.getD (i + 1) zeroC) (z.getD (h - (i + 1)) zeroC) (i + 1) n s
  ends.1 :: recs.map Prod.fst ++ ends.2 :: (recs.map Prod.snd).reverse

/-- `R2R(x, s)`, the real-input radix-2 path (41_transforms.md R163, R164). -/
def r2r (t : Site) (x : List F64) (s : Direction) : List C64 :=
  if x.length ≤ 1 then x.map promote
  else unpackReal (0 :: t) (r2c (1 :: t) (packReal x) s) x.length s

/-! ## The Bluestein engine -/

/-- The chirps c[0], …, c[N-1] (40_datapath.md R134). -/
def chirps (n : Nat) (s : Direction) : List C64 := (List.range n).map fun k => chirp k n s

/-- The kernel bk of length P: conj(c[n]) at n and, for n ≥ 1, at P - n; (+0, +0) between (41_transforms.md
R166). -/
def chirpKernel (c : List C64) (p : Nat) : List C64 :=
  (List.range p).map fun k =>
    if k < c.length then cconj (c.getD k zeroC)
    else if p - k < c.length then cconj (c.getD (p - k) zeroC)
    else zeroC

/-- `BLU(x, s)` (41_transforms.md R166, R167, R168). -/
def bluestein (t : Site) (x : List C64) (s : Direction) : List C64 :=
  let n := x.length
  if n ≤ 1 then x
  else
    let p := nextPow2 (2 * n - 1)
    let c := chirps n s
    let fa := r2c (1 :: t) (padComplex (pmul (0 :: t) x c) p) .forward
    let fb := r2c (2 :: t) (chirpKernel c p) .forward
    let q := r2c (4 :: t) (pmul (3 :: t) fa fb) .inverse
    pmul (5 :: t) c ((q.take n).zipIdx.map fun e => cdivn (e.2 :: 6 :: t) e.1 p)

/-! ## The dispatcher -/

/-- The radix-2 engine serves a sequence of length n (41_transforms.md R170). -/
def usesRadix2 (e : Engine) (n : Nat) : Bool := e == .radix2 || (e == .auto && isPow2 n)

/-- `XFORM(x, F, s, ENG)` (41_transforms.md R169, R170). -/
def xform (t : Site) (x : Operand) (s : Direction) (e : Engine) : List C64 :=
  match x with
  | .real xs    => if usesRadix2 e xs.length then r2r t xs s else bluestein t (xs.map promote) s
  | .complex zs => if usesRadix2 e zs.length then r2c t zs s else bluestein t zs s

/-- The HERM post-processing (41_transforms.md R171). -/
def hermPost (herm : Bool) (y : List C64) : List C64 :=
  if herm then y.map fun z => ⟨z.re, zeroF⟩ else y

end Sys2Proof.Machine
end

