-- ==== Sys2Proof/Machine/Checks.lean ====
section
/-!
DEFINITION. The start checks and their order (spec/60_exceptions.md R232-R240, spec/41_transforms.md R176,
spec/42_convolution.md R204, R206, R207, R209, spec/20_memory.md R65-R67).
-/

namespace Sys2Proof.Machine

/-- A static error: its code and err_addr (60_exceptions.md R231). -/
structure StartError where
  code : ErrCode
  addr : Addr
  deriving DecidableEq, Repr

end Sys2Proof.Machine

namespace Sys2Proof

/-- The ENG field of a command; a convolution has none (30_encoding.md R92). -/
def Instr.engine : Instr → Engine
  | .fft _      => .auto
  | .fftR2 _    => .radix2
  | .fftBl _    => .bluestein
  | .ifft _ _   => .auto
  | .ifftR2 _ _ => .radix2
  | .ifftBl _ _ => .bluestein
  | .conv _ _   => .auto
  | .cconv _ _  => .auto
  | .nconv _ _  => .auto

/-- The command needs LEN_B = LEN_A: OP 0x5 or 0x6 (42_convolution.md R206). -/
def Instr.needsEqualLengths : Instr → Bool
  | .fft _      => false
  | .fftR2 _    => false
  | .fftBl _    => false
  | .ifft _ _   => false
  | .ifftR2 _ _ => false
  | .ifftBl _ _ => false
  | .conv _ _   => false
  | .cconv _ _  => true
  | .nconv _ _  => true

end Sys2Proof

namespace Sys2Proof.Machine

/-- The capacity of one transform of length n (41_transforms.md R176): radix-2 needs n ≤ LMAX, Bluestein
needs its padded length ≤ LMAX when n ≥ 2. -/
def transformFits (lmax : Nat) (e : Engine) (n : Nat) : Bool :=
  if usesRadix2 e n then decide (n ≤ lmax)
  else if 2 ≤ n then decide (nextPow2 (2 * n - 1) ≤ lmax)
  else true

/-- The capacity of a circular or negacyclic convolution (42_convolution.md R207, R209). -/
def circularFits (lmax n : Nat) : Bool :=
  if 2 ≤ n then (if isPow2 n then decide (n ≤ lmax) else decide (nextPow2 (2 * n - 1) ≤ lmax)) else true

/-- The capacity of a linear convolution (42_convolution.md R204). -/
def linearFits (lmax n m : Nat) : Bool :=
  if n = 0 ∨ m = 0 then true else decide (nextPow2 (n + m - 1) ≤ lmax)

/-- `capacity_ok(command, N, M)` (60_exceptions.md R235). -/
def capacityOk (lmax : Nat) (i : Instr) (n m : Nat) : Bool :=
  match i with
  | .fft _      => transformFits lmax .auto n
  | .fftR2 _    => transformFits lmax .radix2 n
  | .fftBl _    => transformFits lmax .bluestein n
  | .ifft _ _   => transformFits lmax .auto n
  | .ifftR2 _ _ => transformFits lmax .radix2 n
  | .ifftBl _ _ => transformFits lmax .bluestein n
  | .conv _ _   => linearFits lmax n m
  | .cconv _ _  => circularFits lmax n
  | .nconv _ _  => circularFits lmax n

/-- A non-empty region's base is not a multiple of 8 (20_memory.md R65, R67; 60_exceptions.md R237). -/
def misaligned (r : Span) : Bool := decide (0 < r.size ∧ r.base % 8 ≠ 0)

/-- A non-empty region passes the top of the address space (20_memory.md R66, R67; 60_exceptions.md R238). -/
def outOfRange (p : Platform) (r : Span) : Bool := decide (0 < r.size ∧ 2 ^ p.paBits < r.base + r.size)

/-- The start checks of 60_exceptions.md R240 after the ILLEGAL_CMD check: the first that fails. Region
bases are 64-bit registers, so err_addr holds them whole. -/
def startCheck (i : Instr) (s : State) : Option StartError :=
  if i.engine = .radix2 ∧ isPow2 s.lenN = false then some ⟨.notPow2, 0⟩
  else if i.needsEqualLengths ∧ s.lenM ≠ s.lenN then some ⟨.lenMismatch, 0⟩
  else if capacityOk s.lmax i s.lenN s.lenM = false then some ⟨.lenRange, 0⟩
  else
    match (regionsOf i s).find? misaligned with
    | some r => some ⟨.align, BitVec.ofNat 64 r.base⟩
    | none =>
      match (regionsOf i s).find? (outOfRange s.platform) with
      | some r => some ⟨.addrRange, BitVec.ofNat 64 r.base⟩
      | none   => none

end Sys2Proof.Machine
end

