-- ==== Sys2Proof/Machine/Convolve.lean ====
section
/-!
DEFINITION. The compute phases of the three convolutions (spec/42_convolution.md R200-R208). Every inner
transform is the dispatcher with AUTO, and HERM is never applied (R200).
-/

namespace Sys2Proof.Machine

/-- Division of each element by a length (40_datapath.md R127). -/
def divAll (t : Site) (x : List C64) (d : Nat) : List C64 := x.zipIdx.map fun e => cdivn (e.2 :: t) e.1 d

/-- The result in the output format: the real parts when both operands are real (42_convolution.md R201). -/
def convResult (a b : Operand) (r : List C64) : Operand :=
  if a.bothReal b then .real (repart r) else .complex r

/-- `CONVOP_lin` (42_convolution.md R202, R203). -/
def convLinear (t : Site) (a b : Operand) : Operand :=
  if a.length = 0 ∨ b.length = 0 then convResult a b []
  else
    let nout := a.length + b.length - 1
    let l := nextPow2 nout
    let fa := xform (0 :: t) (a.pad l) .forward .auto
    let fb := xform (1 :: t) (b.pad l) .forward .auto
    let q := xform (3 :: t) (.complex (pmul (2 :: t) fa fb)) .inverse .auto
    convResult a b (divAll (4 :: t) (q.take nout) l)

/-- `CC(a, FA, b, FB)`, the complex-valued circular convolution (42_convolution.md R205). -/
def circular (t : Site) (a b : Operand) : List C64 :=
  if a.length = 0 then []
  else
    let fa := xform (0 :: t) a .forward .auto
    let fb := xform (1 :: t) b .forward .auto
    let q := xform (3 :: t) (.complex (pmul (2 :: t) fa fb)) .inverse .auto
    divAll (4 :: t) q a.length

/-- `CONVOP_circ` (42_convolution.md R205). -/
def convCircular (t : Site) (a b : Operand) : Operand := convResult a b (circular t a b)

/-- The twists ψ[0], …, ψ[N-1] (42_convolution.md R208). -/
def twists (n : Nat) : List C64 := (List.range n).map fun k => twist k n

/-- `CONVOP_nega` (42_convolution.md R208): twist both operands, convolve circularly, untwist. -/
def convNegacyclic (t : Site) (a b : Operand) : Operand :=
  let psi := twists a.length
  let ta := pmul (0 :: t) a.toComplex psi
  let tb := pmul (1 :: t) b.toComplex psi
  let c := circular (2 :: t) (.complex ta) (.complex tb)
  convResult a b (pmul (3 :: t) c (psi.map cconj))

end Sys2Proof.Machine
end

