-- ==== Sys2Proof/Machine/Run.lean ====
section
/-!
DEFINITION. The common execution of a command (spec/41_transforms.md R172, spec/42_convolution.md R200): the
read phase, the compute phase, the write phase, and the entry to DONE or ERROR.

The engine's accesses of one command are one step of the model: nothing can observe it between its phases
but by a race, whose values are free (20_memory.md R71, R75; 70_reset_and_hazards.md R273; log 2).
-/

namespace Sys2Proof.Machine

/-- The command ends at a failing access: the error entry with BUS_ERROR (60_exceptions.md R239), or no next
state where the access never completes (70_reset_and_hazards.md R274). -/
def stopRun (s : State) (written : Span) : BusStop → Host.Outcome State Fault Refusal
  | .fail a => .next ((s.endRun written).enterError .busError (BitVec.ofNat 64 a))
  | .hang a => .fault (.busHang a)

/-- The words the write phase writes: the result's, or any values once a host write has raced with the
command (20_memory.md R75, log 10). -/
def resultWords (s : State) (r : Operand) : List F64 :=
  if s.raced then r.words.zipIdx.map fun e => Config.anyWord [e.2, s.draws] else r.words

/-- The bytes of region D that a write phase stopped at an access has written: those below it (20_memory.md R73,
60_exceptions.md R239). The bytes from it upward keep their contents, for the host and its caches as well (log 13). -/
def writtenBelow (i : Instr) (s : State) (stop : BusStop) : Span :=
  ⟨(regionD i s).base, stop.addr - (regionD i s).base⟩

/-- The write phase and the command's end (20_memory.md R71, R73; 10_state.md R28, R31). -/
def finishRun (i : Instr) (s : State) (r : Operand) : Host.Outcome State Fault Refusal :=
  match writeWords s.platform (regionD i s).base (resultWords s r) s.mem with
  | (m, none) =>
    .next ((((s.withMem m).endRun (regionD i s)).awaitSight (regionD i s)).enterDone
      (BitVec.ofNat 32 (outLength i s.lenN s.lenM)))
  | (m, some stop) => stopRun (s.withMem m) (writtenBelow i s stop) stop

/-- Running a command whose start checks have passed: all of region A is read, then all of region B, then
the result is computed and region D is written (20_memory.md R71). A region over a device is refused
(20_memory.md R69). -/
def runPhases (i : Instr) (compute : Site → Operand → Operand → Operand) (s : State) :
    Host.Outcome State Fault Refusal :=
  if (regionsOf i s).any fun r => s.platform.device.any fun d => d.overlaps r then .refused .deviceRegion
  else
    match readWords s 0 (regionA i s).base ((regionA i s).size / 8) with
    | .error stop => stopRun s ⟨0, 0⟩ stop
    | .ok wa =>
      match readWords s 1 (regionB i s).base ((regionB i s).size / 8) with
      | .error stop => stopRun s ⟨0, 0⟩ stop
      | .ok wb => finishRun i s (compute [s.draws] (operandOf i.fmtA wa) (operandOf i.fmtB wb))

/-- A command from its registers (60_exceptions.md R240, 41_transforms.md R172, 42_convolution.md R200): the
start checks, the first failure taking its error entry, then the run. In a BUSY state that START reached the
checks hold already, since the registers do not change while BUSY (10_state.md R35; log 5). -/
def runCommand (i : Instr) (compute : Site → Operand → Operand → Operand) (s : State) :
    Host.Outcome State Fault Refusal :=
  match startCheck i s with
  | some e => .next (s.enterError e.code e.addr)
  | none   => runPhases i compute s

end Sys2Proof.Machine
end

