-- ==== Sys2Proof/Machine/Conv.lean ====
section
/-!
DEFINITION. The three convolution commands (spec/42_convolution.md R202, R205, R208): the common execution
R200 with the command's own compute phase.
-/

namespace Sys2Proof.Machine

/-- `CONV <fa>, <fb>` (42_convolution.md R202). -/
def execConv (fa fb : Fmt) (s : State) : Host.Outcome State Fault Refusal :=
  runCommand (.conv fa fb) convLinear s

/-- `CCONV <fa>, <fb>` (42_convolution.md R205). -/
def execCconv (fa fb : Fmt) (s : State) : Host.Outcome State Fault Refusal :=
  runCommand (.cconv fa fb) convCircular s

/-- `NCONV <fa>, <fb>` (42_convolution.md R208). -/
def execNconv (fa fb : Fmt) (s : State) : Host.Outcome State Fault Refusal :=
  runCommand (.nconv fa fb) convNegacyclic s

end Sys2Proof.Machine
end

