-- ==== Sys2Proof/Machine/Fft.lean ====
section
/-!
DEFINITION. The six transform commands (spec/41_transforms.md R173-R175, R177-R179): the common execution
R172 with a direction, an engine and, for an inverse transform, HERM. None divides by N (40_datapath.md R152).
-/

namespace Sys2Proof.Machine

/-- `FFT <fa>` (41_transforms.md R173). -/
def execFft (fa : Fmt) (s : State) : Host.Outcome State Fault Refusal :=
  runCommand (.fft fa) (fun t a _ => .complex (xform t a .forward .auto)) s

/-- `FFT.R2 <fa>` (41_transforms.md R174). -/
def execFftR2 (fa : Fmt) (s : State) : Host.Outcome State Fault Refusal :=
  runCommand (.fftR2 fa) (fun t a _ => .complex (xform t a .forward .radix2)) s

/-- `FFT.BL <fa>` (41_transforms.md R175). -/
def execFftBl (fa : Fmt) (s : State) : Host.Outcome State Fault Refusal :=
  runCommand (.fftBl fa) (fun t a _ => .complex (xform t a .forward .bluestein)) s

/-- `IFFT <fa>[, herm]` (41_transforms.md R177). -/
def execIfft (fa : Fmt) (herm : Bool) (s : State) : Host.Outcome State Fault Refusal :=
  runCommand (.ifft fa herm) (fun t a _ => .complex (hermPost herm (xform t a .inverse .auto))) s

/-- `IFFT.R2 <fa>[, herm]` (41_transforms.md R178). -/
def execIfftR2 (fa : Fmt) (herm : Bool) (s : State) : Host.Outcome State Fault Refusal :=
  runCommand (.ifftR2 fa herm) (fun t a _ => .complex (hermPost herm (xform t a .inverse .radix2))) s

/-- `IFFT.BL <fa>[, herm]` (41_transforms.md R179). -/
def execIfftBl (fa : Fmt) (herm : Bool) (s : State) : Host.Outcome State Fault Refusal :=
  runCommand (.ifftBl fa herm) (fun t a _ => .complex (hermPost herm (xform t a .inverse .bluestein))) s

end Sys2Proof.Machine
end

