-- ==== Sys2Proof/Machine/Dispatch.lean ====
section
/-! DEFINITION. The dispatch of the nine commands to their meanings (spec/30_encoding.md R95). -/

namespace Sys2Proof.Machine

def exec (i : Instr) (s : State) : Host.Outcome State Fault Refusal :=
  match i with
  | .fft fa => Sys2Proof.Machine.execFft fa s
  | .fftR2 fa => Sys2Proof.Machine.execFftR2 fa s
  | .fftBl fa => Sys2Proof.Machine.execFftBl fa s
  | .ifft fa herm => Sys2Proof.Machine.execIfft fa herm s
  | .ifftR2 fa herm => Sys2Proof.Machine.execIfftR2 fa herm s
  | .ifftBl fa herm => Sys2Proof.Machine.execIfftBl fa herm s
  | .conv fa fb => Sys2Proof.Machine.execConv fa fb s
  | .cconv fa fb => Sys2Proof.Machine.execCconv fa fb s
  | .nconv fa fb => Sys2Proof.Machine.execNconv fa fb s

end Sys2Proof.Machine
end

