-- ==== Sys2Proof/Machine/Registers.lean ====
section
/-!
DEFINITION. The register window: reads, writes, START and CLEAR (spec/10_state.md R20-R42, R47;
spec/60_exceptions.md R240, R246).
-/

namespace Sys2Proof.Machine

/-- START (10_state.md R40): from IDLE or DONE the start checks of 60_exceptions.md R240, then BUSY or the
error entry; from BUSY or ERROR ignored. -/
def State.start (s : State) : State :=
  match s.seq with
  | .busy  => s
  | .error => s
  | _ =>
    match decode s.cmd with
    | .error _ => s.enterError .illegalCmd 0
    | .ok i =>
      match startCheck i s with
      | some e => s.enterError e.code e.addr
      | none   => s.enterBusy (s.peersHit i)

/-- CLEAR (10_state.md R41): from DONE or ERROR to IDLE; from IDLE or BUSY no effect. The pending bits stay, ERR_IP
among them (R41, 60_exceptions.md R241), so a failure, CLEAR and a later completion leave both bits set, which R244
does not name among its cases (DEDUCED, log 30). -/
def State.clear (s : State) : State :=
  match s.seq with
  | .done  => s.enterIdle
  | .error => s.enterIdle
  | _      => s

/-- A write to CTRL (10_state.md R24, R42): CLEAR first, then START on the resulting STATE. -/
def State.writeCtrl (s : State) (v : Word) : State :=
  let s1 := if v.getLsbD 1 then s.clear else s
  if v.getLsbD 0 then s1.start else s1

/-- A 32-bit read of the register at an offset (10_state.md R20-R34). Reserved offsets read 0 (R33), and a
read has no side effect (R37). -/
def readReg (s : State) (off : Nat) : Word :=
  match off with
  | 0x000 => 0x444F4747
  | 0x004 => 0x00010000
  | 0x008 => 0#27 ++ BitVec.ofNat 5 s.platform.log2Lmax
  | 0x014 => s.statusWord
  | 0x018 => s.cmd
  | 0x01C => s.lenA
  | 0x020 => s.lenB
  | 0x024 => s.outLen
  | 0x028 => s.srcALo
  | 0x02C => s.srcAHi
  | 0x030 => s.srcBLo
  | 0x034 => s.srcBHi
  | 0x038 => s.dstLo
  | 0x03C => s.dstHi
  | 0x040 => 0#30 ++ s.irqEn
  | 0x044 => 0#30 ++ s.irqStat
  | 0x048 => s.errAddr.extractLsb' 0 32
  | 0x04C => s.errAddr.extractLsb' 32 32
  | _     => 0

/-- A read of the register at an offset shows the host DONE: STATUS with STATE = DONE, or IRQ_STAT with DONE_IP while
DONE_IE is set (70_reset_and_hazards.md R269; log 31). -/
def State.showsDone (s : State) (off : Nat) : Bool :=
  decide (off = 0x014 ∧ s.seq = .done) || (decide (off = 0x044) && s.doneIrq)

/-- A write to one of the registers that hold a command's arguments (10_state.md R26, R27, R29). -/
def writeArg (s : State) (off : Nat) (v : Word) : State :=
  match off with
  | 0x018 => { s with cmd := v }
  | 0x01C => { s with lenA := v }
  | 0x020 => { s with lenB := v }
  | 0x028 => { s with srcALo := v }
  | 0x02C => { s with srcAHi := v }
  | 0x030 => { s with srcBLo := v }
  | 0x034 => { s with srcBHi := v }
  | 0x038 => { s with dstLo := v }
  | 0x03C => { s with dstHi := v }
  | _     => s

/-- A 32-bit write of the register at an offset (10_state.md R24, R30, R31, R33-R36): argument registers keep
their value while BUSY, read-only and reserved offsets ignore the write. -/
def writeReg (s : State) (off : Nat) (v : Word) : State :=
  match off with
  | 0x010 => s.writeCtrl v
  | 0x040 => { s with irqEn := v.extractLsb' 0 2 }
  | 0x044 => { s with irqStat := clearPending s.irqStat v }
  | _     => if s.seq = .busy then s else writeArg s off v

end Sys2Proof.Machine
end

