-- ==== Sys2Proof/Machine/HostPort.lean ====
section
/-!
DEFINITION. What a host access and the reset input do (spec/10_state.md R38, spec/20_memory.md R60, R62, R74,
R75, R78, spec/70_reset_and_hazards.md R260-R262, R265-R269, spec/30_encoding.md R102).
-/

namespace Sys2Proof.Machine

/-- The bytes of a host access. -/
def Width.bytes : Width → Nat
  | .w1 => 1
  | .w2 => 2
  | .w4 => 4
  | .w8 => 8

/-- Where a host access of n bytes at a bus address goes. -/
inductive Target where
  | register (off : Nat)   -- a defined access of the register window
  | badRegister            -- touches the window, and is not 32 bits at a multiple of 4 (10_state.md R38)
  | absent                 -- outside system memory (20_memory.md R60)
  | device                 -- a device of the platform, no part of this block
  | memory                 -- system memory
  deriving DecidableEq, Repr

/-- Where a host access goes (20_memory.md R60, 10_state.md R38). -/
def targetOf (p : Platform) (a n : Nat) : Target :=
  if (⟨p.mmioBase, 256⟩ : Span).overlaps ⟨a, n⟩ then
    (if n = 4 ∧ p.mmioBase ≤ a ∧ (a - p.mmioBase) % 4 = 0 then .register (a - p.mmioBase) else .badRegister)
  else if 2 ^ p.paBits < a + n then .absent
  else if p.device.any fun d => d.overlaps ⟨a, n⟩ then .device
  else .memory

/-- The byte a host read of memory sees: any value in regions A, B and D while BUSY (70_reset_and_hazards.md R265,
20_memory.md R75, log 11), in bytes an engine wrote that the host has not invalidated (R269), in region D of a command
whose DONE it has not observed (R265, R269, log 31), and in what another instance hides (log 32), else memory's. -/
def hostByte (s : State) (a : Nat) : Byte :=
  if s.hitsRunning ⟨a, 1⟩ || spansHave s.stale a || spansHave s.unseen a || peersHide s.peers a then
    Config.anyByte [a, 2, s.draws]
  else memRead s.mem a

/-- A host read (30_encoding.md R102): the value goes to `hostData`, a register read may show the host DONE
(70_reset_and_hazards.md R269), and nothing of the engine changes (10_state.md R37). -/
def hostRead (s : State) (a : Nat) (w : Width) : Host.Outcome State Fault Refusal :=
  match targetOf s.platform a w.bytes with
  | .register off => .next { s.observe (s.showsDone off) with hostData := (readReg s off).setWidth 64 }
  | .badRegister  => .refused (.registerAccess a)
  | .absent       => .fault (.noSuchAddress a)
  | .device       => .refused (.hostDevice a)
  | .memory       =>
    .next { s with hostData := BitVec.ofNat 64 (leBytes (hostByte s) a w.bytes), draws := s.draws + 1 }

/-- A host write of memory: the bytes land; a byte of a running command's region makes it a race
(20_memory.md R75); with IO_COHERENT false the bytes are not visible to the engine until cleaned (R78). -/
def hostStore (s : State) (a : Nat) (w : Width) (v : BitVec 64) : State :=
  State.rewritten
    { s with
        mem     := memWriteBytes s.mem a w.bytes v.toNat
        raced   := s.raced || s.hitsRunning ⟨a, w.bytes⟩
        unclean := if s.platform.ioCoherent then s.unclean else ⟨a, w.bytes⟩ :: s.unclean
        stale   := spansDrop s.stale ⟨a, w.bytes⟩ }
    ⟨a, w.bytes⟩

/-- A host write (30_encoding.md R102). -/
def hostWrite (s : State) (a : Nat) (w : Width) (v : BitVec 64) : Host.Outcome State Fault Refusal :=
  match targetOf s.platform a w.bytes with
  | .register off => .next (writeReg s off (v.extractLsb' 0 32))
  | .badRegister  => .refused (.registerAccess a)
  | .absent       => .fault (.noSuchAddress a)
  | .device       => .refused (.hostDevice a)
  | .memory       => .next (hostStore s a w v)

/-- The dirty lines of the host's caches that an operation on a span acts on: those that hold bytes the host wrote
and has not cleaned, within the lines covering the span (20_memory.md R78). -/
def State.dirtyIn (s : State) (x : Span) : List Span :=
  (spansInter s.unclean (x.lines s.platform.log2Line)).map (Span.lines s.platform.log2Line)

/-- The host cleans the lines covering a span (20_memory.md R78, 70_reset_and_hazards.md R267): its dirty lines are
written back, and the bytes it wrote become visible. A byte of such a line that the engine wrote since holds any value
afterwards: the line's older byte, or the engine's where the cache had written the line back before (free value, log
13). Bytes of a running command's regions that are written back only now were not visible at its START, so its values
are free. -/
def hostClean (s : State) (x : Span) : State :=
  { s with
      mem     := memFillSpans [4, s.draws] ((s.dirtyIn x).flatMap (spansInter s.stale)) s.mem
      raced   := s.raced || (s.dirtyIn x).any s.hitsRunning
      unclean := spansDrop s.unclean (x.lines s.platform.log2Line)
      draws   := s.draws + 1 }

/-- The host invalidates the lines covering a span (70_reset_and_hazards.md R269): the bytes the engine wrote become
readable. A byte the host wrote and has not cleaned is dropped from the cache, and holds any value afterwards, unless
the engine wrote it since, whose byte then stands (free value, log 29: 20_memory.md R78 and R269 do not say whether
memory has the host's byte by then). The bytes of region D from the failing address of a BUS_ERROR upward are not
written by the engine, so those of them that the host wrote and has not cleaned are dropped too (R273, log 29). -/
def hostInvalidate (s : State) (x : Span) : State :=
  { s with
      mem     := memFillSpans [5, s.draws]
                   (spansDropAll (spansInter s.unclean (x.lines s.platform.log2Line)) s.stale) s.mem
      raced   := s.raced || (s.dirtyIn x).any s.hitsRunning
      unclean := spansDrop s.unclean (x.lines s.platform.log2Line)
      stale   := spansDrop s.stale (x.lines s.platform.log2Line)
      draws   := s.draws + 1 }

/-- The reset input (70_reset_and_hazards.md R260-R262): a running command is abandoned and its region D
holds any value; every register takes its reset value; the rest of memory stays. -/
def State.hwReset (s : State) : State :=
  match s.running with
  | some i =>
    ((s.withMem (memFillAny [3, s.draws] s.mem (regionD i s).base (regionD i s).size)).endRun
      (regionD i s)).resetRegisters
  | none => s.resetRegisters

end Sys2Proof.Machine
end

