-- ==== Sys2Proof/Machine/Peers.lean ====
section
/-!
DEFINITION. What the other engine instances do, as far as this one and its host can see it: their runs, their writes to
system memory, their ends (spec/20_memory.md R81, spec/60_exceptions.md R250, spec/70_reset_and_hazards.md R268; log 32).
-/

namespace Sys2Proof.Machine

/-- A region that a command's accesses may have: whole 8-byte words, at a multiple of 8, in range (20_memory.md R63, R65,
R66). -/
def isRegion (p : Platform) (r : Span) : Bool := decide (r.size % 8 = 0) && !misaligned r && !outOfRange p r

/-- A START takes instance n to BUSY: the platform has it beside this engine, which is instance 0 (60_exceptions.md R250;
the numbers are a DESIGN CHOICE, log 32), it is not BUSY yet (10_state.md R40), and its regions pass the checks of
60_exceptions.md R237 and R238. -/
def State.peerMayStart (s : State) (n : Nat) (inputs : List Span) (d : Span) : Bool :=
  decide (0 < n ∧ n < s.platform.numInstances) && !(s.peers.any fun p => p.busy && p.inst = n)
    && (d :: inputs).all (isRegion s.platform)

/-- Another instance is started. With a region D that shares a byte with a region of this engine's running command, the
two race (20_memory.md R81). A start that leaves it out of BUSY changes nothing here (R250; log 32). -/
def peerStart (s : State) (n : Nat) (inputs : List Span) (d : Span) : State :=
  if s.peerMayStart n inputs d then
    { s with
        peers := ⟨n, inputs, d, true⟩ :: s.peers
        raced := s.raced || s.hitsRunning d }
  else s

/-- A write of another instance completes at this address: it is a multiple of 8 (20_memory.md R65, R68), in range (R66),
the bus completes it (R70, 70_reset_and_hazards.md R274), and its 8 bytes lie in region D of an instance that is BUSY
(R68). -/
def State.peerMayWrite (s : State) (a : Nat) : Bool :=
  decide (a % 8 = 0 ∧ a + 8 ≤ 2 ^ s.platform.paBits ∧ busAccess s.platform a = none) &&
    s.peers.any fun p => p.busy && decide (p.result.base ≤ a ∧ a + 8 ≤ p.result.base + p.result.size)

/-- Another instance's write lands in memory at once: it goes through no cache (20_memory.md R78, R81). A byte of this
engine's running command makes it a race (R75), and with IO_COHERENT false the host's cache lines over the bytes are
stale, as over this engine's own (70_reset_and_hazards.md R269). -/
def peerStore (s : State) (a : Nat) (v : BitVec 64) : State :=
  State.rewritten
    { s with
        mem   := memWriteBytes s.mem a 8 v.toNat
        raced := s.raced || s.hitsRunning ⟨a, 8⟩
        stale := if s.platform.ioCoherent then s.stale else ⟨a, 8⟩ :: s.stale }
    ⟨a, 8⟩

/-- Another instance's 8-byte write (20_memory.md R68, R69). DESIGN CHOICE (log 32): the script may name any address,
and one where no write of an instance completes changes nothing: BUS_OK is false or the bus never answers (the access
fails or hangs in that instance, R70, 70_reset_and_hazards.md R274), or it is no multiple of 8, out of range, or in no
region D of a BUSY instance (R65, R66, R68: no instance makes such an access). -/
def peerWrite (s : State) (a : Nat) (v : BitVec 64) : Host.Outcome State Fault Refusal :=
  if s.peerMayWrite a then
    if s.platform.device.any fun d => d.overlaps ⟨a, 8⟩ then .refused .deviceRegion
    else .next (peerStore s a v)
  else .next s

/-- Another instance goes to DONE or ERROR: its run ends. -/
def peerEnd (s : State) (n : Nat) : State :=
  { s with peers := s.peers.map fun p => if p.inst = n then { p with busy := false } else p }

/-- The host observes the end of another instance, which it cannot while that instance is BUSY; the instance then hides
nothing any more (20_memory.md R74, 70_reset_and_hazards.md R269). -/
def peerSeen (s : State) (n : Nat) : State :=
  { s with peers := if s.peers.any fun p => p.busy && p.inst = n then s.peers else s.peers.filter fun p => p.inst ≠ n }

end Sys2Proof.Machine
end

