-- ==== Sys2Proof/Machine/Sequencer.lean ====
section
/-!
DEFINITION. The interleaving of the agents: the engine's turn, the events of the host and of other instances, and
the step that chooses between them by the head of the script (spec/00_scope.md R6, spec/10_state.md R39,
spec/20_memory.md R81, spec/70_reset_and_hazards.md R265, R271, R274; logs 3, 32).
-/

namespace Sys2Proof.Machine

/-- The engine's turn: in BUSY it executes the command in CMD (10_state.md R40, 30_encoding.md R99); in
every other STATE nothing happens (60_exceptions.md R252). A BUSY state with an illegal CMD, which START
never leaves, takes START's error entry. -/
def engineTurn (s : State) : Host.Outcome State Fault Refusal :=
  match s.seq with
  | .busy =>
    match decode s.cmd with
    | .ok i    => exec i s
    | .error _ => .next (s.enterError .illegalCmd 0)
  | _ => .next s

/-- POLL (30_encoding.md R102): one register read; satisfied, it leaves the script, else it stays at the head
and the engine takes its turn. -/
def pollTurn (s : State) (a : Nat) (mask value : Word) (rest : List HostEvent) :
    Host.Outcome State Fault Refusal :=
  match targetOf s.platform a 4 with
  | .register off =>
    if readReg s off &&& mask = value then
      .next { s.observe (s.showsDone off) with hostData := (readReg s off).setWidth 64, script := rest }
    else engineTurn { s.observe (s.showsDone off) with hostData := (readReg s off).setWidth 64 }
  | _ => .refused (.registerAccess a)

/-- The host waits for irq, a level (10_state.md R45): while it is low the engine takes its turn; once it is high the
host takes the interrupt, and one with DONE_IP and DONE_IE shows it DONE (20_memory.md R74,
70_reset_and_hazards.md R269; log 31). -/
def irqTurn (s : State) (rest : List HostEvent) : Host.Outcome State Fault Refusal :=
  if s.irq = true then .next { s.observe s.doneIrq with script := rest }
  else engineTurn s

/-- One step of the whole machine: the first event of the script, or the engine's turn when the script is
empty. -/
def machineStep (s : State) : Host.Outcome State Fault Refusal :=
  match s.script with
  | [] => engineTurn s
  | .wait :: rest => engineTurn { s with script := rest }
  | .poll a mask value :: rest => pollTurn s a mask value rest
  | .read a w :: rest => hostRead { s with script := rest } a w
  | .write a w v :: rest => hostWrite { s with script := rest } a w v
  | .clean x :: rest => .next (hostClean { s with script := rest } x)
  | .takeIrq :: rest => irqTurn s rest
  | .invalidate x :: rest => .next (hostInvalidate { s with script := rest } x)
  | .peerStart n inputs d :: rest => .next (peerStart { s with script := rest } n inputs d)
  | .peerWrite a v :: rest => peerWrite { s with script := rest } a v
  | .peerEnd n :: rest => .next (peerEnd { s with script := rest } n)
  | .peerSeen n :: rest => .next (peerSeen { s with script := rest } n)
  | .reset :: rest => .next (State.hwReset { s with script := rest })

end Sys2Proof.Machine
end

