-- ==== Sys2Proof/Machine/Step.lean ====
section
/-!
DEFINITION. The step of the machine, and the placing of a command where the next step runs it
(spec/30_encoding.md R90, R99; spec/10_state.md R40; log 4).
-/

namespace Sys2Proof.Machine

/-- One step of the machine. -/
def step (s : State) : Host.Outcome State Fault Refusal := machineStep s

/-- The state in which START has accepted the command word w: the word is in CMD, STATE is BUSY with no race,
ERRCODE and err_addr are 0, and no host access comes first, so that the next step runs the command (log 4). -/
def State.withFetchWord (s : State) (nbits w : Nat) : State :=
  { s with cmd := BitVec.ofNat 32 (w % 2 ^ nbits), seq := .busy, err := .none, errAddr := 0,
           raced := false, script := [] }

end Sys2Proof.Machine
end

