-- ==== Sys2Proof/Safety.lean ====
section
/-!
DEFINITION. The terms claims are stated in: what a command computes and where it runs, the invariant of the
machine, a safe step, and the real-number meaning of binary64 values, of correct rounding and of the reference
DFT (spec/40_datapath.md R120, R130, R150, R151).
-/

namespace Sys2Proof.Machine

/-! ## What a command computes, and where it completes -/

/-- The engine access at each 8-byte word of a region completes without a bus error (20_memory.md R70). -/
def RegionOk (p : Platform) (r : Span) : Prop := ∀ k < r.size / 8, busAccess p (r.base + 8 * k) = none

/-- The region lies over no device (20_memory.md R69). -/
def NoDevice (p : Platform) (r : Span) : Prop := ∀ d ∈ p.device, d.overlaps r = false

/-- A command passes its start checks and every access it makes completes: it runs to DONE (10_state.md R39). -/
structure Runnable (i : Instr) (s : State) : Prop where
  checks   : startCheck i s = none
  noDevice : ∀ r ∈ regionsOf i s, NoDevice s.platform r
  okA      : RegionOk s.platform (regionA i s)
  okB      : RegionOk s.platform (regionB i s)
  okD      : RegionOk s.platform (regionD i s)

/-- The words an engine reads of a region (20_memory.md R71). -/
def regionWords (s : State) (region : Nat) (r : Span) : List F64 :=
  (List.range (r.size / 8)).map fun k => engineWord s region (r.base + 8 * k)

/-- Operand A and operand B as the read phase gives them (41_transforms.md R172, 42_convolution.md R200). -/
def operandA (i : Instr) (s : State) : Operand := operandOf i.fmtA (regionWords s 0 (regionA i s))
def operandB (i : Instr) (s : State) : Operand := operandOf i.fmtB (regionWords s 1 (regionB i s))

/-- The compute phase of each command, from its rule (41_transforms.md R173-R175, R177-R179, 42_convolution.md
R202, R205, R208). -/
def commandResult (i : Instr) (t : Site) (a b : Operand) : Operand :=
  match i with
  | .fft _         => .complex (xform t a .forward .auto)
  | .fftR2 _       => .complex (xform t a .forward .radix2)
  | .fftBl _       => .complex (xform t a .forward .bluestein)
  | .ifft _ herm   => .complex (hermPost herm (xform t a .inverse .auto))
  | .ifftR2 _ herm => .complex (hermPost herm (xform t a .inverse .radix2))
  | .ifftBl _ herm => .complex (hermPost herm (xform t a .inverse .bluestein))
  | .conv _ _      => convLinear t a b
  | .cconv _ _     => convCircular t a b
  | .nconv _ _     => convNegacyclic t a b

/-- The result of a command from a state. -/
def resultOf (i : Instr) (s : State) : Operand := commandResult i [s.draws] (operandA i s) (operandB i s)

/-- Memory with the words stored from an address up, eight bytes each, little-endian (20_memory.md R62, R63). -/
def storeWords : Nat → List F64 → Memory → Memory
  | _, [], m => m
  | a, w :: ws, m => storeWords (a + 8) ws (memWriteBytes m a 8 w.toNat)

/-- The state a completed run that stored `r` leaves: region D, OUT_LEN, DONE, DONE_IP, the free values spent, the
result not yet seen by the host (41_transforms.md R172, 42_convolution.md R200). -/
def doneWith (i : Instr) (s : State) (r : Operand) : State :=
  (((s.withMem (storeWords (regionD i s).base (resultWords s r) s.mem)).endRun (regionD i s)).awaitSight
    (regionD i s)).enterDone (BitVec.ofNat 32 (outLength i s.lenN s.lenM))

/-- The command completes with OUT_LEN = n, as the host reads it at 0x024, and result `r`: it goes to DONE with DONE_IP
set, the result fills region D, and every 8-byte word of region D reads as the result's (41_transforms.md R172, 42_convolution.md R200). -/
def CompletesWith (i : Instr) (s : State) (n : Word) (r : Operand) : Prop :=
  ∃ t, exec i s = .next t ∧ t.seq = .done ∧ t.irqStat = s.irqStat ||| 1 ∧ t.outLen = n ∧ readReg t 0x024 = n ∧
    8 * r.words.length = (regionD i s).size ∧
    ∀ k (h : k < r.words.length), memReadBytes t.mem ((regionD i s).base + 8 * k) 8 = (r.words[k]).toNat

/-! ## The sequence operations of the compute phases, as relations

They leave the sites open, which only the bits of NaN results depend on (40_datapath.md R121). -/

/-- Q is the elementwise product of A and B, CMUL(A[k], B[k]) at k (40_datapath.md R125, R141). -/
def IsProduct (A B Q : List C64) : Prop :=
  Q.length = A.length ∧ ∀ k < A.length, ∃ u, Q.getD k zeroC = cmul u (A.getD k zeroC) (B.getD k zeroC)

/-- r is the first n elements of q, each divided by d (40_datapath.md R127, R142). -/
def IsQuotient (q r : List C64) (n d : Nat) : Prop :=
  r.length = n ∧ ∀ k < n, ∃ u, r.getD k zeroC = cdivn u (q.getD k zeroC) d

/-- r is CC(a, b): both operands transformed forward in their own formats, multiplied, transformed back as a complex
sequence, and divided by the length (42_convolution.md R205). -/
def IsCircular (a b : Operand) (r : List C64) : Prop :=
  ∃ u v w Q, IsProduct (xform u a .forward .auto) (xform v b .forward .auto) Q ∧
    IsQuotient (xform w (.complex Q) .inverse .auto) r a.length a.length

/-! ## The transitions of the sequencer -/

/-- The word the next host access writes to CTRL, if it does (10_state.md R24). -/
def ctrlWrite (s : State) : Option Word :=
  match s.script with
  | .write a w v :: _ =>
    if targetOf s.platform a w.bytes = .register 0x010 then some (v.extractLsb' 0 32) else none
  | _ => none

/-! ## The invariant -/

/-- ERRCODE is 0x00 exactly when STATE is not ERROR (10_state.md R25). -/
def ErrCodeAgrees (s : State) : Prop := s.err = .none ↔ s.seq ≠ .error

/-- err_addr is 0 outside ERROR (10_state.md R32, R41). -/
def ErrAddrAgrees (s : State) : Prop := s.seq ≠ .error → s.errAddr = 0

/-- OUT_LEN is 0 in ERROR (10_state.md R28). -/
def OutLenAgrees (s : State) : Prop := s.seq = .error → s.outLen = 0

/-- In BUSY, CMD is legal and the start checks hold: they held at START, and no register they read changes
while BUSY (10_state.md R35, R40; 30_encoding.md R99). -/
def BusyArmed (s : State) : Prop := s.seq = .busy → ∃ i, decode s.cmd = .ok i ∧ startCheck i s = none

/-- Only a running command can have been raced (20_memory.md R75). -/
def RaceOnlyBusy (s : State) : Prop := s.raced = true → s.seq = .busy

/-- Memory lists no address outside 0 .. 2^PA_BITS - 1 (20_memory.md R60). -/
def MemInRange (s : State) : Prop := ∀ e ∈ s.mem, e.1 < 2 ^ s.platform.paBits

/-- With IO_COHERENT true no byte waits for a clean or an invalidate (20_memory.md R78). -/
def CoherentCaches (s : State) : Prop := s.platform.ioCoherent = true → s.unclean = [] ∧ s.stale = []

/-- The bytes that wait for a clean or an invalidate, or for the host to observe DONE, lie in system memory
(20_memory.md R60). -/
def CachesInRange (s : State) : Prop :=
  ∀ a, spansHave s.unclean a = true ∨ spansHave s.stale a = true ∨ spansHave s.unseen a = true → a < 2 ^ s.platform.paBits

/-- The other instances are among the platform's n, of which this engine is number 0, and each is BUSY at most once
(60_exceptions.md R250, log 32). -/
def PeersFit (n : Nat) (ps : List Peer) : Prop :=
  (∀ p ∈ ps, 0 < p.inst ∧ p.inst < n) ∧ ((ps.filter (·.busy)).map (·.inst)).Nodup

/-- The invariant of the machine. -/
structure State.Inv (s : State) : Prop where
  platform : s.platform.wf = true
  memory   : s.mem.wf = true
  inRange  : MemInRange s
  errCode  : ErrCodeAgrees s
  errAddr  : ErrAddrAgrees s
  outLen   : OutLenAgrees s
  armed    : BusyArmed s
  race     : RaceOnlyBusy s
  caches   : CoherentCaches s
  waiting  : CachesInRange s
  peers    : PeersFit s.platform.numInstances s.peers

/-- A step is safe when it has a next state: it neither faults nor is refused. -/
def SafeStep (s : State) : Prop := ∃ t, step s = .next t

/-! ## Real-number meaning -/

/-- Equal bit for bit, except for NaN bits (40_datapath.md R121, R123, R125). -/
def SameButNaN (x y : F64) : Prop := x = y ∨ (isNaN x = true ∧ isNaN y = true)

/-- -0 (00_scope.md R10). -/
def negZeroF : F64 := 0x8000000000000000

/-- The real value of a finite binary64 value. -/
noncomputable def realOf (x : F64) : ℝ := (intUnits x : ℝ) / 2 ^ 1074

/-- The fraction's last bit is 0: the even one of two neighbours (00_scope.md R10). -/
def evenF (x : F64) : Prop := x.toNat % 2 = 0

/-- v is RNE(r): a nearest finite binary64 value to the real number r, and at a tie the even one (00_scope.md
R10). The sign of a zero is not part of it. -/
structure IsRNE (r : ℝ) (v : F64) : Prop where
  finite  : isFinite v = true
  nearest : ∀ w, isFinite w = true → |realOf v - r| ≤ |realOf w - r|
  tieEven : ∀ w, isFinite w = true → realOf w ≠ realOf v → |realOf w - r| = |realOf v - r| → evenF v

/-- The real numbers whose RNE is finite: below 2^1024 - 2^970 in magnitude, half a unit in the last place
above the largest finite value. -/
def InRange (r : ℝ) : Prop := |r| < 2 ^ 1024 - 2 ^ 970

/-- The complex value of a pair of finite binary64 values. -/
noncomputable def complexOf (z : C64) : ℂ := ⟨realOf z.re, realOf z.im⟩

/-- The exponent sign s of a direction as a real number (00_scope.md R13). -/
noncomputable def Direction.sign : Direction → ℝ
  | .forward => -1
  | .inverse => 1

/-- The reference DFT of a sequence of finite complex values (40_datapath.md R150). -/
noncomputable def refDft (s : Direction) (x : List C64) (k : ℕ) : ℂ :=
  ∑ n ∈ Finset.range x.length,
    complexOf (x.getD n zeroC) *
      Complex.exp ((Direction.sign s * (2 * Real.pi * (k * n) / x.length) : ℝ) * Complex.I)

/-- The accuracy contract at one input (40_datapath.md R151): every part of the result lies within 1e-8 of the
reference DFT. It is a property claims may state of chosen inputs, not a rule the model computes. -/
def MeetsContract (s : Direction) (x y : List C64) : Prop :=
  ∀ k < x.length, |(complexOf (y.getD k zeroC)).re - (refDft s x k).re| ≤ 1 / 10 ^ 8 ∧
    |(complexOf (y.getD k zeroC)).im - (refDft s x k).im| ≤ 1 / 10 ^ 8

end Sys2Proof.Machine
end

