-- ==== Sys2Proof/Certificates/Slice0/Obligations.lean ====
section
/-!
DEFINITION. The statements for the provers, from the numbered rules of spec/, file by file.
-/

section Statements

open Sys2Proof Sys2Proof.Machine

/-! ## 00_scope.md: integer notation -/

/-- R12. is_pow2 holds of 0 and of the powers of two; nextpow2(n) is the least power of two that is at least n;
log2 of 2^k is k. -/
def Obligations.PowersOfTwo : Prop :=
  (∀ n, isPow2 n = true ↔ n = 0 ∨ ∃ k, n = 2 ^ k) ∧
  (∀ n, 1 ≤ n → (∃ k, nextPow2 n = 2 ^ k) ∧ n ≤ nextPow2 n ∧ ∀ k, n ≤ 2 ^ k → nextPow2 n ≤ 2 ^ k) ∧
  (∀ k, (2 ^ k).log2 = k)

/-! ## 30_encoding.md: the command word -/

/-- R90, R95, R100. A word decodes to a command exactly when it is the command's encoding: no bit of the word is
dropped and every command has one word. -/
def Obligations.DecodeInvertsEncode : Prop :=
  ∀ (w : Word) (i : Instr), decode w = .ok i ↔ encode i = w

/-- R100. The word of every line of the syntax table, for every operand format and herm; a few words written out bit
by bit from the field table, the rule's five examples among them, and what they decode to. -/
def Obligations.WordsOfTheSyntaxTable : Prop :=
  (∀ fa : Fmt, let f : Word := if fa = .complex then 1 <<< 6 else 0
    encode (.fft fa) = 0x00000001 ||| f ∧ encode (.fftR2 fa) = 0x00000011 ||| f ∧
    encode (.fftBl fa) = 0x00000021 ||| f ∧
    ∀ herm : Bool, let h : Word := if herm then 1 <<< 8 else 0
      encode (.ifft fa herm) = 0x00000002 ||| f ||| h ∧ encode (.ifftR2 fa herm) = 0x00000012 ||| f ||| h ∧
      encode (.ifftBl fa herm) = 0x00000022 ||| f ||| h) ∧
  (∀ fa fb : Fmt, let f : Word := if fa = .complex then 1 <<< 6 else 0
    let g : Word := if fb = .complex then 1 <<< 7 else 0
    encode (.conv fa fb) = 0x00000004 ||| f ||| g ∧ encode (.cconv fa fb) = 0x00000005 ||| f ||| g ∧
    encode (.nconv fa fb) = 0x00000006 ||| f ||| g) ∧
  decode 0x00000001 = .ok (.fft .real) ∧ decode 0x00000041 = .ok (.fft .complex) ∧
  decode 0x00000011 = .ok (.fftR2 .real) ∧ decode 0x00000061 = .ok (.fftBl .complex) ∧
  decode 0x00000142 = .ok (.ifft .complex true) ∧ decode 0x00000112 = .ok (.ifftR2 .real true) ∧
  decode 0x00000062 = .ok (.ifftBl .complex false) ∧ decode 0x00000084 = .ok (.conv .real .complex) ∧
  decode 0x00000045 = .ok (.cconv .complex .real) ∧ decode 0x000000C6 = .ok (.nconv .complex .complex)

/-- R95. The rows of the opcode map; no word selects two of them; a word that selects a row decodes to that row's
command, with the free fields FA, FB and HERM read from bits 6, 7 and 8. -/
def Obligations.OpcodeMap : Prop :=
  opcodeRows.map (fun r => (r.mnemonic, r.value, r.mask)) =
    [("FFT", 0x00000001, 0xFFFFFFBF), ("FFT.R2", 0x00000011, 0xFFFFFFBF), ("FFT.BL", 0x00000021, 0xFFFFFFBF),
     ("IFFT", 0x00000002, 0xFFFFFEBF), ("IFFT.R2", 0x00000012, 0xFFFFFEBF), ("IFFT.BL", 0x00000022, 0xFFFFFEBF),
     ("CONV", 0x00000004, 0xFFFFFF3F), ("CCONV", 0x00000005, 0xFFFFFF3F), ("NCONV", 0x00000006, 0xFFFFFF3F)] ∧
  (∀ w : Word, ∀ r ∈ opcodeRows, ∀ r' ∈ opcodeRows, w &&& r.mask = r.value → w &&& r'.mask = r'.value →
    r.mnemonic = r'.mnemonic) ∧
  (∀ w : Word, ∀ r ∈ opcodeRows, w &&& r.mask = r.value →
    ∃ i, decode w = .ok i ∧ i.mnemonic = r.mnemonic ∧
      i = r.make (if w.getLsbD 6 then .complex else .real) (if w.getLsbD 7 then .complex else .real) (w.getLsbD 8))

/-- R96, R232. The illegal words, and what START does with one in CMD; the reset value 0 is one. -/
def Obligations.IllegalWords : Prop :=
  (∀ w : Word, (∃ e, decode w = .error e) ↔
    (w.extractLsb' 0 4 ≠ 1 ∧ w.extractLsb' 0 4 ≠ 2 ∧ w.extractLsb' 0 4 ≠ 4 ∧ w.extractLsb' 0 4 ≠ 5 ∧
      w.extractLsb' 0 4 ≠ 6) ∨
    w.extractLsb' 4 2 = 3 ∨
    (w.extractLsb' 4 2 ≠ 0 ∧ (w.extractLsb' 0 4 = 4 ∨ w.extractLsb' 0 4 = 5 ∨ w.extractLsb' 0 4 = 6)) ∨
    (w.getLsbD 7 = true ∧ (w.extractLsb' 0 4 = 1 ∨ w.extractLsb' 0 4 = 2)) ∨
    (w.getLsbD 8 = true ∧ w.extractLsb' 0 4 ≠ 2) ∨
    w.extractLsb' 9 23 ≠ 0) ∧
  (∀ s : State, (s.seq = .idle ∨ s.seq = .done) → (∃ e, decode s.cmd = .error e) →
    writeReg s 0x010 1 = s.enterError .illegalCmd 0) ∧
  (∃ e, decode 0x00000000 = .error e)

/-! ## 10_state.md: the registers -/

/-- R47, R260. At the machine's reset state, and after the reset input in any state, every register reads its
reset column, the interrupt output is low and the engine is IDLE. -/
def Obligations.ResetColumn : Prop :=
  ∀ t : State, (t = State.reset ∨ ∃ s : State, t = s.hwReset) →
    readReg t 0x000 = 0x444F4747 ∧ readReg t 0x004 = 0x00010000 ∧
    readReg t 0x008 = BitVec.setWidth 32 (BitVec.ofNat 5 t.platform.log2Lmax) ∧
    (∀ off, off ≠ 0x000 → off ≠ 0x004 → off ≠ 0x008 → readReg t off = 0) ∧
    t.irq = false ∧ t.seq = .idle ∧ t.err = .none

/-- R261, R262. The reset input leaves every byte of memory alone but region D of a running command, whose bytes
become free values; no pending bit is set and neither DONE nor ERROR is entered. A step with the reset input next is
that reset. -/
def Obligations.ResetAndMemory : Prop :=
  (∀ (s : State) (rest : List HostEvent),
    step { s with script := .reset :: rest } = .next (State.hwReset { s with script := rest })) ∧
  ∀ s : State, s.mem.wf = true →
    s.hwReset.irqStat = 0 ∧ s.hwReset.seq = .idle ∧
    (s.running = none → s.hwReset.mem = s.mem) ∧
    (∀ i, s.running = some i → ∀ a,
      ((regionD i s).has a = false → memRead s.hwReset.mem a = memRead s.mem a) ∧
      ((regionD i s).has a = true → memRead s.hwReset.mem a = Config.anyByte [a, 3, s.draws]))

/-- R25, with R231's codes. The fields of STATUS, the value of each error code; in a state of the invariant ERRCODE is
0 exactly outside ERROR; writes are ignored and a read returns the value and changes nothing of the machine, though the
host may have seen DONE by it (R269). -/
def Obligations.StatusFields : Prop :=
  ∀ s : State,
    ((readReg s 0x014).extractLsb' 0 2 =
      match s.seq with | .idle => 0 | .busy => 1 | .done => 2 | .error => 3) ∧
    (readReg s 0x014).extractLsb' 2 6 = 0 ∧
    ((readReg s 0x014).extractLsb' 8 8 =
      match s.err with
      | .none => 0x00 | .illegalCmd => 0x01 | .notPow2 => 0x02 | .lenMismatch => 0x03
      | .lenRange => 0x04 | .align => 0x05 | .addrRange => 0x06 | .busError => 0x07) ∧
    (readReg s 0x014).extractLsb' 16 16 = 0 ∧
    (s.Inv → ((readReg s 0x014).extractLsb' 8 8 = 0 ↔ s.seq ≠ .error)) ∧
    (∀ v, writeReg s 0x014 v = s) ∧
    (∀ a w rest, targetOf s.platform a w.bytes = .register 0x014 →
      ∃ unseen, step { s with script := .read a w :: rest } =
        .next { s with script := rest, hostData := (readReg s 0x014).setWidth 64, unseen := unseen })

/-- R26, R27, R29, with R98. Outside BUSY a write to one of the nine argument registers is stored in all 32 bits and
read back, as the command word, the length or the half of the address that the rules give for the offset, and every
other register keeps its value. -/
def Obligations.ArgumentRegistersStore : Prop :=
  ∀ (s : State) (off : Nat) (v : Word), s.seq ≠ .busy →
    off ∈ [0x018, 0x01C, 0x020, 0x028, 0x02C, 0x030, 0x034, 0x038, 0x03C] →
    let t := writeReg s off v
    readReg t off = v ∧
    (∀ off', off' ≠ off → readReg t off' = readReg s off') ∧
    t.mem = s.mem ∧
    (t.cmd = if off = 0x018 then v else s.cmd) ∧
    (t.lenN = if off = 0x01C then v.toNat else s.lenN) ∧
    (t.lenM = if off = 0x020 then v.toNat else s.lenM) ∧
    (t.srcA.toNat = if off = 0x028 then s.srcA.toNat / 2 ^ 32 * 2 ^ 32 + v.toNat
      else if off = 0x02C then v.toNat * 2 ^ 32 + s.srcA.toNat % 2 ^ 32 else s.srcA.toNat) ∧
    (t.srcB.toNat = if off = 0x030 then s.srcB.toNat / 2 ^ 32 * 2 ^ 32 + v.toNat
      else if off = 0x034 then v.toNat * 2 ^ 32 + s.srcB.toNat % 2 ^ 32 else s.srcB.toNat) ∧
    (t.dst.toNat = if off = 0x038 then s.dst.toNat / 2 ^ 32 * 2 ^ 32 + v.toNat
      else if off = 0x03C then v.toNat * 2 ^ 32 + s.dst.toNat % 2 ^ 32 else s.dst.toNat)

/-- R22, R23, R24, R33, R34. In every state ID, VERSION, CAPS and CTRL read their constants. A write to a read-only or
reserved offset changes nothing; a reserved offset reads 0; a read of any register but STATUS and IRQ_STAT, by which the
host may see DONE, changes nothing but what the host last read; 0x100 and above are outside the window. -/
def Obligations.ReadOnlyAndReservedOffsets : Prop :=
  (∀ s : State, readReg s 0x000 = 0x444F4747 ∧ readReg s 0x004 = 0x00010000 ∧ readReg s 0x010 = 0 ∧
    (readReg s 0x008).extractLsb' 0 5 = BitVec.ofNat 5 s.platform.log2Lmax ∧ (readReg s 0x008).extractLsb' 5 27 = 0) ∧
  (∀ (s : State) (off : Nat) (v : Word),
    (off ∈ [0x000, 0x004, 0x008, 0x014, 0x024, 0x048, 0x04C] ∨ off = 0x00C ∨ 0x050 ≤ off) →
    writeReg s off v = s) ∧
  (∀ (s : State) (off : Nat), (off = 0x00C ∨ 0x050 ≤ off) → readReg s off = 0) ∧
  (∀ (s : State) (off a : Nat) (w : Width) (rest : List HostEvent), off ≠ 0x014 → off ≠ 0x044 →
    targetOf s.platform a w.bytes = .register off →
    step { s with script := .read a w :: rest } =
      .next { s with script := rest, hostData := (readReg s off).setWidth 64 }) ∧
  (∀ (p : Platform) (a off : Nat), targetOf p a 4 = .register off → off < 0x100 ∧ a = p.mmioBase + off)

/-- R30. A write to IRQ_EN stores bits 1:0 in every STATE; bits 31:2 read 0; nothing else changes. -/
def Obligations.InterruptEnableWrite : Prop :=
  ∀ (s : State) (v : Word),
    readReg (writeReg s 0x040 v) 0x040 = v &&& 3 ∧
    writeReg s 0x040 v = { s with irqEn := v.extractLsb' 0 2 }

/-- R31. A write of 1 to IRQ_STAT clears a pending bit and a write of 0 leaves it, in every STATE, and changes nothing
else; a step into DONE sets DONE_IP and a step into ERROR sets ERR_IP, whatever IRQ_EN holds, and the other bit keeps
its value; bits 31:2 read 0. -/
def Obligations.PendingBits : Prop :=
  (∀ (s : State) (v : Word),
    readReg (writeReg s 0x044 v) 0x044 = readReg s 0x044 &&& ~~~ v ∧
    (readReg s 0x044).extractLsb' 2 30 = 0 ∧
    writeReg s 0x044 v = { s with irqStat := (writeReg s 0x044 v).irqStat }) ∧
  (∀ s t : State, step s = .next t →
    (s.seq ≠ .done → t.seq = .done → t.irqStat = s.irqStat ||| 1) ∧
    (s.seq ≠ .error → t.seq = .error → t.irqStat = s.irqStat ||| 2))

/-- R45. The interrupt output is the OR over the two sources of pending and enabled. -/
def Obligations.InterruptLevel : Prop :=
  ∀ s : State, s.irq = true ↔ readReg s 0x044 &&& readReg s 0x040 ≠ 0

/-- R35, R36, R99. While BUSY every register write but those of IRQ_EN and IRQ_STAT is ignored, START and CLEAR
included; a step that stays in BUSY changes no register the running command reads. -/
def Obligations.BusyKeepsArguments : Prop :=
  (∀ (s : State) (off : Nat) (v : Word), s.seq = .busy → off ≠ 0x040 → off ≠ 0x044 → writeReg s off v = s) ∧
  (∀ s t : State, s.seq = .busy → step s = .next t → t.seq = .busy →
    t.cmd = s.cmd ∧ t.lenA = s.lenA ∧ t.lenB = s.lenB ∧ t.srcA = s.srcA ∧ t.srcB = s.srcB ∧ t.dst = s.dst)

/-- R38. A host access that touches the window is a 32-bit access at an offset that is a multiple of 4, or it is
refused. R38 speaks of offsets in the window; that an access lying only partly in it is refused too is the model's
(log 17). A read may show the host DONE as well (R269, log 31). -/
def Obligations.NarrowRegisterAccessRefused : Prop :=
  ∀ (s : State) (a : Nat) (w : Width) (v : BitVec 64) (rest : List HostEvent),
    a < s.platform.mmioBase + 256 → s.platform.mmioBase < a + w.bytes →
    if w = .w4 ∧ s.platform.mmioBase ≤ a ∧ (a - s.platform.mmioBase) % 4 = 0 then
      step { s with script := .read a w :: rest } =
          .next { s.observe (s.showsDone (a - s.platform.mmioBase)) with
                  script := rest, hostData := (readReg s (a - s.platform.mmioBase)).setWidth 64 } ∧
      step { s with script := .write a w v :: rest } =
          .next (writeReg { s with script := rest } (a - s.platform.mmioBase) (v.extractLsb' 0 32))
    else
      step { s with script := .read a w :: rest } = .refused (.registerAccess a) ∧
      step { s with script := .write a w v :: rest } = .refused (.registerAccess a)

/-- R40. A CTRL write of START without CLEAR: from IDLE or DONE the start checks, then the error entry or BUSY with
every register as it was; from ERROR and BUSY nothing.
The race mark is the model's and no register: it starts set where region D of a BUSY instance shares a byte with a region
of the command, which is R81's race of two running commands as the model marks it (DEDUCED, logs 10, 32). -/
def Obligations.StartRule : Prop :=
  ∀ (s : State) (v : Word), v.getLsbD 0 = true → v.getLsbD 1 = false →
    ((s.seq = .busy ∨ s.seq = .error) → writeReg s 0x010 v = s) ∧
    ((s.seq = .idle ∨ s.seq = .done) →
      (∀ e, decode s.cmd = .error e → writeReg s 0x010 v = s.enterError .illegalCmd 0) ∧
      (∀ i e, decode s.cmd = .ok i → startCheck i s = some e →
        writeReg s 0x010 v = s.enterError e.code e.addr) ∧
      (∀ i, decode s.cmd = .ok i → startCheck i s = none →
        writeReg s 0x010 v = { s with
          seq := .busy, raced := s.peers.any fun p => p.busy && (regionsOf i s).any fun r => r.overlaps p.result }))

/-- R41, R42. CLEAR takes DONE and ERROR to IDLE with ERRCODE and err_addr 0 and does nothing in IDLE and BUSY; a
write of both bits is CLEAR and then START. -/
def Obligations.ClearRule : Prop :=
  ∀ (s : State) (v : Word), v.getLsbD 1 = true →
    (v.getLsbD 0 = false →
      ((s.seq = .done ∨ s.seq = .error) →
        writeReg s 0x010 v = { s with seq := .idle, err := .none, errAddr := 0 }) ∧
      ((s.seq = .idle ∨ s.seq = .busy) → writeReg s 0x010 v = s)) ∧
    (v.getLsbD 0 = true →
      (s.seq ≠ .busy → writeReg s 0x010 v = writeReg (writeReg s 0x010 2) 0x010 1) ∧
      (s.seq = .busy → writeReg s 0x010 v = s))

/-- R39. Every step keeps STATE or makes one of the table's transitions: START from IDLE or DONE, or with CLEAR from
ERROR; CLEAR from DONE or ERROR; the completion of a command all of whose accesses complete; BUS_ERROR at a failed
access to a word of a region of a command that START accepted; reset. -/
def Obligations.SequencerTransitions : Prop :=
  ∀ s t : State, step s = .next t →
    t.seq = s.seq ∨
    (∃ v, ctrlWrite s = some v ∧ v.getLsbD 0 = true ∧
      (s.seq = .idle ∨ s.seq = .done ∨ (s.seq = .error ∧ v.getLsbD 1 = true)) ∧
      ((t.seq = .busy ∧ ∃ i, decode s.cmd = .ok i ∧ startCheck i s = none) ∨
       (t.seq = .error ∧ ¬ ∃ i, decode s.cmd = .ok i ∧ startCheck i s = none))) ∨
    (∃ v, ctrlWrite s = some v ∧ v.getLsbD 0 = false ∧ v.getLsbD 1 = true ∧
      (s.seq = .done ∨ s.seq = .error) ∧ t.seq = .idle) ∨
    (s.seq = .busy ∧ ctrlWrite s = none ∧
      ((t.seq = .done ∧ ∃ i, decode s.cmd = .ok i ∧ Runnable i s) ∨
       (t.seq = .error ∧ (BusyArmed s → t.err = .busError ∧ ∃ i, decode s.cmd = .ok i ∧
         ∃ r ∈ regionsOf i s, ∃ k < r.size / 8, busAccess s.platform (r.base + 8 * k) = some (.fail (r.base + 8 * k)) ∧
           t.errAddr = BitVec.ofNat 64 (r.base + 8 * k))))) ∨
    (s.script.head? = some .reset ∧ t.seq = .idle)

/-! ## The machine -/

/-- The invariant holds after reset, on every platform within R7's ranges. Its clauses on the race mark, on the waiting
lists and on the other instances are over the model's own fields (logs 10, 13, 31, 32). -/
def Obligations.ResetMeetsInvariant : Prop :=
  State.reset.Inv ∧ ∀ p : Platform, p.wf = true → (State.resetOn p).Inv

/-- Every step keeps the invariant; its clause on the other instances (R250) is in the model's numbers (logs 20, 32). -/
def Obligations.StepKeepsInvariant : Prop :=
  ∀ s t : State, s.Inv → step s = .next t → t.Inv

/-- No step changes the platform's parameters (R7, R23: CAPS is constant). -/
def Obligations.PlatformIsConstant : Prop :=
  ∀ s t : State, step s = .next t → t.platform = s.platform ∧ readReg t 0x008 = readReg s 0x008

/-- A step of a BUSY engine whose turn it is runs the decoded command; in another STATE the engine's turn changes
nothing, whatever CMD holds. A POLL reads its register once; satisfied it leaves the script, else it stays and the
engine takes its turn. A wait for the interrupt does the same by irq. What the host sees of DONE by them is R269's
(log 31). -/
def Obligations.StepRunsDecodedCommand : Prop :=
  ∀ (s : State) (rest : List HostEvent),
    (∀ i, decode s.cmd = .ok i → s.seq = .busy →
      (s.script = [] → step s = exec i s) ∧
      (s.script = .wait :: rest → step s = exec i { s with script := rest })) ∧
    (s.seq ≠ .busy →
      (s.script = [] → step s = .next s) ∧
      (s.script = .wait :: rest → step s = .next { s with script := rest })) ∧
    (∀ a off mask value, s.script = .poll a mask value :: rest → targetOf s.platform a 4 = .register off →
      let seen := { s.observe (s.showsDone off) with hostData := (readReg s off).setWidth 64 }
      (readReg s off &&& mask = value → step s = .next { seen with script := rest }) ∧
      (readReg s off &&& mask ≠ value →
        (s.seq ≠ .busy → step s = .next seen) ∧
        (∀ i, decode s.cmd = .ok i → s.seq = .busy → step s = exec i seen))) ∧
    (s.script = .takeIrq :: rest →
      (s.irq = true → step s = .next { s with
        script := rest, unseen := if s.doneIp = true ∧ s.doneIe = true then [] else s.unseen }) ∧
      (s.irq = false → s.seq ≠ .busy → step s = .next s) ∧
      (∀ i, decode s.cmd = .ok i → s.irq = false → s.seq = .busy → step s = exec i s))

/-- R274. Where every access of a command completes or fails and no region lies over a device, the command ends in DONE
or ERROR in its one engine step. An access that never completes, at word k of region A, of region B or of region D
after accesses that complete, has no next state: it is the fault busHang of that word (log 16). One engine step per
command is the model's (log 2). -/
def Obligations.CommandsTerminate : Prop :=
  (∀ (i : Instr) (s : State), (∀ r ∈ regionsOf i s, NoDevice s.platform r) →
    (∀ r ∈ regionsOf i s, ∀ k < r.size / 8, ∀ a, busAccess s.platform (r.base + 8 * k) ≠ some (.hang a)) →
    ∃ t, exec i s = .next t ∧ (t.seq = .done ∨ t.seq = .error)) ∧
  (∀ (i : Instr) (s : State) (k : Nat), startCheck i s = none → (∀ r ∈ regionsOf i s, NoDevice s.platform r) →
    let hangsAt := fun r : Span => k < r.size / 8 ∧ (∀ j < k, busAccess s.platform (r.base + 8 * j) = none) ∧
      spansHave s.platform.busHang (r.base + 8 * k) = true
    (hangsAt (regionA i s) → exec i s = .fault (.busHang ((regionA i s).base + 8 * k))) ∧
    (RegionOk s.platform (regionA i s) → hangsAt (regionB i s) →
      exec i s = .fault (.busHang ((regionB i s).base + 8 * k))) ∧
    (RegionOk s.platform (regionA i s) → RegionOk s.platform (regionB i s) → hangsAt (regionD i s) →
      exec i s = .fault (.busHang ((regionD i s).base + 8 * k))))

/-! ## 20_memory.md -/

/-- R64. The three regions of every command. -/
def Obligations.RegionTable : Prop :=
  ∀ (s : State) (fa fb : Fmt) (herm : Bool),
    (∀ i ∈ [Instr.fft fa, .fftR2 fa, .fftBl fa, .ifft fa herm, .ifftR2 fa herm, .ifftBl fa herm],
      regionA i s = ⟨s.srcA.toNat, s.lenN * fa.size⟩ ∧ (regionB i s).size = 0 ∧
      regionD i s = ⟨s.dst.toNat, 16 * s.lenN⟩) ∧
    (0 < s.lenN → 0 < s.lenM →
      regionA (.conv fa fb) s = ⟨s.srcA.toNat, s.lenN * fa.size⟩ ∧
      regionB (.conv fa fb) s = ⟨s.srcB.toNat, s.lenM * fb.size⟩ ∧
      regionD (.conv fa fb) s = ⟨s.dst.toNat, (s.lenN + s.lenM - 1) * (fmtOut fa fb).size⟩) ∧
    ((s.lenN = 0 ∨ s.lenM = 0) → ∀ r ∈ regionsOf (.conv fa fb) s, r.size = 0) ∧
    (∀ i ∈ [Instr.cconv fa fb, .nconv fa fb],
      regionA i s = ⟨s.srcA.toNat, s.lenN * fa.size⟩ ∧ regionB i s = ⟨s.srcB.toNat, s.lenN * fb.size⟩ ∧
      regionD i s = ⟨s.dst.toNat, s.lenN * (fmtOut fa fb).size⟩)

/-- R61, R62, R63. Where every host write is visible, the elements the engine reads are the little-endian binary64
values of memory, a complex element with its real part first. -/
def Obligations.OperandElements : Prop :=
  ∀ (s : State) (region b n k : Nat), s.unclean = [] → k < n →
    (operandOf .real (regionWords s region ⟨b, n * 8⟩)).toComplex[k]? =
      some ⟨BitVec.ofNat 64 (memReadBytes s.mem (b + 8 * k) 8), zeroF⟩ ∧
    (operandOf .complex (regionWords s region ⟨b, n * 16⟩)).toComplex[k]? =
      some ⟨BitVec.ofNat 64 (memReadBytes s.mem (b + 16 * k) 8),
            BitVec.ofNat 64 (memReadBytes s.mem (b + 16 * k + 8) 8)⟩

/-- R62. A host store reads back, little-endian, and every byte outside it is unchanged. That it reads back where the
engine's result stood whose DONE the host has not observed, or with IO_COHERENT false not invalidated, is the model's:
a host write of a byte ends both (logs 31, 13). The host's bytes are no BUSY instance's (R268, log 32). -/
def Obligations.HostStoreThenLoad : Prop :=
  ∀ (s : State) (a : Nat) (w : Width) (v : BitVec 64) (rest : List HostEvent), s.mem.wf = true → s.running = none →
    targetOf s.platform a w.bytes = .memory →
    (∀ p ∈ s.peers, p.busy = true → ∀ k < w.bytes, p.hides (a + k) = false) →
    ∃ t u, step { s with script := .write a w v :: .read a w :: rest } = .next t ∧ step t = .next u ∧
      u.hostData.toNat = v.toNat % 256 ^ w.bytes ∧
      (∀ k < w.bytes, memRead t.mem (a + k) = BitVec.ofNat 8 (v.toNat / 256 ^ k)) ∧
      (∀ x, (x < a ∨ a + w.bytes ≤ x) → memRead t.mem x = memRead s.mem x)

/-- R69. A command with a region over a device with read side effects is refused. -/
def Obligations.DeviceRegionRefused : Prop :=
  ∀ (i : Instr) (s : State), startCheck i s = none → (∃ r ∈ regionsOf i s, ¬ NoDevice s.platform r) →
    exec i s = .refused .deviceRegion

/-- R70, R73, R239. A bus error in the read phase: the error entry with the address of the first failing access,
region A before region B, and memory unchanged. -/
def Obligations.ReadPhaseBusError : Prop :=
  ∀ (i : Instr) (s : State) (k : Nat), s.platform.wf = true → startCheck i s = none →
    (∀ r ∈ regionsOf i s, NoDevice s.platform r) →
    (k < (regionA i s).size / 8 → (∀ j < k, busAccess s.platform ((regionA i s).base + 8 * j) = none) →
      busAccess s.platform ((regionA i s).base + 8 * k) = some (.fail ((regionA i s).base + 8 * k)) →
      ∃ t, exec i s = .next t ∧ t.seq = .error ∧ t.err = .busError ∧
        t.errAddr.toNat = (regionA i s).base + 8 * k ∧ t.outLen = 0 ∧ t.irqStat = s.irqStat ||| 2 ∧
        t.mem = s.mem) ∧
    (k < (regionB i s).size / 8 → RegionOk s.platform (regionA i s) →
      (∀ j < k, busAccess s.platform ((regionB i s).base + 8 * j) = none) →
      busAccess s.platform ((regionB i s).base + 8 * k) = some (.fail ((regionB i s).base + 8 * k)) →
      ∃ t, exec i s = .next t ∧ t.seq = .error ∧ t.err = .busError ∧
        t.errAddr.toNat = (regionB i s).base + 8 * k ∧ t.outLen = 0 ∧ t.irqStat = s.irqStat ||| 2 ∧
        t.mem = s.mem)

/-- R70, R73, R239. A bus error in the write phase at an address a: the error entry with a; the words of region D
below a are the result's; every byte from a upward, and every byte below region D, keeps its contents, and with
IO_COHERENT false only the bytes written come to wait for the host's invalidate (log 13). -/
def Obligations.WritePhaseBusError : Prop :=
  ∀ (i : Instr) (s : State) (k : Nat), s.platform.wf = true → s.mem.wf = true → s.raced = false →
    startCheck i s = none →
    (∀ r ∈ regionsOf i s, NoDevice s.platform r) →
    RegionOk s.platform (regionA i s) → RegionOk s.platform (regionB i s) → k < (regionD i s).size / 8 →
    (∀ j < k, busAccess s.platform ((regionD i s).base + 8 * j) = none) →
    busAccess s.platform ((regionD i s).base + 8 * k) = some (.fail ((regionD i s).base + 8 * k)) →
    ∃ t, exec i s = .next t ∧ t.seq = .error ∧ t.err = .busError ∧
      t.errAddr.toNat = (regionD i s).base + 8 * k ∧ t.outLen = 0 ∧ t.irqStat = s.irqStat ||| 2 ∧
      (∀ j < k, memReadBytes t.mem ((regionD i s).base + 8 * j) 8
        = ((resultOf i s).words.getD j 0).toNat) ∧
      (∀ x, (x < (regionD i s).base ∨ (regionD i s).base + 8 * k ≤ x) →
        memRead t.mem x = memRead s.mem x ∧ spansHave t.stale x = spansHave s.stale x) ∧
      (s.platform.ioCoherent = false →
        ∀ x, (regionD i s).base ≤ x → x < (regionD i s).base + 8 * k → spansHave t.stale x = true)

/-- The frame of all nine commands (R68, R172, R200, R236): the registers a command reads, IRQ_EN, the platform, the
host's side and every byte outside region D are unchanged; of IRQ_STAT only the bit of the STATE entered is set. A
failed start check leaves memory whole, exec's own check being the model's (log 5). Whether a byte outside region D
waits for an invalidate (log 13), or for the host to observe DONE (log 31), or is hidden by another instance (log 32), is
unchanged, and so are the instances that are BUSY. -/
def Obligations.CommandFrame : Prop :=
  ∀ (i : Instr) (s t : State), s.mem.wf = true → exec i s = .next t →
    t.platform = s.platform ∧ t.cmd = s.cmd ∧ t.lenA = s.lenA ∧ t.lenB = s.lenB ∧
    t.srcALo = s.srcALo ∧ t.srcAHi = s.srcAHi ∧ t.srcBLo = s.srcBLo ∧ t.srcBHi = s.srcBHi ∧
    t.dstLo = s.dstLo ∧ t.dstHi = s.dstHi ∧ t.irqEn = s.irqEn ∧ t.unclean = s.unclean ∧
    t.script = s.script ∧ t.hostData = s.hostData ∧
    t.peers.filter (fun p => p.busy) = s.peers.filter (fun p => p.busy) ∧
    ((t.seq = .done ∧ t.irqStat = s.irqStat ||| 1 ∧ t.err = s.err ∧ t.errAddr = s.errAddr) ∨
     (t.seq = .error ∧ t.irqStat = s.irqStat ||| 2)) ∧
    (startCheck i s ≠ none → t.mem = s.mem) ∧
    (∀ a, (a < (regionD i s).base ∨ (regionD i s).base + (regionD i s).size ≤ a) →
      memRead t.mem a = memRead s.mem a ∧ spansHave t.stale a = spansHave s.stale a ∧
      spansHave t.unseen a = spansHave s.unseen a ∧ peersHide t.peers a = peersHide s.peers a)

/-- R43, R44, R72, R121. A command's result depends on its lengths and the operand elements alone, NaN bits apart: two
states that agree on these, whatever else they hold, however many commands ran before, and wherever their regions lie
(overlapping or not), leave the same words in region D but for NaN bits. Where they also agree on the number of the
next set of NaN draws, the model's own counter (logs 6, 22), the NaN bits are the same as well. -/
def Obligations.ResultIsPure : Prop :=
  ∀ (i : Instr) (s1 s2 t1 t2 : State),
    s1.mem.wf = true → s2.mem.wf = true → s1.raced = false → s2.raced = false →
    s1.lenA = s2.lenA → s1.lenB = s2.lenB →
    operandA i s1 = operandA i s2 → operandB i s1 = operandB i s2 →
    exec i s1 = .next t1 → exec i s2 = .next t2 → t1.seq = .done → t2.seq = .done →
    t1.outLen = t2.outLen ∧ (regionD i s1).size = (regionD i s2).size ∧
    ∀ k < (regionD i s1).size / 8,
      let w1 : F64 := BitVec.ofNat 64 (memReadBytes t1.mem ((regionD i s1).base + 8 * k) 8)
      let w2 : F64 := BitVec.ofNat 64 (memReadBytes t2.mem ((regionD i s2).base + 8 * k) 8)
      SameButNaN w1 w2 ∧ (s1.draws = s2.draws → w1 = w2)

/-- R75, R265. While a command runs, a step with a host write of memory next stores its bytes and changes no other; a
write into a region of the command makes every word of region D a free value at DONE; a write outside its regions
leaves the race flag as it was. A host read while BUSY gives a free value for every byte of the command's regions (of
A and B as well, R265, log 11) and memory's byte elsewhere, and memory stays.
R81. Another instance races with the command as a host would, by its writes and where it is BUSY at once with a region D
that shares a byte with a region of the command: then, and only then, its write, its start and the command's own START
set the race mark. A start takes it to BUSY where it is one of NUM_INSTANCES (R7, R250), not BUSY yet, and its regions are
aligned and in range, and changes nothing here else; a write where none of an instance completes sets no mark (log 32). -/
def Obligations.RaceMakesResultAny : Prop :=
  ∀ (i : Instr) (s : State) (a : Nat) (w : Width) (v : BitVec 64),
    s.running = some i →
    (∀ rest, targetOf s.platform a w.bytes = .memory →
      ∃ t, step { s with script := .write a w v :: rest } = .next t ∧
        t = { s with script := rest, mem := t.mem, raced := t.raced, unclean := t.unclean, stale := t.stale,
                     unseen := t.unseen, peers := t.peers } ∧
        ((∃ r ∈ regionsOf i s, r.overlaps ⟨a, w.bytes⟩ = true) → t.raced = true) ∧
        ((∀ r ∈ regionsOf i s, r.overlaps ⟨a, w.bytes⟩ = false) → t.raced = s.raced) ∧
        (s.mem.wf = true → ∀ x, memRead t.mem x =
          if a ≤ x ∧ x < a + w.bytes then BitVec.ofNat 8 (v.toNat / 256 ^ (x - a)) else memRead s.mem x)) ∧
    (s.mem.wf = true → s.raced = true → Runnable i s →
      ∃ t, exec i s = .next t ∧ t.seq = .done ∧ t.raced = false ∧
        ∀ k < (regionD i s).size / 8,
          memReadBytes t.mem ((regionD i s).base + 8 * k) 8 = (Config.anyWord [k, s.draws]).toNat) ∧
    (∀ rest, targetOf s.platform a w.bytes = .memory →
      ∃ u, step { s with script := .read a w :: rest } = .next u ∧ u.mem = s.mem ∧
        ∀ k < w.bytes,
          ((∃ r ∈ regionsOf i s, r.has (a + k) = true) →
            u.hostData.toNat / 256 ^ k % 256 = (Config.anyByte [a + k, 2, s.draws]).toNat) ∧
          ((∀ r ∈ regionsOf i s, r.has (a + k) = false) → spansHave s.stale (a + k) = false →
            spansHave s.unseen (a + k) = false → peersHide s.peers (a + k) = false →
            u.hostData.toNat / 256 ^ k % 256 = (memRead s.mem (a + k)).toNat)) ∧
    (∀ rest (x : Nat) (y : BitVec 64) t, step { s with script := .peerWrite x y :: rest } = .next t →
      (t.raced = true ↔ s.raced = true ∨
        (s.peerMayWrite x = true ∧ ∃ r ∈ regionsOf i s, r.overlaps ⟨x, 8⟩ = true))) ∧
    (∀ rest n inputs d,
      let ok := (0 < n ∧ n < s.platform.numInstances) ∧ (∀ p ∈ s.peers, p.busy = true → p.inst ≠ n) ∧
        ∀ r ∈ d :: inputs, r.size % 8 = 0 ∧ (0 < r.size → r.base % 8 = 0 ∧ r.base + r.size ≤ 2 ^ s.platform.paBits)
      (ok → ∃ t, step { s with script := .peerStart n inputs d :: rest } = .next t ∧
        t = { s with script := rest, raced := t.raced, peers := ⟨n, inputs, d, true⟩ :: s.peers } ∧
        (t.raced = true ↔ s.raced = true ∨ ∃ r ∈ regionsOf i s, r.overlaps d = true)) ∧
      (¬ ok → step { s with script := .peerStart n inputs d :: rest } = .next { s with script := rest })) ∧
    ∀ u : State, (u.seq = .idle ∨ u.seq = .done) → decode u.cmd = .ok i → startCheck i u = none →
      ((writeReg u 0x010 1).raced = true ↔
        ∃ p ∈ u.peers, p.busy = true ∧ ∃ r ∈ regionsOf i u, r.overlaps p.result = true)

/-- R74, R265, R269, R273. With IO_COHERENT true, a host that has observed DONE, by reading STATUS or, with DONE_IE set,
by taking the interrupt or polling IRQ_STAT, and then reads region D sees the command's result. A host that reads
region D without having observed it gets free values (R265, log 31). No instance is BUSY over the bytes (R268, log 32). -/
def Obligations.ResultIsReadByHost : Prop :=
  ∀ (i : Instr) (s : State) (k : Nat) (rest : List HostEvent),
    s.mem.wf = true → s.raced = false → s.platform.ioCoherent = true → s.stale = [] → Runnable i s →
    k < (regionD i s).size / 8 →
    targetOf s.platform ((regionD i s).base + 8 * k) 8 = .memory →
    (∀ p ∈ s.peers, p.busy = true → ∀ j < 8, p.hides ((regionD i s).base + 8 * k + j) = false) →
    let readD := .read ((regionD i s).base + 8 * k) .w8 :: rest
    (∀ look : HostEvent,
      (look = .read (s.platform.mmioBase + 0x014) .w4 ∨ look = .poll (s.platform.mmioBase + 0x014) 3 2 ∨
        (s.doneIe = true ∧ (look = .takeIrq ∨ look = .poll (s.platform.mmioBase + 0x044) 1 1))) →
      s.script = look :: readD →
      ∃ t u v, exec i s = .next t ∧ t.seq = .done ∧ step t = .next u ∧ step u = .next v ∧
        v.hostData = (resultOf i s).words.getD k 0) ∧
    (s.script = readD → ∃ t u, exec i s = .next t ∧ t.seq = .done ∧ step t = .next u ∧
      ∀ j < 8, u.hostData.toNat / 256 ^ j % 256 =
        (Config.anyByte [(regionD i s).base + 8 * k + j, 2, t.draws]).toNat)

/-- R78, R267, R269. What a clean and an invalidate of a span do, with L the lines that hold bytes the host wrote and
has not cleaned within the lines covering the span: no byte of those covering lines waits for a clean any more, nor,
after the invalidate, for an invalidate.
After a clean every byte of a line of L that the engine wrote and the host has not invalidated holds a free value,
since the line's older byte is written back over it or the cache had done so before (log 13); until the clean an engine
read of such a byte is a free value as well.
After an invalidate a byte that the host wrote and has not cleaned, and that the engine has not written since, holds a
free value, since the cache drops it and memory may or may not have it (log 29); with no command running, the host then
reads memory's byte at every address of those lines but in a result, of this engine or of another instance (log 32),
whose DONE it has not observed.
Every other byte of memory stays, and either is a race where a line of L touches a region of the running command. -/
def Obligations.CacheMaintenance : Prop :=
  ∀ (s : State) (x : Span), s.mem.wf = true →
    let k := s.platform.log2Line
    let y := x.lines k
    let L := (s.unclean.map fun u => u.inter y).map (Span.lines k)
    let raced := s.raced = true ∨ ∃ i, s.running = some i ∧ ∃ l ∈ L, ∃ r ∈ regionsOf i s, r.overlaps l = true
    let t := hostClean s x
    let u := hostInvalidate s x
    ((∀ a, spansHave t.unclean a = (spansHave s.unclean a && !y.has a)) ∧ t.stale = s.stale ∧
      (∀ a, memRead t.mem a =
        if spansHave L a && spansHave s.stale a then Config.anyByte [a, 4, s.draws] else memRead s.mem a) ∧
      (t.raced = true ↔ raced) ∧
      ∀ a region, spansHave L a = true → spansHave s.stale a = true →
        engineByte s region a = Config.anyByte [a, region, s.draws]) ∧
    (∀ a, spansHave u.unclean a = (spansHave s.unclean a && !y.has a)) ∧
    (∀ a, spansHave u.stale a = (spansHave s.stale a && !y.has a)) ∧
    (∀ a, memRead u.mem a =
      if y.has a && spansHave s.unclean a && !spansHave s.stale a then Config.anyByte [a, 5, s.draws]
      else memRead s.mem a) ∧
    (u.raced = true ↔ raced) ∧
    (s.running = none → ∀ a, y.has a = true → spansHave s.unseen a = false → peersHide s.peers a = false →
      hostByte u a = memRead u.mem a)

/-- R70, R78, R81, R250, R267, R269. With IO_COHERENT false: after the step of a host write, an engine read of a byte stored is a
free value until the step of a clean, and the byte stored afterwards; a host read of a byte of region D after DONE is
a free value until the host has observed DONE and invalidates it, and the byte of memory afterwards. A step with a
clean or an invalidate next is that clean or invalidate.
Another instance's write, coherent or not, goes through no cache: it leaves every other byte as it was, for the engine
and for the host, and the engine then reads the byte written, but under a dirty line of the host. It completes at an
8-byte-aligned address in range, where BUS_OK holds, in region D of a BUSY instance; the script may name another address,
and then nothing changes, which is the model's choice (log 32). Once the host has observed the end of the only instance
that hides a byte, none does (log 32). -/
def Obligations.NonCoherentAccesses : Prop :=
  (∀ (s : State) (a region k : Nat) (w : Width) (v : BitVec 64) (x : Span) (rest : List HostEvent), s.mem.wf = true →
    s.platform.ioCoherent = false → targetOf s.platform a w.bytes = .memory → k < w.bytes → x.has (a + k) = true →
    ∃ t u, step { s with script := .write a w v :: .clean x :: rest } = .next t ∧ step t = .next u ∧
      engineByte t region (a + k) = Config.anyByte [a + k, region, s.draws] ∧
      engineByte u region (a + k) = BitVec.ofNat 8 (v.toNat / 256 ^ k)) ∧
  (∀ (s : State) (x : Span) (rest : List HostEvent),
    step { s with script := .clean x :: rest } = .next (hostClean { s with script := rest } x) ∧
    step { s with script := .invalidate x :: rest } = .next (hostInvalidate { s with script := rest } x)) ∧
  (∀ (i : Instr) (s t : State) (a : Nat), s.mem.wf = true → s.platform.ioCoherent = false → exec i s = .next t →
    t.seq = .done → (regionD i s).has a = true → (∀ p ∈ s.peers, p.busy = true → p.hides a = false) →
    hostByte t a = Config.anyByte [a, 2, t.draws] ∧
    ∀ (x : Span) (rest : List HostEvent), x.has a = true →
      s.script = .read (s.platform.mmioBase + 0x014) .w4 :: .invalidate x :: rest →
      ∃ u v, step t = .next u ∧ hostByte u a = Config.anyByte [a, 2, u.draws] ∧ step u = .next v ∧
        hostByte v a = memRead t.mem a) ∧
  (∀ (s : State) (a : Nat) (v : BitVec 64) (rest : List HostEvent), s.mem.wf = true →
    (∀ d ∈ s.platform.device, d.overlaps ⟨a, 8⟩ = false) →
    let completes := a % 8 = 0 ∧ a + 8 ≤ 2 ^ s.platform.paBits ∧ busAccess s.platform a = none ∧
      ∃ p ∈ s.peers, p.busy = true ∧ p.result.base ≤ a ∧ a + 8 ≤ p.result.base + p.result.size
    (¬ completes → step { s with script := .peerWrite a v :: rest } = .next { s with script := rest }) ∧
    (completes → ∃ t, step { s with script := .peerWrite a v :: rest } = .next t ∧
      t = { s with script := rest, mem := t.mem, raced := t.raced, stale := t.stale, unseen := t.unseen,
                   peers := t.peers } ∧
      (∀ x region, (x < a ∨ a + 8 ≤ x) → memRead t.mem x = memRead s.mem x ∧
        engineByte t region x = engineByte s region x ∧ hostByte t x = hostByte s x) ∧
      ∀ k < 8, memRead t.mem (a + k) = BitVec.ofNat 8 (v.toNat / 256 ^ k) ∧
        (s.platform.ioCoherent = false → spansHave t.stale (a + k) = true) ∧
        ∀ region, spansHave s.dirtyLines (a + k) = false →
          engineByte t region (a + k) = BitVec.ofNat 8 (v.toNat / 256 ^ k))) ∧
  ∀ (s : State) (n a : Nat) (rest : List HostEvent), (∀ p ∈ s.peers, p.inst ≠ n → p.hides a = false) →
    ∃ t u, step { s with script := .peerEnd n :: .peerSeen n :: rest } = .next t ∧ step t = .next u ∧
      u = { s with script := rest, peers := u.peers } ∧ peersHide u.peers a = false

/-! ## 60_exceptions.md: the start checks -/

/-- R236, with the registers of R28 and R32. The error entry, field by field, and what the host then reads of err_addr
and OUT_LEN; in every state the two halves of err_addr and OUT_LEN are read at 0x048, 0x04C and 0x024. -/
def Obligations.ErrorEntry : Prop :=
  ∀ (s : State) (e : ErrCode) (a : Addr),
    readReg (s.enterError e a) 0x048 = a.extractLsb' 0 32 ∧ readReg (s.enterError e a) 0x04C = a.extractLsb' 32 32 ∧
    readReg (s.enterError e a) 0x024 = 0 ∧
    readReg s 0x04C ++ readReg s 0x048 = s.errAddr ∧ readReg s 0x024 = s.outLen ∧
    (s.enterError e a).seq = .error ∧ (s.enterError e a).err = e ∧ (s.enterError e a).errAddr = a ∧
    (s.enterError e a).outLen = 0 ∧ (s.enterError e a).errIp = true ∧
    (s.enterError e a).doneIp = s.doneIp ∧ ((s.enterError e a).irq = true ↔ s.irq = true ∨ s.errIe = true) ∧
    s.enterError e a =
      { s with seq := .error, err := e, errAddr := a, outLen := 0, irqStat := (s.enterError e a).irqStat }

/-- R176, R204, R207, R209, R235. The capacity of each command: since LMAX is a power of two, a padded length fits
exactly when the length to be padded does. -/
def Obligations.CapacityRule : Prop :=
  ∀ (l n m : Nat) (fa fb : Fmt) (herm : Bool),
    (∀ i ∈ [Instr.fft fa, .ifft fa herm, .cconv fa fb, .nconv fa fb],
      capacityOk (2 ^ l) i n m = true ↔
        n ≤ 1 ∨ ((∃ k, n = 2 ^ k) ∧ n ≤ 2 ^ l) ∨ ((∀ k, n ≠ 2 ^ k) ∧ 2 * n - 1 ≤ 2 ^ l)) ∧
    (∀ i ∈ [Instr.fftR2 fa, .ifftR2 fa herm], capacityOk (2 ^ l) i n m = true ↔ n ≤ 2 ^ l) ∧
    (∀ i ∈ [Instr.fftBl fa, .ifftBl fa herm], capacityOk (2 ^ l) i n m = true ↔ n ≤ 1 ∨ 2 * n - 1 ≤ 2 ^ l) ∧
    (capacityOk (2 ^ l) (.conv fa fb) n m = true ↔ n = 0 ∨ m = 0 ∨ n + m - 1 ≤ 2 ^ l)

/-- R233, R234, R206. NOT_POW2 is raised exactly by FFT.R2 and IFFT.R2 at a length that is neither 0 nor a power of
two, LEN_MISMATCH exactly by CCONV and NCONV with LEN_B ≠ LEN_A; neither accesses memory. That exec makes the checks once
more is the model's (log 5). -/
def Obligations.LengthErrors : Prop :=
  ∀ (i : Instr) (s : State),
    (startCheck i s = some ⟨.notPow2, 0⟩ ↔
      (∃ fa, i = .fftR2 fa ∨ ∃ herm, i = .ifftR2 fa herm) ∧ s.lenA.toNat ≠ 0 ∧ ∀ k, s.lenA.toNat ≠ 2 ^ k) ∧
    (startCheck i s = some ⟨.lenMismatch, 0⟩ ↔
      (∃ fa fb, i = .cconv fa fb ∨ i = .nconv fa fb) ∧ s.lenB ≠ s.lenA) ∧
    (∀ e, startCheck i s = some e → exec i s = .next (s.enterError e.code e.addr))

/-- R240, with R65, R66, R237, R238. The start checks of a legal command in their order: the first that fails gives
the error, with the base of the first offending non-empty region for ALIGN and ADDR_RANGE. -/
def Obligations.StartChecksInOrder : Prop :=
  ∀ (i : Instr) (s : State),
    let pow2 := i.engine = .radix2 → s.lenN = 0 ∨ ∃ k, s.lenN = 2 ^ k
    let equal := i.needsEqualLengths = true → s.lenM = s.lenN
    let fits := capacityOk s.lmax i s.lenN s.lenM = true
    let aligned := fun r : Span => r.size = 0 ∨ r.base % 8 = 0
    let inRange := fun r : Span => r.size = 0 ∨ r.base + r.size ≤ 2 ^ s.platform.paBits
    let a := regionA i s
    let b := regionB i s
    let d := regionD i s
    (¬ pow2 → startCheck i s = some ⟨.notPow2, 0⟩) ∧
    (pow2 → ¬ equal → startCheck i s = some ⟨.lenMismatch, 0⟩) ∧
    (pow2 → equal → ¬ fits → startCheck i s = some ⟨.lenRange, 0⟩) ∧
    (pow2 → equal → fits →
      (¬ aligned a → startCheck i s = some ⟨.align, s.srcA⟩) ∧
      (aligned a → ¬ aligned b → startCheck i s = some ⟨.align, s.srcB⟩) ∧
      (aligned a → aligned b → ¬ aligned d → startCheck i s = some ⟨.align, s.dst⟩) ∧
      (aligned a → aligned b → aligned d →
        (¬ inRange a → startCheck i s = some ⟨.addrRange, s.srcA⟩) ∧
        (inRange a → ¬ inRange b → startCheck i s = some ⟨.addrRange, s.srcB⟩) ∧
        (inRange a → inRange b → ¬ inRange d → startCheck i s = some ⟨.addrRange, s.dst⟩) ∧
        (inRange a → inRange b → inRange d → startCheck i s = none)))

/-- R28. Where the start checks pass, the number of result elements is at most 2^30, so OUT_LEN holds it whole. -/
def Obligations.OutLenFits : Prop :=
  ∀ (i : Instr) (s : State), s.platform.wf = true → startCheck i s = none →
    outLength i s.lenN s.lenM ≤ 2 ^ 30 ∧
    (BitVec.ofNat 32 (outLength i s.lenN s.lenM)).toNat = outLength i s.lenN s.lenM

/-! ## 40_datapath.md: binary64 -/

/-- R120. Each operation on finite operands whose exact result is in the finite range is RNE of the exact result:
subnormal operands and results included, one rounding. -/
def Obligations.ArithmeticIsCorrectlyRounded : Prop :=
  ∀ (t : Site) (a b : F64), isFinite a = true → isFinite b = true →
    (InRange (realOf a + realOf b) → IsRNE (realOf a + realOf b) (addF t a b)) ∧
    (InRange (realOf a - realOf b) → IsRNE (realOf a - realOf b) (subF t a b)) ∧
    (InRange (realOf a * realOf b) → IsRNE (realOf a * realOf b) (mulF t a b)) ∧
    (realOf b ≠ 0 → InRange (realOf a / realOf b) → IsRNE (realOf a / realOf b) (divF t a b))

/-- R120, R121. An exact result outside the finite range gives the infinity of its sign. An infinity plus, minus or
times an operand that makes no NaN of it is an infinity: of its own sign in a sum, of the exclusive or of the signs in
a product and a quotient. A finite value over an infinity is the zero of that sign, and a nonzero finite value over a
zero the infinity of that sign. -/
def Obligations.OverflowGivesInfinity : Prop :=
  (∀ (t : Site) (a b : F64), isFinite a = true → isFinite b = true →
    (¬ InRange (realOf a + realOf b) → addF t a b = packF64 (decide (realOf a + realOf b < 0)) infMag) ∧
    (¬ InRange (realOf a - realOf b) → subF t a b = packF64 (decide (realOf a - realOf b < 0)) infMag) ∧
    (¬ InRange (realOf a * realOf b) → mulF t a b = packF64 (decide (realOf a * realOf b < 0)) infMag) ∧
    (realOf b ≠ 0 → ¬ InRange (realOf a / realOf b) →
      divF t a b = packF64 (decide (realOf a / realOf b < 0)) infMag)) ∧
  ∀ (t : Site) (a b : F64),
    let inf : Bool → F64 := fun neg => if neg then 0xFFF0000000000000 else 0x7FF0000000000000
    let zero : Bool → F64 := fun neg => if neg then 0x8000000000000000 else 0
    let sign := signBit a != signBit b
    (isInf a = true → isInf b = true → signBit a = signBit b → addF t a b = inf (signBit a)) ∧
    (isInf a = true → isFinite b = true → addF t a b = inf (signBit a) ∧ subF t a b = inf (signBit a)) ∧
    (isFinite a = true → isInf b = true → addF t a b = inf (signBit b) ∧ subF t a b = inf (!signBit b)) ∧
    (isInf a = true → isInf b = true → signBit a ≠ signBit b → subF t a b = inf (signBit a)) ∧
    (isInf a = true → isInf b = true → mulF t a b = inf sign) ∧
    (isInf a = true → isFinite b = true → realOf b ≠ 0 → mulF t a b = inf sign) ∧
    (isFinite a = true → realOf a ≠ 0 → isInf b = true → mulF t a b = inf sign) ∧
    (isInf a = true → isFinite b = true → divF t a b = inf sign) ∧
    (isFinite a = true → isInf b = true → divF t a b = zero sign) ∧
    (isFinite a = true → realOf a ≠ 0 → isFinite b = true → realOf b = 0 → divF t a b = inf sign)

/-- R120. The signs of zero results: x - x = +0, an exact zero sum is +0 unless both operands are -0, an exact zero
difference is +0 unless it is -0 minus +0, and products and quotients have the exclusive or of the operands' signs. -/
def Obligations.SignsOfZero : Prop :=
  ∀ (t : Site) (a b : F64), isFinite a = true → isFinite b = true →
    subF t a a = zeroF ∧
    (realOf a + realOf b = 0 → addF t a b = if a = negZeroF ∧ b = negZeroF then negZeroF else zeroF) ∧
    (realOf a - realOf b = 0 → subF t a b = if a = negZeroF ∧ b = zeroF then negZeroF else zeroF) ∧
    signBit (mulF t a b) = (signBit a != signBit b) ∧
    (realOf b ≠ 0 → signBit (divF t a b) = (signBit a != signBit b))

/-- R120, R121. Exactly which sums, differences, products and quotients are NaN: those of a NaN operand, ∞ - ∞, 0·∞,
0/0 and ∞/∞. -/
def Obligations.NaNResults : Prop :=
  ∀ (t : Site) (a b : F64),
    (isNaN (addF t a b) = true ↔ isNaN a = true ∨ isNaN b = true ∨
      (isInf a = true ∧ isInf b = true ∧ signBit a ≠ signBit b)) ∧
    (isNaN (subF t a b) = true ↔ isNaN a = true ∨ isNaN b = true ∨
      (isInf a = true ∧ isInf b = true ∧ signBit a = signBit b)) ∧
    (isNaN (divF t a b) = true ↔ isNaN a = true ∨ isNaN b = true ∨ (isInf a = true ∧ isInf b = true) ∨
      (isFinite a = true ∧ realOf a = 0 ∧ isFinite b = true ∧ realOf b = 0)) ∧
    (isNaN (mulF t a b) = true ↔ isNaN a = true ∨ isNaN b = true ∨
      (isInf a = true ∧ realOf b = 0 ∧ isFinite b = true) ∨ (isInf b = true ∧ realOf a = 0 ∧ isFinite a = true))

/-- R123, R124, R125, R126, R127. The components of CADD, CSUB, CMUL, CCONJ and CDIVN as the rules write them, the
divisor being the exact binary64 value of d; CADD and CMUL are commutative bit for bit except for NaN bits. -/
def Obligations.ComplexUnitCommutes : Prop :=
  ∀ (t : Site) (p q : C64),
    (∃ u : Nat → Site,
      cadd t p q = ⟨addF (u 0) p.re q.re, addF (u 1) p.im q.im⟩ ∧
      csub t p q = ⟨subF (u 2) p.re q.re, subF (u 3) p.im q.im⟩ ∧
      cmul t p q = ⟨subF (u 4) (mulF (u 5) p.re q.re) (mulF (u 6) p.im q.im),
                    addF (u 7) (mulF (u 8) p.re q.im) (mulF (u 9) p.im q.re)⟩ ∧
      cconj p = ⟨p.re, negF p.im⟩ ∧
      ∀ d : Nat, 1 ≤ d → d ≤ 2 ^ 31 → ∃ f : F64, isFinite f = true ∧ realOf f = d ∧
        cdivn t p d = ⟨divF (u 10) p.re f, divF (u 11) p.im f⟩) ∧
    SameButNaN (cadd t p q).re (cadd t q p).re ∧ SameButNaN (cadd t p q).im (cadd t q p).im ∧
    SameButNaN (cmul t p q).re (cmul t q p).re ∧ SameButNaN (cmul t p q).im (cmul t q p).im

/-! ## 40_datapath.md: the generator -/

/-- R130. The parts of Gen are RNE of the exact cosine and sine, at every angle, and a zero part is +0. -/
def Obligations.GeneratorIsCorrectlyRounded : Prop :=
  ∀ (r D : Nat) (s : Direction), 0 < D →
    IsRNE (Real.cos (2 * Real.pi * ((r % D : ℕ) : ℝ) / D)) (gen r D s).re ∧
    IsRNE (Direction.sign s * Real.sin (2 * Real.pi * ((r % D : ℕ) : ℝ) / D)) (gen r D s).im ∧
    (gen r D s).re ≠ negZeroF ∧ (gen r D s).im ≠ negZeroF

/-- R131. Gen at the angles 0, π/2, π and 3π/2, and the cosines 0.5 and -0.5; the other direction has the same
cosine and the negated sine, and so has the angle D - r, where a zero sine is +0 in both. -/
def Obligations.GeneratorValuesAndSymmetries : Prop :=
  ∀ (r D : Nat) (s : Direction), 0 < D → r < D →
    let one : F64 := 0x3FF0000000000000
    let signedOne : F64 := match s with | .forward => negF one | .inverse => one
    (r = 0 → gen r D s = ⟨one, zeroF⟩) ∧
    (4 * r = D → gen r D s = ⟨zeroF, signedOne⟩) ∧
    (2 * r = D → gen r D s = ⟨negF one, zeroF⟩) ∧
    (4 * r = 3 * D → gen r D s = ⟨zeroF, negF signedOne⟩) ∧
    (6 * r = D → (gen r D s).re = 0x3FE0000000000000) ∧
    (3 * r = D → (gen r D s).re = 0xBFE0000000000000) ∧
    ((gen r D .inverse).re = (gen r D .forward).re ∧
      (gen r D .inverse).im = negNonzero (gen r D .forward).im ∧
      (gen r D .forward).im = negNonzero (gen r D .inverse).im) ∧
    ((gen (D - r) D s).re = (gen r D s).re ∧ (gen (D - r) D s).im = negNonzero (gen r D s).im)

/-- R133. The twiddle ROM's derivation gives rule R132's value bit for bit, for every stage length that divides
LMAX ≥ 4. -/
def Obligations.RomEqualsGenerator : Prop :=
  ∀ (l k j : Nat) (s : Direction), 2 ≤ l → 1 ≤ k → k ≤ l → 2 * j < 2 ^ k →
    romTwiddle (2 ^ l) j (2 ^ k) s = twiddle j (2 ^ k) s

/-! ## 40_datapath.md and 41_transforms.md: the engines -/

/-- R136. Bit k of bitrev_b(i) is bit b-1-k of i; bitrev_b is an involution on 0..2^b - 1. -/
def Obligations.BitReversalOfAnIndex : Prop :=
  ∀ (b i : Nat), i < 2 ^ b →
    (∀ k < b, (bitrev b i).testBit k = i.testBit (b - 1 - k)) ∧ bitrev b i < 2 ^ b ∧
    bitrev b (bitrev b i) = i

/-- R160, with R137 and R138. The complex radix-2 path of the empty sequence is empty; of a sequence of 2^b elements
it is the bit-reversal permutation followed by b stages; stage τ applies the butterfly of length m = 2^(τ+1) to each
pair of each block, the second element multiplied by Gen(j, m, s) where j is not 0, and these pairs are the whole
sequence. -/
def Obligations.RadixTwoSchedule : Prop :=
  (∀ (t : Site) (s : Direction), r2c t [] s = []) ∧
  ∀ (t : Site) (x : List C64) (s : Direction) (b : Nat), x.length = 2 ^ b →
    ∃ a : Nat → List C64, r2c t x s = a b ∧ (∀ τ ≤ b, (a τ).length = 2 ^ b) ∧
      (∀ i < 2 ^ b, (a 0).getD i zeroC = x.getD (bitrev b i) zeroC) ∧
      ∀ τ < b, ∀ g < 2 ^ b / 2 ^ (τ + 1), ∀ j < 2 ^ τ, ∃ u : Nat → Site,
        let top := g * 2 ^ (τ + 1) + j
        let x := (a τ).getD top zeroC
        let y := (a τ).getD (top + 2 ^ τ) zeroC
        let y' := if j = 0 then y else cmul (u 0) (gen j (2 ^ (τ + 1)) s) y
        (a (τ + 1)).getD top zeroC = cadd (u 1) x y' ∧ (a (τ + 1)).getD (top + 2 ^ τ) zeroC = csub (u 2) x y'

/-- R161, R162, R164, R167. The degenerate lengths of the three engines. -/
def Obligations.DegenerateLengths : Prop :=
  ∀ (t : Site) (s : Direction) (z w : C64) (x y : F64),
    r2c t [] s = [] ∧ r2c t [z] s = [z] ∧
    (∃ u v, r2c t [z, w] s = [cadd u z w, csub v z w]) ∧
    r2r t [] s = [] ∧ r2r t [x] s = [⟨x, zeroF⟩] ∧
    (∃ u v, r2r t [x, y] s = [⟨addF u x y, zeroF⟩, ⟨subF v x y, zeroF⟩]) ∧
    bluestein t [] s = [] ∧ bluestein t [z] s = [z]

/-- R153, R163, with R139 and R140. The real radix-2 path of 2^b elements, b ≥ 1: with Z the complex path of the
packing (even samples real, odd samples imaginary), X[0] and X[N/2] are REAL2 of Z[0], and X[k] and X[N-k] are RREC
of Z[k] and Z[N/2-k]; so X[N-k] is the exact conjugate of X[k] for k other than 0 and N/2. -/
def Obligations.RealSpectrumIsConjugate : Prop :=
  ∀ (t : Site) (x : List F64) (s : Direction) (b : Nat), 1 ≤ b → x.length = 2 ^ b →
    let N := 2 ^ b
    let h := N / 2
    let X := r2r t x s
    X.length = N ∧
    (∃ u v w : Site,
      let Z := r2c u ((List.range h).map fun m => ⟨x.getD (2 * m) zeroF, x.getD (2 * m + 1) zeroF⟩) s
      X.getD 0 zeroC = ⟨addF v (Z.getD 0 zeroC).re (Z.getD 0 zeroC).im, zeroF⟩ ∧
      X.getD h zeroC = ⟨subF w (Z.getD 0 zeroC).re (Z.getD 0 zeroC).im, zeroF⟩ ∧
      ∀ k, 1 ≤ k → k < h → ∃ u : Nat → Site,
        let zk := Z.getD k zeroC
        let zc := Z.getD (h - k) zeroC
        let half : F64 := 0x3FE0000000000000
        let er := mulF (u 0) (addF (u 1) zk.re zc.re) half
        let ei := mulF (u 2) (subF (u 3) zk.im zc.im) half
        let odd : C64 := ⟨mulF (u 4) (addF (u 5) zk.im zc.im) half, mulF (u 6) (subF (u 7) zc.re zk.re) half⟩
        let T := cmul (u 8) (gen k N s) odd
        X.getD k zeroC = ⟨addF (u 9) er T.re, addF (u 10) ei T.im⟩ ∧
        X.getD (N - k) zeroC = ⟨addF (u 9) er T.re, negF (addF (u 10) ei T.im)⟩) ∧
    ∀ k, 1 ≤ k → k < N → 2 * k ≠ N → X.getD (N - k) zeroC = cconj (X.getD k zeroC)

/-- R166, R168. The layout of the Bluestein kernel: conj(c[n]) at n, and at P - n for n ≥ 1; (+0, +0) between; so at
the cyclic lag from j to i of a length-P convolution it holds conj(c[|i-j|]), for all i, j below N. -/
def Obligations.BluesteinKernelLayout : Prop :=
  ∀ (c : List C64) (P n : Nat), 1 ≤ c.length → 2 * c.length - 1 ≤ P →
    (n < c.length → (chirpKernel c P).getD n zeroC = cconj (c.getD n zeroC)) ∧
    (1 ≤ n → n < c.length → (chirpKernel c P).getD (P - n) zeroC = cconj (c.getD n zeroC)) ∧
    (c.length ≤ n → n ≤ P - c.length → (chirpKernel c P).getD n zeroC = zeroC) ∧
    ∀ i j, i < c.length → j < c.length →
      (chirpKernel c P).getD ((i + (P - j)) % P) zeroC = cconj (c.getD ((i : Int) - j).natAbs zeroC)

/-- R166, R168, with R134. BLU of N ≥ 2 elements: the chirps c[n] = Gen(n² mod 2N, 2N, s); P = nextpow2(2N-1);
the pre-multiplied input padded to P and the kernel transformed forward by the complex path, multiplied, transformed
back; the first N elements divided by P and only then multiplied by c[k]. -/
def Obligations.BluesteinSchedule : Prop :=
  ∀ (t : Site) (x : List C64) (s : Direction), 2 ≤ x.length →
    let N := x.length
    let P := nextPow2 (2 * N - 1)
    let c := (List.range N).map fun n => gen (n * n % (2 * N)) (2 * N) s
    ∃ (u v w : Site) (a Q d : List C64),
      IsProduct x c a ∧
      IsProduct (r2c u (a ++ List.replicate (P - N) zeroC) .forward) (r2c v (chirpKernel c P) .forward) Q ∧
      Q.length = P ∧ IsQuotient (r2c w Q .inverse) d N P ∧ IsProduct c d (bluestein t x s)

/-- R169, R170. The dispatcher: RADIX2 is R2R of a real sequence and R2C of a complex one; BLUESTEIN is BLU, of a
real sequence after promotion; AUTO is the radix-2 engine at powers of two and 0 and the Bluestein engine at every
other length; at lengths 0 and 1 the two engines agree. The output of AUTO is as long as the input. -/
def Obligations.DispatcherRule : Prop :=
  ∀ (t : Site) (x : Operand) (s : Direction),
    xform t x s .radix2 = (match x with | .real xs => r2r t xs s | .complex zs => r2c t zs s) ∧
    xform t x s .bluestein =
      (match x with | .real xs => bluestein t (xs.map promote) s | .complex zs => bluestein t zs s) ∧
    ((x.length = 0 ∨ ∃ k, x.length = 2 ^ k) → xform t x s .auto = xform t x s .radix2) ∧
    ((x.length ≠ 0 ∧ ∀ k, x.length ≠ 2 ^ k) → xform t x s .auto = xform t x s .bluestein) ∧
    (x.length ≤ 1 → xform t x s .radix2 = xform t x s .bluestein) ∧
    (xform t x s .auto).length = x.length

/-- R173's example, the source's §8.9 scenario, and R151 at it: FFT of the real sequence [0, 1, 2, 3] is
[(6,+0), (-2,2), (-2,+0), (-2,-2)], within the accuracy contract of the reference DFT. -/
def Obligations.ScenarioMeetsContract : Prop :=
  let x : List F64 := [0x0000000000000000, 0x3FF0000000000000, 0x4000000000000000, 0x4008000000000000]
  let y : List C64 := [⟨0x4018000000000000, 0x0000000000000000⟩, ⟨0xC000000000000000, 0x4000000000000000⟩,
    ⟨0xC000000000000000, 0x0000000000000000⟩, ⟨0xC000000000000000, 0xC000000000000000⟩]
  ∀ t, xform t (.real x) .forward .auto = y ∧ MeetsContract .forward (x.map promote) y

/-! ## 41_transforms.md and 42_convolution.md: the commands complete -/

/-- R172, R173, R174, R175, R28. FFT, FFT.R2 and FFT.BL complete, with XFORM of operand A with s = -1 in region D and
OUT_LEN = N. -/
def Obligations.ForwardTransformsComplete : Prop :=
  ∀ (fa : Fmt) (s : State), s.mem.wf = true → s.raced = false →
    (Runnable (.fft fa) s → CompletesWith (.fft fa) s s.lenA
      (.complex (xform [s.draws] (operandA (.fft fa) s) .forward .auto))) ∧
    (Runnable (.fftR2 fa) s → CompletesWith (.fftR2 fa) s s.lenA
      (.complex (xform [s.draws] (operandA (.fftR2 fa) s) .forward .radix2))) ∧
    (Runnable (.fftBl fa) s → CompletesWith (.fftBl fa) s s.lenA
      (.complex (xform [s.draws] (operandA (.fftBl fa) s) .forward .bluestein)))

/-- R172, R171, R177, R178, R179. IFFT, IFFT.R2 and IFFT.BL complete, with XFORM of operand A with s = +1 in region
D, its imaginary parts replaced by +0 when HERM = 1, and OUT_LEN = N. -/
def Obligations.InverseTransformsComplete : Prop :=
  ∀ (fa : Fmt) (herm : Bool) (s : State), s.mem.wf = true → s.raced = false →
    let result := fun y : List C64 => Operand.complex (if herm then y.map fun z => ⟨z.re, zeroF⟩ else y)
    (Runnable (.ifft fa herm) s → CompletesWith (.ifft fa herm) s s.lenA
      (result (xform [s.draws] (operandA (.ifft fa herm) s) .inverse .auto))) ∧
    (Runnable (.ifftR2 fa herm) s → CompletesWith (.ifftR2 fa herm) s s.lenA
      (result (xform [s.draws] (operandA (.ifftR2 fa herm) s) .inverse .radix2))) ∧
    (Runnable (.ifftBl fa herm) s → CompletesWith (.ifftBl fa herm) s s.lenA
      (result (xform [s.draws] (operandA (.ifftBl fa herm) s) .inverse .bluestein)))

/-- R200, R201, R202, R203, R205, R208, R28. CONV, CCONV and NCONV complete, with OUT_LEN elements in region D, as real
parts exactly when both operands are real. CONV: both operands padded to L = nextpow2(N+M-1), transformed forward,
multiplied, transformed back, the first N+M-1 elements divided by L; nothing where N or M is 0. CCONV: CC of the
operands. NCONV: CC of the operands twisted by Gen(n, 2N, +1), multiplied by the conjugates of the twists. -/
def Obligations.ConvolutionsComplete : Prop :=
  ∀ (fa fb : Fmt) (s : State), s.mem.wf = true → s.raced = false →
    let out := fun r : List C64 =>
      if fa = .real ∧ fb = .real then Operand.real (r.map fun z => z.re) else Operand.complex r
    let pad := fun (x : Operand) (l : Nat) => match x with
      | .real xs => Operand.real (xs ++ List.replicate (l - xs.length) zeroF)
      | .complex zs => Operand.complex (zs ++ List.replicate (l - zs.length) zeroC)
    let N := s.lenN
    let M := s.lenM
    (Runnable (.conv fa fb) s →
      let a := operandA (.conv fa fb) s
      let b := operandB (.conv fa fb) s
      let L := nextPow2 (N + M - 1)
      ((N = 0 ∨ M = 0) → CompletesWith (.conv fa fb) s 0 (out [])) ∧
      (N ≠ 0 → M ≠ 0 → a.length = N ∧ b.length = M ∧
        ∃ (u v w : Site) (Q r : List C64), CompletesWith (.conv fa fb) s (BitVec.ofNat 32 (N + M - 1)) (out r) ∧
          IsProduct (xform u (pad a L) .forward .auto) (xform v (pad b L) .forward .auto) Q ∧
          IsQuotient (xform w (.complex Q) .inverse .auto) r (N + M - 1) L)) ∧
    (Runnable (.cconv fa fb) s →
      let a := operandA (.cconv fa fb) s
      let b := operandB (.cconv fa fb) s
      a.length = N ∧ b.length = N ∧
        ∃ r, CompletesWith (.cconv fa fb) s s.lenA (out r) ∧ IsCircular a b r) ∧
    (Runnable (.nconv fa fb) s →
      let a := operandA (.nconv fa fb) s
      let b := operandB (.nconv fa fb) s
      let psi := (List.range N).map fun n => gen n (2 * N) .inverse
      a.length = N ∧ b.length = N ∧
        ∃ ta tb c r, CompletesWith (.nconv fa fb) s s.lenA (out r) ∧
          IsProduct a.toComplex psi ta ∧ IsProduct b.toComplex psi tb ∧
          IsCircular (.complex ta) (.complex tb) c ∧ IsProduct c (psi.map cconj) r)

/-- R67, R203. Zero-length operands: a command whose N is 0 (for CONV, N or M), whatever the addresses, passes the
start checks and completes with OUT_LEN = 0 and memory unchanged. -/
def Obligations.EmptyOperandsComplete : Prop :=
  ∀ (i : Instr) (s : State),
    (s.lenN = 0 ∧ (i.needsEqualLengths = true → s.lenM = 0) ∨ ∃ fa fb, i = .conv fa fb ∧ s.lenM = 0) →
    startCheck i s = none ∧
    ∃ t, exec i s = .next t ∧ t.seq = .done ∧ t.outLen = 0 ∧ readReg t 0x024 = 0 ∧ t.irqStat = s.irqStat ||| 1 ∧
      t.mem = s.mem

end Statements
end

