-- ==== Sys2Proof/Laws/Decode.lean ====
section
/-!
SUPPORT. The laws of the command word's fields (Decode.lean): cutting a word into fields and putting fields
together are inverse, and no row of the opcode map selects a word with a reserved bit set.
-/

namespace Sys2Proof

/-- The fields of the word made of given fields are those fields. -/
@[simp] theorem fieldsOf_word (f : CmdFields) : fieldsOf f.word = f := by
  obtain ⟨op, eng, fa, fb, herm, res⟩ := f
  simp only [fieldsOf, CmdFields.word, CmdFields.mk.injEq]
  refine ⟨?_, ?_, ?_, ?_, ?_, ?_⟩
  · apply BitVec.eq_of_getLsbD_eq; intro i hi
    simp only [BitVec.getLsbD_extractLsb', BitVec.getLsbD_append]
    have : i < 4 := hi
    interval_cases i <;> simp
  · apply BitVec.eq_of_getLsbD_eq; intro i hi
    simp only [BitVec.getLsbD_extractLsb', BitVec.getLsbD_append]
    have : i < 2 := hi
    interval_cases i <;> simp
  · simp only [BitVec.getLsbD_append]; simp
  · simp only [BitVec.getLsbD_append]; simp
  · simp only [BitVec.getLsbD_append]; simp
  · apply BitVec.eq_of_getLsbD_eq; intro i hi
    simp only [BitVec.getLsbD_extractLsb', BitVec.getLsbD_append]
    have : i < 23 := hi
    interval_cases i <;> simp

/-- The word made of a word's fields is that word. -/
@[simp] theorem word_fieldsOf (w : Word) : (fieldsOf w).word = w := by
  apply BitVec.eq_of_getLsbD_eq
  intro i hi
  simp only [fieldsOf, CmdFields.word, BitVec.getLsbD_append, BitVec.getLsbD_extractLsb', BitVec.getLsbD_ofBool]
  have : i < 32 := hi
  interval_cases i <;> simp

/-- Fields are read off their word, so equal words have equal fields. -/
theorem word_injective {f g : CmdFields} (h : f.word = g.word) : f = g := by
  rw [← fieldsOf_word f, h, fieldsOf_word]

/-- Every row of the opcode map fixes bits 31:9 at 0 (30_encoding.md R95). -/
theorem selects_reserved {w : Word} {r : OpcodeRow} (hr : r ∈ opcodeRows) (h : r.selects w = true) :
    (fieldsOf w).res0 = 0 := by
  have hw : w &&& r.mask = r.value := by simpa [OpcodeRow.selects] using h
  have hm : r.mask.extractLsb' 9 23 = BitVec.allOnes 23 ∧ r.value.extractLsb' 9 23 = 0 := by
    simp only [opcodeRows, List.mem_cons, List.not_mem_nil, or_false] at hr
    rcases hr with rfl | rfl | rfl | rfl | rfl | rfl | rfl | rfl | rfl <;> decide
  have := congrArg (BitVec.extractLsb' 9 23) hw
  rw [BitVec.extractLsb'_and, hm.1, hm.2, BitVec.and_allOnes] at this
  exact this

end Sys2Proof
end

