-- ==== Sys2Proof/Laws/Rounding.lean ====
section
/-!
SUPPORT. The laws of binary64 encodings and of rounding (Machine/Float64.lean): the magnitude an encoding
stands for rises with the encoding, and `roundMag` gives the nearest encoding, the even one at a tie.
-/

namespace Sys2Proof.Machine

/-! ## Rounding an integer quotient -/

/-- `rneDiv` is within half a divisor of the dividend, and even at exactly half. -/
theorem rneDiv_spec (n d : Nat) (hd : 0 < d) :
    2 * |(rneDiv n d : ℤ) * d - n| ≤ d ∧ (2 * |(rneDiv n d : ℤ) * d - n| = d → rneDiv n d % 2 = 0) := by
  have hdm : d * (n / d) + n % d = n := Nat.div_add_mod n d
  have hr : n % d < d := Nat.mod_lt _ hd
  have key : ∀ q : Nat, ((q : ℤ) * d - n) = (d : ℤ) * ((q : ℤ) - (n / d : ℕ)) - (n % d : ℕ) := by
    intro q
    have : (n : ℤ) = (d : ℤ) * ((n / d : ℕ) : ℤ) + ((n % d : ℕ) : ℤ) := by exact_mod_cast hdm.symm
    rw [this]; ring
  have down : (((n / d : ℕ) : ℤ) * d - n) = -((n % d : ℕ) : ℤ) := by rw [key]; ring
  have up : (((n / d + 1 : ℕ) : ℤ) * d - n) = (d : ℤ) - ((n % d : ℕ) : ℤ) := by
    rw [key]; push_cast; ring
  have adown : |(((n / d : ℕ) : ℤ) * d - n)| = ((n % d : ℕ) : ℤ) := by
    rw [down, abs_neg, abs_of_nonneg (by positivity)]
  have aup : |(((n / d + 1 : ℕ) : ℤ) * d - n)| = (d : ℤ) - ((n % d : ℕ) : ℤ) := by
    rw [up, abs_of_nonneg (by omega)]
  unfold rneDiv
  simp only
  split_ifs with h1 h2
  · rw [adown]; omega
  · rw [aup]; omega
  · rcases Nat.mod_two_eq_zero_or_one (n / d) with h | h
    · rw [h, Nat.add_zero, adown]; omega
    · rw [h, aup]; omega

/-- No multiple of the divisor is nearer to the dividend than `rneDiv` of it. -/
theorem rneDiv_nearest (n d k : Nat) (hd : 0 < d) :
    |(rneDiv n d : ℤ) * d - n| ≤ |(k : ℤ) * d - n| := by
  have h := (rneDiv_spec n d hd).1
  by_cases he : rneDiv n d = k
  · rw [he]
  · have h3 : (d : ℤ) ≤ |((rneDiv n d : ℤ) - k) * d| := by
      rw [abs_mul, abs_of_nonneg (by positivity : (0 : ℤ) ≤ d)]
      have : 1 ≤ |(rneDiv n d : ℤ) - k| := Int.one_le_abs (by omega)
      nlinarith
    have h4 := abs_sub_abs_le_abs_sub (((rneDiv n d : ℤ) - k) * d) ((rneDiv n d : ℤ) * d - n)
    rw [show ((rneDiv n d : ℤ) - k) * d - ((rneDiv n d : ℤ) * d - n) = -((k : ℤ) * d - n) by ring,
      abs_neg] at h4
    omega

/-- Where another multiple is as near, `rneDiv` is even. -/
theorem rneDiv_tie (n d k : Nat) (hd : 0 < d) (hk : k ≠ rneDiv n d)
    (he : |(k : ℤ) * d - n| = |(rneDiv n d : ℤ) * d - n|) : rneDiv n d % 2 = 0 := by
  obtain ⟨h, ht⟩ := rneDiv_spec n d hd
  apply ht
  have h3 : (d : ℤ) ≤ |((rneDiv n d : ℤ) - k) * d| := by
    rw [abs_mul, abs_of_nonneg (by positivity : (0 : ℤ) ≤ d)]
    have : 1 ≤ |(rneDiv n d : ℤ) - k| := Int.one_le_abs (by omega)
    nlinarith
  have h4 := abs_sub_abs_le_abs_sub (((rneDiv n d : ℤ) - k) * d) ((rneDiv n d : ℤ) * d - n)
  rw [show ((rneDiv n d : ℤ) - k) * d - ((rneDiv n d : ℤ) * d - n) = -((k : ℤ) * d - n) by ring,
    abs_neg] at h4
  omega

/-- The bounds of the dividend's quotient hold of `rneDiv`. -/
theorem le_rneDiv {n d k : Nat} (h : k ≤ n / d) : k ≤ rneDiv n d := by
  unfold rneDiv; simp only; split_ifs <;> omega

theorem rneDiv_le {n d k : Nat} (h : n / d < k) : rneDiv n d ≤ k := by
  unfold rneDiv; simp only; split_ifs <;> omega

/-! ## Encodings and magnitudes -/

/-- The next encoding stands for a larger magnitude. -/
theorem unitsOfMag_lt_succ (m : Nat) : unitsOfMag m < unitsOfMag (m + 1) := by
  unfold unitsOfMag
  rcases Nat.lt_or_ge (m % 2 ^ 52 + 1) (2 ^ 52) with h | h
  · have e1 : (m + 1) / 2 ^ 52 = m / 2 ^ 52 := by omega
    have e2 : (m + 1) % 2 ^ 52 = m % 2 ^ 52 + 1 := by omega
    rw [e1, e2]
    split_ifs with h0
    · omega
    · exact Nat.mul_lt_mul_of_pos_right (by omega) (by positivity)
  · have e1 : (m + 1) / 2 ^ 52 = m / 2 ^ 52 + 1 := by omega
    have e2 : (m + 1) % 2 ^ 52 = 0 := by omega
    rw [e1, e2, if_neg (by omega : ¬ m / 2 ^ 52 + 1 = 0)]
    split_ifs with h0
    · rw [h0]; simp only [Nat.zero_add, Nat.sub_self, pow_zero]; omega
    · obtain ⟨e, he⟩ : ∃ e, m / 2 ^ 52 = e + 1 := ⟨m / 2 ^ 52 - 1, by omega⟩
      rw [he]
      simp only [Nat.add_sub_cancel, pow_succ 2 e]
      have hp : 0 < 2 ^ e := by positivity
      have hb : m % 2 ^ 52 < 2 ^ 52 := Nat.mod_lt _ (by norm_num)
      generalize m % 2 ^ 52 = f at *
      generalize 2 ^ e = p at *
      nlinarith

/-- The magnitude rises strictly with the encoding. -/
theorem unitsOfMag_strictMono : StrictMono unitsOfMag := strictMono_nat_of_lt_succ unitsOfMag_lt_succ

theorem unitsOfMag_injective : Function.Injective unitsOfMag := unitsOfMag_strictMono.injective

@[simp] theorem unitsOfMag_zero : unitsOfMag 0 = 0 := by simp [unitsOfMag]

theorem unitsOfMag_eq_zero {m : Nat} : unitsOfMag m = 0 ↔ m = 0 := by
  constructor
  · intro h; exact unitsOfMag_injective (by rw [h, unitsOfMag_zero])
  · rintro rfl; exact unitsOfMag_zero

/-- The encoding with exponent step `sh` and significand q stands for q·2^sh units; q may be 2^53, the carry
into the next exponent. -/
theorem unitsOfMag_step (sh q : Nat) (hq : q ≤ 2 ^ 53) (h : sh = 0 ∨ 2 ^ 52 ≤ q) :
    unitsOfMag (sh * 2 ^ 52 + q) = q * 2 ^ sh := by
  unfold unitsOfMag
  rcases Nat.lt_or_ge q (2 ^ 52) with h1 | h1
  · have hs : sh = 0 := by omega
    subst hs
    rw [if_pos (by omega)]; omega
  · rcases Nat.lt_or_ge q (2 ^ 53) with h2 | h2
    · have e1 : (sh * 2 ^ 52 + q) / 2 ^ 52 = sh + 1 := by omega
      have e2 : (sh * 2 ^ 52 + q) % 2 ^ 52 = q - 2 ^ 52 := by omega
      rw [e1, e2, if_neg (by omega), Nat.add_sub_cancel, Nat.add_sub_cancel' h1]
    · have hq' : q = 2 ^ 53 := by omega
      subst hq'
      have e1 : (sh * 2 ^ 52 + 2 ^ 53) / 2 ^ 52 = sh + 2 := by omega
      have e2 : (sh * 2 ^ 52 + 2 ^ 53) % 2 ^ 52 = 0 := by omega
      rw [e1, e2, if_neg (by omega), show sh + 2 - 1 = sh + 1 by omega, pow_succ 2 sh]
      ring

/-- Every magnitude at or above 2^(52+sh) units is a multiple of 2^sh units. -/
theorem unitsOfMag_dvd (sh m : Nat) (h : (sh + 1) * 2 ^ 52 ≤ m ∨ sh = 0) : 2 ^ sh ∣ unitsOfMag m := by
  rcases h with h | rfl
  · unfold unitsOfMag
    have he : sh + 1 ≤ m / 2 ^ 52 := by rw [Nat.le_div_iff_mul_le (by norm_num)]; exact h
    rw [if_neg (by omega)]
    exact Dvd.dvd.mul_left (pow_dvd_pow 2 (by omega)) _
  · simp

/-! ## Rounding a magnitude -/

/-- The exponent step of a rounding, and the significand before rounding: below 2^53, and at least 2^52 where
the step is not the lowest. -/
theorem roundMag_step (n d : Nat) :
    n / (d * 2 ^ ((n / d).log2 - 52)) < 2 ^ 53 ∧
      ((n / d).log2 - 52 = 0 ∨ 2 ^ 52 ≤ n / (d * 2 ^ ((n / d).log2 - 52))) := by
  rw [← Nat.div_div_eq_div_mul]
  have hlt : n / d < 2 ^ ((n / d).log2 + 1) := Nat.lt_log2_self
  rcases Nat.lt_or_ge ((n / d).log2) 53 with h | h
  · have h0 : (n / d).log2 - 52 = 0 := by omega
    rw [h0, pow_zero, Nat.div_one]
    exact ⟨lt_of_lt_of_le hlt (Nat.pow_le_pow_right (by norm_num) (by omega)), .inl rfl⟩
  · have hne : n / d ≠ 0 := by intro h0; rw [h0] at h; simp at h
    have hle : 2 ^ (n / d).log2 ≤ n / d := Nat.log2_self_le hne
    obtain ⟨k, hk⟩ : ∃ k, (n / d).log2 = 52 + k := ⟨(n / d).log2 - 52, by omega⟩
    rw [hk] at hlt hle ⊢
    rw [Nat.add_sub_cancel_left]
    refine ⟨?_, .inr ?_⟩
    · rw [Nat.div_lt_iff_lt_mul (by positivity), ← pow_add]
      rwa [show 53 + k = 52 + k + 1 by omega]
    · rw [Nat.le_div_iff_mul_le (by positivity), ← pow_add]
      exact hle

/-- The magnitude a rounding below ∞ stands for. -/
theorem unitsOfMag_roundMag {n d : Nat} (h : roundMag n d < infMag) :
    roundMag n d = ((n / d).log2 - 52) * 2 ^ 52 + rneDiv n (d * 2 ^ ((n / d).log2 - 52)) ∧
    unitsOfMag (roundMag n d) =
      rneDiv n (d * 2 ^ ((n / d).log2 - 52)) * 2 ^ ((n / d).log2 - 52) := by
  have hm : roundMag n d =
      ((n / d).log2 - 52) * 2 ^ 52 + rneDiv n (d * 2 ^ ((n / d).log2 - 52)) := by
    unfold roundMag at h ⊢
    simp only at h ⊢
    omega
  refine ⟨hm, ?_⟩
  rw [hm]
  obtain ⟨h1, h2⟩ := roundMag_step n d
  refine unitsOfMag_step _ _ (rneDiv_le h1) ?_
  rcases h2 with h2 | h2
  · exact .inl h2
  · exact .inr (le_rneDiv h2)

/-- No encoding is nearer to n/d than `roundMag`, and an as near one makes it even (00_scope.md R10). -/
theorem roundMag_spec {n d : Nat} (hd : 0 < d) (h : roundMag n d < infMag) (m : Nat) :
    |(unitsOfMag (roundMag n d) : ℤ) * d - n| ≤ |(unitsOfMag m : ℤ) * d - n| ∧
    (unitsOfMag m ≠ unitsOfMag (roundMag n d) →
      |(unitsOfMag m : ℤ) * d - n| = |(unitsOfMag (roundMag n d) : ℤ) * d - n| →
      roundMag n d % 2 = 0) := by
  obtain ⟨hm, hu⟩ := unitsOfMag_roundMag h
  obtain ⟨-, h2⟩ := roundMag_step n d
  generalize hsh : (n / d).log2 - 52 = sh at *
  have hD : 0 < d * 2 ^ sh := by positivity
  have grid : ∀ k : Nat, ((k * 2 ^ sh : ℕ) : ℤ) * d - n = (k : ℤ) * (d * 2 ^ sh : ℕ) - n := by
    intro k; push_cast; ring
  rw [hu, grid]
  by_cases hmul : (sh + 1) * 2 ^ 52 ≤ m ∨ sh = 0
  · obtain ⟨k, hk⟩ := unitsOfMag_dvd sh m hmul
    rw [hk, Nat.mul_comm (2 ^ sh) k, grid]
    refine ⟨rneDiv_nearest n _ k hD, fun hne he => ?_⟩
    have := rneDiv_tie n _ k hD (fun hc => hne (by rw [hc])) he
    rw [hm]; omega
  · have hlt : m < (sh + 1) * 2 ^ 52 := by omega
    have hsh0 : sh ≠ 0 := by omega
    have hw : unitsOfMag m < 2 ^ 52 * 2 ^ sh := by
      have := unitsOfMag_strictMono hlt
      rwa [show (sh + 1) * 2 ^ 52 = sh * 2 ^ 52 + 2 ^ 52 by ring,
        unitsOfMag_step sh (2 ^ 52) (by norm_num) (.inr le_rfl)] at this
    have hx : 2 ^ 52 * (d * 2 ^ sh) ≤ n := by
      have := h2.resolve_left hsh0
      rwa [Nat.le_div_iff_mul_le hD] at this
    have hn := rneDiv_nearest n _ (2 ^ 52) hD
    have hlow : |((2 ^ 52 : ℕ) : ℤ) * (d * 2 ^ sh : ℕ) - n| = (n : ℤ) - ((2 ^ 52 * (d * 2 ^ sh) : ℕ) : ℤ) := by
      rw [abs_of_nonpos (by have : ((2 ^ 52 * (d * 2 ^ sh) : ℕ) : ℤ) ≤ n := by exact_mod_cast hx
                            push_cast at this ⊢; linarith)]
      push_cast; ring
    have hwd : unitsOfMag m * d < 2 ^ 52 * (d * 2 ^ sh) := by
      calc unitsOfMag m * d < 2 ^ 52 * 2 ^ sh * d := Nat.mul_lt_mul_of_pos_right hw hd
        _ = 2 ^ 52 * (d * 2 ^ sh) := by ring
    have hfar : |(unitsOfMag m : ℤ) * d - n| = (n : ℤ) - ((unitsOfMag m * d : ℕ) : ℤ) := by
      rw [abs_of_nonpos (by have : ((unitsOfMag m * d : ℕ) : ℤ) ≤ n := by exact_mod_cast (hwd.le.trans hx)
                            push_cast at this ⊢; linarith)]
      push_cast; ring
    rw [hlow] at hn
    rw [hfar]
    have : ((unitsOfMag m * d : ℕ) : ℤ) < ((2 ^ 52 * (d * 2 ^ sh) : ℕ) : ℤ) := by exact_mod_cast hwd
    exact ⟨by linarith, fun _ he => by linarith⟩

/-- A rounding is finite exactly below the midpoint above the largest finite magnitude. -/
theorem roundMag_lt_inf {n d : Nat} (hd : 0 < d) :
    roundMag n d < infMag ↔ 2 * n < d * ((2 ^ 54 - 1) * 2 ^ 2045) := by
  obtain ⟨h1, h2⟩ := roundMag_step n d
  have hD := Nat.div_div_eq_div_mul n d
  have hm : roundMag n d < infMag ↔
      ((n / d).log2 - 52) * 2 ^ 52 + rneDiv n (d * 2 ^ ((n / d).log2 - 52)) < infMag := by
    unfold roundMag; simp only; omega
  rw [hm]
  generalize (n / d).log2 - 52 = sh at *
  have hpos : 0 < d * 2 ^ sh := by positivity
  have hinf : infMag = 2047 * 2 ^ 52 := rfl
  have hup := rneDiv_le h1
  rcases Nat.lt_trichotomy sh 2045 with hs | hs | hs
  · refine iff_of_true (by omega) ?_
    have e1 : n < 2 ^ 53 * (d * 2 ^ sh) := (Nat.div_lt_iff_lt_mul hpos).mp h1
    obtain ⟨p, e2, e3⟩ : ∃ p, 2 ^ sh ≤ p ∧ 2 ^ 2045 = 2 * p :=
      ⟨2 ^ (2045 - 1), Nat.pow_le_pow_right (by norm_num) (by omega), by rw [← Nat.pow_succ']⟩
    rw [e3]
    have e4 : d * 2 ^ sh ≤ d * p := Nat.mul_le_mul_left _ e2
    generalize d * 2 ^ sh = t at *
    rw [show d * ((2 ^ 54 - 1) * (2 * p)) = (2 ^ 54 - 1) * 2 * (d * p) by ring]
    generalize d * p = u at *
    omega
  · subst hs
    have hne : rneDiv n (d * 2 ^ 2045) < 2 ^ 53 ↔ 2 * n < (2 ^ 54 - 1) * (d * 2 ^ 2045) := by
      generalize hT : d * 2 ^ 2045 = T at *
      have hdm : T * (n / T) + n % T = n := Nat.div_add_mod n T
      have hr : n % T < T := Nat.mod_lt _ hpos
      unfold rneDiv
      simp only
      rcases Nat.lt_or_ge (n / T) (2 ^ 53 - 1) with hq | hq
      · have h5 : T * (n / T) ≤ T * (2 ^ 53 - 2) := Nat.mul_le_mul_left _ (by omega)
        refine iff_of_true (by split_ifs <;> omega) (by omega)
      · have hq' : n / T = 2 ^ 53 - 1 := by omega
        rw [hq'] at hdm ⊢
        split_ifs with c1 c2 <;> omega
    rw [show d * ((2 ^ 54 - 1) * 2 ^ 2045) = (2 ^ 54 - 1) * (d * 2 ^ 2045) by ring, ← hne, hinf]
    omega
  · have hq := h2.resolve_left (by omega)
    have hlow := le_rneDiv hq
    refine iff_of_false (by omega) ?_
    have e1 : 2 ^ 52 * (d * 2 ^ sh) ≤ n := (Nat.le_div_iff_mul_le hpos).mp hq
    have e2 : 2 ^ 2046 ≤ 2 ^ sh := Nat.pow_le_pow_right (by norm_num) (by omega)
    have e3 : 2 ^ 2046 = 2 * 2 ^ 2045 := by rw [pow_succ 2 2045, Nat.mul_comm]
    rw [e3] at e2
    generalize 2 ^ 2045 = p at *
    have e4 : d * (2 * p) ≤ d * 2 ^ sh := Nat.mul_le_mul_left _ e2
    generalize d * 2 ^ sh = t at *
    rw [show d * (2 * p) = 2 * (d * p) by ring] at e4
    rw [show d * ((2 ^ 54 - 1) * p) = (2 ^ 54 - 1) * (d * p) by ring]
    generalize d * p = u at *
    omega

end Sys2Proof.Machine
end

