-- ==== Sys2Proof/Laws/Float64.lean ====
section
/-!
SUPPORT. The laws of binary64 values (Machine/Float64.lean): what a packed value reads as, its real value, and
when a packed rounding is RNE of a real number.
-/

namespace Sys2Proof.Machine

/-! ## Encodings -/

theorem infMag_lt : infMag < 2 ^ 63 := by norm_num [infMag]

theorem packF64_toNat {neg : Bool} {mag : Nat} (h : mag < 2 ^ 63) :
    (packF64 neg mag).toNat = (if neg then 2 ^ 63 else 0) + mag := by
  rw [packF64, BitVec.toNat_ofNat]
  refine Nat.mod_eq_of_lt ?_
  split_ifs <;> omega

@[simp] theorem signBit_packF64 {neg : Bool} {mag : Nat} (h : mag < 2 ^ 63) :
    signBit (packF64 neg mag) = neg := by
  rw [signBit, packF64_toNat h]
  cases neg
  · simp only [Bool.false_eq_true, if_false, Nat.zero_add, beq_eq_false_iff_ne]; omega
  · simp only [if_true, beq_iff_eq]; omega

@[simp] theorem magBits_packF64 {neg : Bool} {mag : Nat} (h : mag < 2 ^ 63) :
    magBits (packF64 neg mag) = mag := by
  rw [magBits, packF64_toNat h]
  split_ifs <;> omega

theorem isFinite_packF64 {neg : Bool} {mag : Nat} (h : mag < infMag) : isFinite (packF64 neg mag) = true := by
  rw [isFinite, magBits_packF64 (h.trans infMag_lt)]; simpa using h

/-- Every value is the packing of its sign and magnitude. -/
theorem packF64_self (x : F64) : packF64 (signBit x) (magBits x) = x := by
  apply BitVec.eq_of_toNat_eq
  have hx := x.isLt
  have hm : magBits x < 2 ^ 63 := Nat.mod_lt _ (by norm_num)
  rw [packF64_toNat hm]
  unfold signBit magBits at *
  by_cases h : x.toNat / 2 ^ 63 = 1
  · simp only [h, beq_self_eq_true, if_true]; omega
  · simp only [beq_eq_false_iff_ne.mpr h, Bool.false_eq_true, if_false]; omega

theorem magBits_lt (x : F64) : magBits x < 2 ^ 63 := Nat.mod_lt _ (by norm_num)

/-- Negation flips the sign bit alone (00_scope.md R10). -/
theorem negF_packF64 {neg : Bool} {mag : Nat} (h : mag < 2 ^ 63) : negF (packF64 neg mag) = packF64 (!neg) mag := by
  have hsum : packF64 (!neg) mag = packF64 neg mag + 0x8000000000000000#64 := by
    apply BitVec.eq_of_toNat_eq
    rw [BitVec.toNat_add, packF64_toNat h, packF64_toNat h]
    cases neg <;> simp <;> omega
  rw [hsum, negF]
  generalize packF64 neg mag = x
  apply BitVec.eq_of_getLsbD_eq
  intro i hi
  rw [BitVec.getLsbD_xor]
  have hadd : x + 0x8000000000000000#64 = x ^^^ 0x8000000000000000#64 := by
    apply BitVec.eq_of_toNat_eq
    rw [BitVec.toNat_add, BitVec.toNat_xor]
    have hx := x.isLt
    rcases Nat.lt_or_ge x.toNat (2 ^ 63) with hlt | hge
    · have e := Nat.two_pow_add_eq_or_of_lt (i := 63) hlt 1
      have e2 : x.toNat ^^^ 2 ^ 63 = 2 ^ 63 + x.toNat := by
        apply Nat.eq_of_testBit_eq
        intro j
        rw [Nat.testBit_xor, Nat.testBit_two_pow]
        rcases Nat.lt_trichotomy j 63 with hj | hj | hj
        · rw [Nat.testBit_two_pow_add_gt hj]; simp [Nat.ne_of_gt hj]
        · subst hj; rw [Nat.testBit_two_pow_add_eq]; simp
        · have h1 : x.toNat.testBit j = false :=
            Nat.testBit_lt_two_pow (hlt.trans (Nat.pow_lt_pow_right (by norm_num) hj))
          have h2 : (2 ^ 63 + x.toNat).testBit j = false :=
            Nat.testBit_lt_two_pow (lt_of_lt_of_le (by omega : _ < 2 ^ 64) (Nat.pow_le_pow_right (by norm_num) hj))
          rw [h1, h2]; simp [Nat.ne_of_lt hj]
      have hc : (0x8000000000000000#64 : BitVec 64).toNat = 2 ^ 63 := rfl
      rw [hc, e2]
      omega
    · obtain ⟨y, hy, hylt⟩ : ∃ y, x.toNat = 2 ^ 63 + y ∧ y < 2 ^ 63 := ⟨x.toNat - 2 ^ 63, by omega, by omega⟩
      have hc : (0x8000000000000000#64 : BitVec 64).toNat = 2 ^ 63 := rfl
      rw [hc, hy]
      have e2 : (2 ^ 63 + y) ^^^ 2 ^ 63 = y := by
        apply Nat.eq_of_testBit_eq
        intro j
        rw [Nat.testBit_xor, Nat.testBit_two_pow]
        rcases Nat.lt_trichotomy j 63 with hj | hj | hj
        · rw [Nat.testBit_two_pow_add_gt hj]; simp [Nat.ne_of_gt hj]
        · subst hj; rw [Nat.testBit_two_pow_add_eq, Nat.testBit_lt_two_pow hylt]; simp
        · have h1 : y.testBit j = false :=
            Nat.testBit_lt_two_pow (hylt.trans (Nat.pow_lt_pow_right (by norm_num) hj))
          have h2 : (2 ^ 63 + y).testBit j = false :=
            Nat.testBit_lt_two_pow (lt_of_lt_of_le (by omega : _ < 2 ^ 64) (Nat.pow_le_pow_right (by norm_num) hj))
          rw [h1, h2]; simp [Nat.ne_of_lt hj]
      rw [e2]
      omega
  rw [hadd, BitVec.getLsbD_xor]

@[simp] theorem signBit_negF (x : F64) : signBit (negF x) = !signBit x := by
  conv_lhs => rw [← packF64_self x, negF_packF64 (magBits_lt x), signBit_packF64 (magBits_lt x)]

@[simp] theorem magBits_negF (x : F64) : magBits (negF x) = magBits x := by
  conv_lhs => rw [← packF64_self x, negF_packF64 (magBits_lt x), magBits_packF64 (magBits_lt x)]

@[simp] theorem negF_negF (x : F64) : negF (negF x) = x := by
  rw [negF, negF, BitVec.xor_assoc, BitVec.xor_self, BitVec.xor_zero]

@[simp] theorem isFinite_negF (x : F64) : isFinite (negF x) = isFinite x := by simp [isFinite]

@[simp] theorem isNaN_negF (x : F64) : isNaN (negF x) = isNaN x := by simp [isNaN]

@[simp] theorem unitsOf_negF (x : F64) : unitsOf (negF x) = unitsOf x := by simp [unitsOf]

/-- A free NaN value is a NaN encoding (40_datapath.md R121). -/
@[simp] theorem isNaN_nanF (t : Site) : isNaN (nanF t) = true := by
  have h : (Config.nanBits t).toNat % 2 ^ 52 < 2 ^ 52 := Nat.mod_lt _ (by norm_num)
  have hb : ∀ f, f < 2 ^ 52 → infMag + (if f = 0 then 1 else f) < 2 ^ 63 ∧
      infMag < infMag + (if f = 0 then 1 else f) := fun f hf => by
    unfold infMag; split_ifs <;> omega
  rw [isNaN, nanF]
  rw [magBits_packF64 (hb _ h).1, decide_eq_true_eq]
  exact (hb _ h).2

theorem not_isNaN_of_isFinite {x : F64} (h : isFinite x = true) : isNaN x = false := by
  simp only [isFinite, isNaN, decide_eq_true_eq, decide_eq_false_iff_not] at *
  omega

theorem not_isInf_of_isFinite {x : F64} (h : isFinite x = true) : isInf x = false := by
  simp only [isFinite, isInf, decide_eq_true_eq, beq_eq_false_iff_ne] at *
  omega

/-! ## Real values -/

theorem realOf_packF64 {neg : Bool} {mag : Nat} (h : mag < 2 ^ 63) :
    realOf (packF64 neg mag) = (if neg then -1 else 1) * (unitsOfMag mag : ℝ) / 2 ^ 1074 := by
  unfold realOf intUnits unitsOf
  rw [signBit_packF64 h, magBits_packF64 h]
  cases neg <;> simp

theorem realOf_eq (x : F64) : realOf x = (if signBit x then -1 else 1) * (unitsOf x : ℝ) / 2 ^ 1074 := by
  conv_lhs => rw [← packF64_self x, realOf_packF64 (magBits_lt x)]
  rfl

@[simp] theorem realOf_negF (x : F64) : realOf (negF x) = -realOf x := by
  rw [realOf_eq, realOf_eq, signBit_negF, unitsOf_negF]
  cases signBit x <;> simp [neg_div]

@[simp] theorem realOf_zeroF : realOf zeroF = 0 := by
  rw [show zeroF = packF64 false 0 from rfl, realOf_packF64 (by norm_num)]
  simp

theorem evenF_packF64 {neg : Bool} {mag : Nat} (h : mag < 2 ^ 63) : evenF (packF64 neg mag) ↔ mag % 2 = 0 := by
  unfold evenF
  rw [packF64_toNat h]
  split_ifs <;> omega

/-- The real number a signed rounding approximates. -/
noncomputable def signedQuotient (neg : Bool) (n d : Nat) : ℝ :=
  (if neg then -1 else 1) * ((n : ℝ) / d) / 2 ^ 1074

/-- The largest finite magnitude and half a unit in the last place bound a finite rounding (00_scope.md R10). -/
theorem roundMag_lt_inf_iff_inRange {n d : Nat} (hd : 0 < d) (neg : Bool) :
    roundMag n d < infMag ↔ InRange (signedQuotient neg n d) := by
  have hq : |signedQuotient neg n d| = (n : ℝ) / d / 2 ^ 1074 := by
    have h0 : (0 : ℝ) ≤ (n : ℝ) / d := by positivity
    unfold signedQuotient
    cases neg
    · simp [abs_div, abs_of_nonneg h0]
    · simp [abs_div, abs_of_nonneg h0]
  rw [roundMag_lt_inf hd, InRange, hq, div_div, div_lt_iff₀ (by positivity)]
  have e : ((2 : ℝ) ^ 1024 - 2 ^ 970) * (d * 2 ^ 1074) = d * ((2 ^ 54 - 1) * 2 ^ 2045) / 2 := by
    have h1 : (2 : ℝ) ^ 1024 = 2 ^ 54 * 2 ^ 970 := by rw [← pow_add]
    have h2 : (2 : ℝ) ^ 2045 = 2 ^ 970 * 2 ^ 1074 * 2 := by rw [← pow_add, ← pow_succ]
    rw [h1, h2]; ring
  rw [e, lt_div_iff₀ (by norm_num)]
  have cast : (2 * n < d * ((2 ^ 54 - 1) * 2 ^ 2045)) ↔
      ((2 * n : ℝ) < d * ((2 ^ 54 - 1) * 2 ^ 2045)) := by
    have hc : ((2 ^ 54 - 1 : ℕ) : ℝ) = 2 ^ 54 - 1 := by norm_num
    rw [← hc]
    generalize (2 ^ 54 - 1 : ℕ) = k
    exact_mod_cast Iff.rfl
  rw [cast, mul_comm (n : ℝ) 2]

/-- A signed rounding below ∞ is RNE of the signed quotient (00_scope.md R10). -/
theorem isRNE_packF64 {n d : Nat} (hd : 0 < d) (neg : Bool) (h : roundMag n d < infMag) :
    IsRNE (signedQuotient neg n d) (packF64 neg (roundMag n d)) := by
  have hm := h.trans infMag_lt
  have hD : (0 : ℝ) < d := by exact_mod_cast hd
  have hP : (0 : ℝ) < 2 ^ 1074 := by positivity
  -- the distance of ±u units from the quotient
  have dist : ∀ u : Nat, |(if neg then -1 else 1) * (u : ℝ) / 2 ^ 1074 - signedQuotient neg n d|
      = ((|(u : ℤ) * d - n| : ℤ) : ℝ) / (d * 2 ^ 1074) := by
    intro u
    have e : (if neg then -1 else 1) * (u : ℝ) / 2 ^ 1074 - signedQuotient neg n d
        = (if neg then -1 else 1) * (((u : ℤ) * d - n : ℤ) : ℝ) / (d * 2 ^ 1074) := by
      unfold signedQuotient
      push_cast
      field_simp
    rw [e, abs_div, abs_mul, abs_of_pos (by positivity : (0 : ℝ) < d * 2 ^ 1074), Int.cast_abs]
    cases neg <;> simp
  -- a value of the other sign is no nearer than zero
  have other : ∀ w, isFinite w = true →
      (∃ m : Nat, |realOf w - signedQuotient neg n d|
          = ((|(unitsOfMag m : ℤ) * d - n| : ℤ) : ℝ) / (d * 2 ^ 1074) ∧
        realOf w = (if neg then -1 else 1) * (unitsOfMag m : ℝ) / 2 ^ 1074) ∨
      ((|(unitsOfMag 0 : ℤ) * d - n| : ℤ) : ℝ) / (d * 2 ^ 1074) < |realOf w - signedQuotient neg n d| := by
    intro w _
    by_cases hs : signBit w = neg
    · left
      refine ⟨magBits w, ?_, ?_⟩
      · rw [← dist, realOf_eq, hs]; rfl
      · rw [realOf_eq, hs]; rfl
    · by_cases h0 : unitsOf w = 0
      · left
        refine ⟨0, ?_, ?_⟩
        · rw [← dist, realOf_eq, h0]; simp
        · rw [realOf_eq, h0]; simp
      · right
        rw [← dist, realOf_eq]
        have hu : (0 : ℝ) < unitsOf w / 2 ^ 1074 := by
          have : (0 : ℝ) < unitsOf w := by exact_mod_cast Nat.pos_of_ne_zero h0
          positivity
        have hx : (0 : ℝ) ≤ (n : ℝ) / d / 2 ^ 1074 := by positivity
        unfold signedQuotient
        rw [unitsOfMag_zero]
        cases neg with
        | false =>
          have hw : signBit w = true := by simpa using hs
          rw [hw]
          simp only [Bool.false_eq_true, if_false, if_true, Nat.cast_zero, mul_zero, zero_div, zero_sub,
            one_mul, abs_neg]
          rw [abs_of_nonneg hx, neg_one_mul, neg_div, ← neg_add', abs_neg, abs_of_nonneg (by positivity)]
          linarith
        | true =>
          have hw : signBit w = false := by simpa using hs
          rw [hw]
          simp only [Bool.false_eq_true, if_false, if_true, Nat.cast_zero, mul_zero, zero_div, zero_sub,
            one_mul, neg_mul, neg_div, neg_neg]
          rw [abs_of_nonneg hx, sub_neg_eq_add, abs_of_nonneg (by positivity)]
          linarith
  have hdist := dist (unitsOfMag (roundMag n d))
  have hval := realOf_packF64 (neg := neg) hm
  have le_real : ∀ a b : ℤ, |a| ≤ |b| → ((|a| : ℤ) : ℝ) / ((d : ℝ) * 2 ^ 1074) ≤ ((|b| : ℤ) : ℝ) / ((d : ℝ) * 2 ^ 1074) := by
    intro a b hab
    have : ((|a| : ℤ) : ℝ) ≤ ((|b| : ℤ) : ℝ) := by exact_mod_cast hab
    gcongr
  refine ⟨isFinite_packF64 h, fun w hw => ?_, fun w hw hne he => ?_⟩
  · rw [hval, hdist]
    rcases other w hw with ⟨m, hm', -⟩ | hlt
    · rw [hm']; exact le_real _ _ (roundMag_spec hd h m).1
    · exact (le_real _ _ (roundMag_spec hd h 0).1).trans hlt.le
  · rw [evenF_packF64 hm]
    rw [hval] at hne he
    rw [hdist] at he
    rcases other w hw with ⟨m, hm', hv⟩ | hlt
    · rw [hm'] at he
      have hz : |(unitsOfMag m : ℤ) * d - n| = |(unitsOfMag (roundMag n d) : ℤ) * d - n| := by
        have := (div_left_inj' (by positivity : (d : ℝ) * 2 ^ 1074 ≠ 0)).mp he
        exact_mod_cast this
      refine (roundMag_spec hd h m).2 (fun hc => hne ?_) hz
      rw [hv, hc]
    · exact absurd he (ne_of_gt (lt_of_le_of_lt (le_real _ _ (roundMag_spec hd h 0).1) hlt))

/-- RNE of a real number is one value, up to the sign of a zero (00_scope.md R10). -/
theorem IsRNE.unique {r : ℝ} {v w : F64} (hv : IsRNE r v) (hw : IsRNE r w) :
    |realOf v - r| = |realOf w - r| :=
  le_antisymm (hv.nearest w hw.finite) (hw.nearest v hv.finite)

theorem IsRNE.neg {r : ℝ} {v : F64} (h : IsRNE r v) : IsRNE (-r) (negF v) := by
  have flip : ∀ w : F64, |realOf w - -r| = |realOf (negF w) - r| := fun w => by
    rw [realOf_negF, ← abs_neg]; congr 1; ring
  refine ⟨by simpa using h.finite, fun w hw => ?_, fun w hw hne he => ?_⟩
  · rw [flip, flip w, negF_negF]
    exact h.nearest _ (by simpa using hw)
  · rw [flip, flip (negF v), negF_negF] at he
    have := h.tieEven (negF w) (by simpa using hw)
      (fun hc => hne (by rw [realOf_negF] at hc ⊢; linarith)) he
    rw [← packF64_self v, evenF_packF64 (magBits_lt v)] at this
    rwa [← packF64_self v, negF_packF64 (magBits_lt v), evenF_packF64 (magBits_lt v)]

/-! ## The operations on finite operands -/

theorem roundMag_le_inf (n d : Nat) : roundMag n d ≤ infMag := by unfold roundMag; simp only; omega

theorem addF_finite (t : Site) (a b : F64) (ha : isFinite a = true) (hb : isFinite b = true) :
    addF t a b = if intUnits a + intUnits b = 0 then packF64 (signBit a && signBit b) 0
      else packF64 (decide (intUnits a + intUnits b < 0)) (roundMag (intUnits a + intUnits b).natAbs 1) := by
  simp [addF, not_isNaN_of_isFinite ha, not_isNaN_of_isFinite hb, not_isInf_of_isFinite ha, not_isInf_of_isFinite hb]

theorem mulF_finite (t : Site) (a b : F64) (ha : isFinite a = true) (hb : isFinite b = true) :
    mulF t a b = packF64 (signBit a != signBit b) (roundMag (unitsOf a * unitsOf b) (2 ^ 1074)) := by
  simp [mulF, not_isNaN_of_isFinite ha, not_isNaN_of_isFinite hb, not_isInf_of_isFinite ha, not_isInf_of_isFinite hb]

theorem divF_finite (t : Site) (a b : F64) (ha : isFinite a = true) (hb : isFinite b = true) (h : unitsOf b ≠ 0) :
    divF t a b = packF64 (signBit a != signBit b) (roundMag (unitsOf a * 2 ^ 1074) (unitsOf b)) := by
  simp [divF, not_isNaN_of_isFinite ha, not_isNaN_of_isFinite hb, not_isInf_of_isFinite ha, not_isInf_of_isFinite hb, h]

/-- Every value is a NaN, an infinity or finite. -/
theorem f64_cases (x : F64) : (isNaN x = true ∧ isInf x = false ∧ isFinite x = false) ∨ (isNaN x = false ∧ isInf x = true ∧ isFinite x = false) ∨
   (isNaN x = false ∧ isInf x = false ∧ isFinite x = true) := by
  unfold isNaN isInf isFinite
  rcases Nat.lt_trichotomy (magBits x) infMag with h | h | h
  · right; right; simp; omega
  · right; left; simp [h]
  · left; simp; omega

/-- f64(d) is exact below 2^53 (40_datapath.md R127). -/
theorem natF_exact {d : Nat} (h1 : 1 ≤ d) (h2 : d < 2 ^ 53) :
    isFinite (natF d) = true ∧ realOf (natF d) = d := by
  have he : d.log2 ≤ 52 := Nat.lt_succ_iff.mp ((Nat.log2_lt (by omega)).mpr h2)
  have hlo : 2 ^ d.log2 ≤ d := Nat.log2_self_le (by omega)
  have hhi : d < 2 ^ (d.log2 + 1) := Nat.lt_log2_self
  generalize d.log2 = e at he hlo hhi
  have hq1 : 2 ^ 52 ≤ d * 2 ^ (52 - e) := by
    calc 2 ^ 52 = 2 ^ e * 2 ^ (52 - e) := by rw [← pow_add]; congr 1; omega
      _ ≤ _ := Nat.mul_le_mul_right _ hlo
  have hq2 : d * 2 ^ (52 - e) < 2 ^ 53 := by
    calc _ < 2 ^ (e + 1) * 2 ^ (52 - e) := Nat.mul_lt_mul_of_pos_right hhi (by positivity)
      _ = 2 ^ 53 := by rw [← pow_add]; congr 1; omega
  have hn : d * 2 ^ 1074 = d * 2 ^ (52 - e) * 2 ^ (e + 1022) := by
    rw [mul_assoc, ← pow_add, show 52 - e + (e + 1022) = 1074 by omega]
  have hlog : (d * 2 ^ 1074).log2 = e + 1074 := by
    rw [Nat.log2_eq_iff (Nat.mul_ne_zero (by omega) (by positivity))]
    constructor
    · rw [pow_add]; exact Nat.mul_le_mul_right _ hlo
    · rw [show e + 1074 + 1 = e + 1 + 1074 by omega, pow_add 2 (e + 1)]
      exact Nat.mul_lt_mul_of_pos_right hhi (by positivity)
  have hr : roundMag (d * 2 ^ 1074) 1 = (e + 1022) * 2 ^ 52 + d * 2 ^ (52 - e) := by
    unfold roundMag rneDiv
    simp only [Nat.div_one, hlog, Nat.one_mul]
    rw [show e + 1074 - 52 = e + 1022 by omega, hn, Nat.mul_mod_left, Nat.mul_div_cancel _ (by positivity), if_pos (by positivity)]
    exact Nat.min_eq_right (by unfold infMag; omega)
  have hm : (e + 1022) * 2 ^ 52 + d * 2 ^ (52 - e) < infMag := by unfold infMag; omega
  unfold natF
  rw [hr]
  refine ⟨isFinite_packF64 hm, ?_⟩
  rw [realOf_packF64 (lt_trans hm infMag_lt)]
  generalize hq : d * 2 ^ (52 - e) = q at *
  have hu : unitsOfMag ((e + 1022) * 2 ^ 52 + q) = d * 2 ^ 1074 := by
    unfold unitsOfMag
    rw [show ((e + 1022) * 2 ^ 52 + q) / 2 ^ 52 = e + 1023 by omega,
      show ((e + 1022) * 2 ^ 52 + q) % 2 ^ 52 = q - 2 ^ 52 by omega, if_neg (by omega), hn,
      show 2 ^ 52 + (q - 2 ^ 52) = q by omega, show e + 1023 - 1 = e + 1022 by omega]
  rw [hu]
  simp only [Bool.false_eq_true, if_false, one_mul, Nat.cast_mul, Nat.cast_pow, Nat.cast_ofNat]
  exact mul_div_cancel_right₀ _ (by positivity)

end Sys2Proof.Machine
end

