-- ==== Sys2Proof/Laws/Index.lean ====
section
/-!
SUPPORT. The laws of is_pow2, nextpow2 and the bit reversal (Machine/Index.lean).
-/

namespace Sys2Proof.Machine

theorem isPow2_two_pow (k : Nat) : isPow2 (2 ^ k) = true := by
  simp [isPow2, Nat.log2_two_pow]

/-- A nonzero length that passes is_pow2 is 2 to its log2. -/
theorem isPow2_pos {n : Nat} (h : isPow2 n = true) (hn : n ≠ 0) : 2 ^ n.log2 = n := by
  simpa [isPow2, hn] using h

theorem nextPow2_eq_two_pow (n : Nat) : ∃ k, nextPow2 n = 2 ^ k := by
  unfold nextPow2
  split_ifs
  · exact ⟨0, rfl⟩
  · exact ⟨_, rfl⟩

theorem nextPow2_pos (n : Nat) : 0 < nextPow2 n := by
  obtain ⟨k, hk⟩ := nextPow2_eq_two_pow n
  rw [hk]; positivity

theorem isPow2_nextPow2 (n : Nat) : isPow2 (nextPow2 n) = true := by
  obtain ⟨k, hk⟩ := nextPow2_eq_two_pow n
  rw [hk]; exact isPow2_two_pow k

theorem le_nextPow2 (n : Nat) : n ≤ nextPow2 n := by
  unfold nextPow2
  split_ifs with h
  · exact h
  · have := @Nat.lt_log2_self (n - 1)
    omega

/-- nextpow2(n) is below every power of two that is at least n. -/
theorem nextPow2_le {n k : Nat} (h : n ≤ 2 ^ k) : nextPow2 n ≤ 2 ^ k := by
  unfold nextPow2
  split_ifs with h1
  · exact Nat.one_le_two_pow
  · have hlt : (n - 1).log2 < k := (Nat.log2_lt (by omega)).mpr (by omega)
    exact Nat.pow_le_pow_right (by norm_num) hlt

/-- A reversed index stays below 2^b. -/
theorem bitrev_lt (b : Nat) : ∀ i, bitrev b i < 2 ^ b := by
  induction b with
  | zero => intro i; simp [bitrev]
  | succ b ih =>
    intro i
    have h1 := ih (i / 2)
    have h2 : i % 2 < 2 := Nat.mod_lt _ (by norm_num)
    have h3 : 2 ^ (b + 1) = 2 * 2 ^ b := by rw [pow_succ, Nat.mul_comm]
    rw [bitrev]
    have : i % 2 = 0 ∨ i % 2 = 1 := by omega
    rcases this with h | h <;> rw [h] <;> omega

end Sys2Proof.Machine
end

