-- ==== Sys2Proof/Laws/Lengths.lean ====
section
/-!
SUPPORT. The lengths of the sequences the compute phases make (Machine/Transforms.lean, Machine/Convolve.lean):
a transform's output is as long as its input, and a command's result fills its region D exactly.
-/

namespace Sys2Proof.Machine

/-! ## The units over sequences -/

@[simp] theorem Operand.length_real (xs : List F64) : (Operand.real xs).length = xs.length := rfl

@[simp] theorem Operand.length_complex (zs : List C64) : (Operand.complex zs).length = zs.length := rfl

@[simp] theorem pmul_length (t : Site) (a b : List C64) : (pmul t a b).length = min a.length b.length := by
  simp [pmul]

@[simp] theorem divAll_length (t : Site) (x : List C64) (d : Nat) : (divAll t x d).length = x.length := by
  simp [divAll]

@[simp] theorem padReal_length (x : List F64) (l : Nat) : (padReal x l).length = max x.length l := by
  simp [padReal]; omega

@[simp] theorem padComplex_length (x : List C64) (l : Nat) : (padComplex x l).length = max x.length l := by
  simp [padComplex]; omega

@[simp] theorem repart_length (x : List C64) : (repart x).length = x.length := by simp [repart]

@[simp] theorem hermPost_length (h : Bool) (y : List C64) : (hermPost h y).length = y.length := by
  cases h <;> simp [hermPost]

@[simp] theorem chirps_length (n : Nat) (s : Direction) : (chirps n s).length = n := by simp [chirps]

@[simp] theorem twists_length (n : Nat) : (twists n).length = n := by simp [twists]

@[simp] theorem chirpKernel_length (c : List C64) (p : Nat) : (chirpKernel c p).length = p := by
  simp [chirpKernel]

@[simp] theorem bitReverse_length (x : List C64) : (bitReverse x).length = x.length := by simp [bitReverse]

theorem pairUp_length : ∀ (n : Nat) (ws : List F64), ws.length = 2 * n → (pairUp ws).length = n
  | 0, ws, h => by
    have : ws = [] := List.length_eq_zero_iff.mp (by omega)
    subst this; rfl
  | n + 1, a :: b :: rest, h => by
    have : rest.length = 2 * n := by simp at h; omega
    simp [pairUp, pairUp_length n rest this]
  | n + 1, [], h => by simp at h
  | n + 1, [a], h => by simp at h; omega

@[simp] theorem Operand.toComplex_length (x : Operand) : x.toComplex.length = x.length := by
  cases x <;> simp [Operand.toComplex, Operand.length]

@[simp] theorem Operand.pad_length (x : Operand) (l : Nat) : (x.pad l).length = max x.length l := by
  cases x <;> simp [Operand.pad, Operand.length]

/-- The words of a complex sequence are twice its elements. -/
@[simp] theorem Operand.words_complex_length (zs : List C64) : (Operand.complex zs).words.length = 2 * zs.length := by
  simp only [Operand.words]
  induction zs with
  | nil => rfl
  | cons z zs ih => simp [List.flatMap_cons, ih]; omega

@[simp] theorem Operand.words_real_length (xs : List F64) : (Operand.real xs).words.length = xs.length := rfl

/-! ## The engines -/

theorem stage_length (t : Site) (s : Direction) (h : Nat) : ∀ (g : Nat) (a : List C64),
    a.length = g * (2 * h) → (stage t s h g a).length = a.length := by
  intro g
  induction g with
  | zero => intro a _; rfl
  | succ g ih =>
    intro a ha
    have e : (g + 1) * (2 * h) = g * (2 * h) + 2 * h := by ring
    have hd : (a.drop (2 * h)).length = g * (2 * h) := by rw [List.length_drop]; omega
    rw [stage]
    simp only [List.length_append, List.length_map, List.length_zipIdx, List.length_zip, List.length_take,
      List.length_drop, ih _ hd]
    have h1 : 2 * h ≤ a.length := by omega
    omega

theorem stages_length (t : Site) (s : Direction) (B : Nat) : ∀ (b k : Nat) (a : List C64), k + b = B →
    a.length = 2 ^ B → (stages t s (2 ^ B) k b a).length = 2 ^ B := by
  intro b
  induction b with
  | zero => intro k a _ ha; exact ha
  | succ b ih =>
    intro k a hk ha
    have hlen : a.length = 2 ^ B / 2 ^ (k + 1) * (2 * 2 ^ k) := by
      rw [Nat.pow_div (by omega) (by norm_num), ha, ← pow_succ', ← pow_add]
      congr 1; omega
    rw [stages]
    exact ih (k + 1) _ (by omega) (by rw [stage_length _ _ _ _ _ hlen, ha])

/-- The complex radix-2 path keeps the length (41_transforms.md R160). -/
theorem r2c_length (t : Site) (x : List C64) (s : Direction) (hp : isPow2 x.length = true) :
    (r2c t x s).length = x.length := by
  unfold r2c
  split_ifs with h
  · rfl
  · have e := isPow2_pos hp (by omega)
    have := stages_length t s x.length.log2 x.length.log2 0 (bitReverse x) (by omega)
      (by rw [bitReverse_length, e])
    rwa [e] at this

theorem unpackReal_length (t : Site) (z : List C64) (n : Nat) (s : Direction) (h2 : 2 ≤ n) (he : n % 2 = 0) :
    (unpackReal t z n s).length = n := by
  simp [unpackReal]; omega

theorem even_of_isPow2 {n : Nat} (hp : isPow2 n = true) (h : 2 ≤ n) : n % 2 = 0 := by
  have e := isPow2_pos hp (by omega)
  have : n.log2 ≠ 0 := by intro h0; rw [h0] at e; omega
  obtain ⟨k, hk⟩ := Nat.exists_eq_succ_of_ne_zero this
  rw [hk, pow_succ] at e
  omega

/-- The real radix-2 path gives the full spectrum (41_transforms.md R163). -/
theorem r2r_length (t : Site) (x : List F64) (s : Direction) (hp : isPow2 x.length = true) :
    (r2r t x s).length = x.length := by
  unfold r2r
  split_ifs with h
  · simp
  · exact unpackReal_length _ _ _ _ (by omega) (even_of_isPow2 hp (by omega))

/-- The Bluestein engine keeps the length (41_transforms.md R166). -/
theorem bluestein_length (t : Site) (x : List C64) (s : Direction) : (bluestein t x s).length = x.length := by
  unfold bluestein
  simp only
  split_ifs with h
  · rfl
  · have hle : 2 * x.length - 1 ≤ nextPow2 (2 * x.length - 1) := le_nextPow2 _
    have hpow := isPow2_nextPow2 (2 * x.length - 1)
    have e1 : (padComplex (pmul (0 :: t) x (chirps x.length s)) (nextPow2 (2 * x.length - 1))).length
        = nextPow2 (2 * x.length - 1) := by simp; omega
    have e2 := r2c_length (1 :: t) _ .forward (by rw [e1]; exact hpow)
    have e3 := r2c_length (2 :: t) (chirpKernel (chirps x.length s) (nextPow2 (2 * x.length - 1))) .forward
      (by rw [chirpKernel_length]; exact hpow)
    have e4 := r2c_length (4 :: t) (pmul (3 :: t)
        (r2c (1 :: t) (padComplex (pmul (0 :: t) x (chirps x.length s)) (nextPow2 (2 * x.length - 1))) .forward)
        (r2c (2 :: t) (chirpKernel (chirps x.length s) (nextPow2 (2 * x.length - 1))) .forward)) .inverse
      (by rw [pmul_length, e2, e3, e1, chirpKernel_length, Nat.min_self]; exact hpow)
    simp only [pmul_length, chirps_length, List.length_map, List.length_zipIdx, List.length_take, e4, e2, e3,
      e1, chirpKernel_length]
    omega

/-- The dispatcher keeps the length; the forced radix-2 engine needs a power of two (41_transforms.md R170). -/
theorem xform_length (t : Site) (x : Operand) (s : Direction) (e : Engine)
    (h : e = .radix2 → isPow2 x.length = true) : (xform t x s e).length = x.length := by
  have hp : usesRadix2 e x.length = true → isPow2 x.length = true := by
    intro hu
    cases e with
    | auto => simpa [usesRadix2] using hu
    | radix2 => exact h rfl
    | bluestein => simp [usesRadix2] at hu
  cases x with
  | real xs =>
    by_cases hu : usesRadix2 e xs.length = true
    · simpa [xform, hu, Operand.length] using r2r_length t xs s (hp hu)
    · simp [xform, hu, Operand.length, bluestein_length]
  | complex zs =>
    by_cases hu : usesRadix2 e zs.length = true
    · simpa [xform, hu, Operand.length] using r2c_length t zs s (hp hu)
    · simp [xform, hu, Operand.length, bluestein_length]

theorem xform_auto_length (t : Site) (x : Operand) (s : Direction) : (xform t x s .auto).length = x.length :=
  xform_length t x s .auto (by simp)

/-! ## The convolutions -/

theorem circular_length (t : Site) (a b : Operand) (h : b.length = a.length) :
    (circular t a b).length = a.length := by
  unfold circular
  split_ifs with h0
  · simp [h0]
  · simp only [divAll_length, xform_auto_length, Operand.length_complex, pmul_length, h, Nat.min_self]

/-- The words a convolution's result in the output format is written as. -/
theorem convResult_words_length (a b : Operand) (r : List C64) :
    (convResult a b r).words.length = if a.bothReal b then r.length else 2 * r.length := by
  unfold convResult
  split_ifs with h <;> simp

theorem convLinear_words_length (t : Site) (a b : Operand) :
    (convLinear t a b).words.length =
      (if a.bothReal b then 1 else 2) * (if a.length = 0 ∨ b.length = 0 then 0 else a.length + b.length - 1) := by
  unfold convLinear
  split_ifs with h0 hb hb
  · simp [convResult_words_length]
  · simp [convResult_words_length]
  all_goals
    have hle := le_nextPow2 (a.length + b.length - 1)
    simp only [convResult_words_length, hb, divAll_length, List.length_take, xform_auto_length,
      Operand.length_complex, pmul_length, Operand.pad_length, if_true, Bool.false_eq_true, if_false]
    omega

theorem convCircular_words_length (t : Site) (a b : Operand) (h : b.length = a.length) :
    (convCircular t a b).words.length = (if a.bothReal b then 1 else 2) * a.length := by
  unfold convCircular
  rw [convResult_words_length, circular_length t a b h]
  split_ifs <;> omega

theorem convNegacyclic_words_length (t : Site) (a b : Operand) (h : b.length = a.length) :
    (convNegacyclic t a b).words.length = (if a.bothReal b then 1 else 2) * a.length := by
  unfold convNegacyclic
  have hc : (circular (2 :: t) (.complex (pmul (0 :: t) a.toComplex (twists a.length)))
      (.complex (pmul (1 :: t) b.toComplex (twists a.length)))).length = a.length := by
    rw [circular_length _ _ _ (by simp [h])]
    simp
  rw [convResult_words_length, pmul_length, hc]
  simp only [List.length_map, twists_length, Nat.min_self]
  split_ifs <;> omega

end Sys2Proof.Machine
end

