-- ==== Sys2Proof/Laws/Memory.lean ====
section
/-!
SUPPORT. The laws of memory: a byte written reads back, a write leaves every other byte alone, every operation
keeps the canonical form and the address bound (Machine/Ops.lean).
-/

namespace Sys2Proof.Machine

/-! ## One byte -/

theorem memWfFrom_cons {lo k : Nat} {c : Byte} {rest : Memory} :
    memWfFrom lo ((k, c) :: rest) = true ↔
      lo ≤ k ∧ c ≠ unwrittenByte ∧ memWfFrom (k + 1) rest = true := by
  simp [memWfFrom, and_assoc]

theorem memWfFrom_mono {lo lo' : Nat} {m : Memory} (h : memWfFrom lo m = true) (hle : lo' ≤ lo) :
    memWfFrom lo' m = true := by
  cases m with
  | nil => rfl
  | cons e rest =>
    obtain ⟨k, c⟩ := e
    rw [memWfFrom_cons] at h ⊢
    exact ⟨hle.trans h.1, h.2⟩

/-- Below the first listed address every byte is unwritten. -/
theorem memRead_below {lo a : Nat} {m : Memory} (h : memWfFrom lo m = true) (ha : a < lo) :
    memRead m a = unwrittenByte := by
  cases m with
  | nil => rfl
  | cons e rest =>
    obtain ⟨k, c⟩ := e
    rw [memWfFrom_cons] at h
    have h1 : a ≠ k := by omega
    have h2 : a < k := by omega
    simp [memRead, h1, h2]

theorem memWrite_wfFrom {m : Memory} : ∀ {lo a : Nat} {b : Byte}, memWfFrom lo m = true → lo ≤ a →
    memWfFrom lo (memWrite m a b) = true := by
  induction m with
  | nil =>
    intro lo a b _ ha
    by_cases hb : b = unwrittenByte <;> simp [memWrite, hb, memWfFrom, ha]
  | cons e rest ih =>
    obtain ⟨k, c⟩ := e
    intro lo a b h ha
    have h' := memWfFrom_cons.mp h
    unfold memWrite
    split_ifs with h1 h2 h3 h4
    · exact memWfFrom_mono h'.2.2 (by omega)
    · subst h1; exact memWfFrom_cons.mpr ⟨h'.1, h2, h'.2.2⟩
    · exact h
    · exact memWfFrom_cons.mpr ⟨ha, h4, memWfFrom_cons.mpr ⟨by omega, h'.2⟩⟩
    · exact memWfFrom_cons.mpr ⟨h'.1, h'.2.1, ih h'.2.2 (by omega)⟩

/-- A write keeps the canonical form. -/
theorem memWrite_wf {m : Memory} {a : Nat} {b : Byte} (h : m.wf = true) : (memWrite m a b).wf = true :=
  memWrite_wfFrom h (Nat.zero_le a)

theorem memRead_memWrite_from {m : Memory} : ∀ {lo a : Nat} {b : Byte}, memWfFrom lo m = true →
    ∀ x, memRead (memWrite m a b) x = if x = a then b else memRead m x := by
  induction m with
  | nil =>
    intro lo a b _ x
    by_cases hb : b = unwrittenByte
    · by_cases hx : x = a <;> simp [memWrite, hb, memRead, hx]
    · by_cases hx : x = a
      · simp [memWrite, hb, memRead, hx]
      · simp [memWrite, hb, memRead, hx]
  | cons e rest ih =>
    obtain ⟨k, c⟩ := e
    intro lo a b h x
    have h' := memWfFrom_cons.mp h
    have below : ∀ y, y ≤ k → memRead rest y = unwrittenByte := fun y hy =>
      memRead_below h'.2.2 (by omega)
    unfold memWrite
    split_ifs with h1 h2 h3 h4 h5 h6 h7
    · subst h3; rw [h2, below _ (by omega)]
    · by_cases hxk : x < k
      · simp [memRead, hxk, below x (by omega), show x ≠ k by omega]
      · simp [memRead, hxk, show x ≠ k by omega]
    · simp [memRead, h4]
    · simp [memRead, ← h1, h4]
    · subst h7; simp [memRead, h1, h5, h6]
    · rfl
    · rename_i h8; subst h8; simp [memRead]
    · rename_i h8
      by_cases hxa : x < a
      · simp [memRead, h8, hxa, show x < k by omega, show x ≠ k by omega]
      · simp [memRead, h8, hxa]
    · rename_i h8; subst h8; simp [memRead, h1, h5, ih h'.2.2]
    · rename_i h8; simp only [memRead, ih h'.2.2, h8, if_false]

/-- After a write, the written byte reads as written and every other byte as before. -/
theorem memRead_memWrite {m : Memory} {a : Nat} {b : Byte} (h : m.wf = true) (x : Nat) :
    memRead (memWrite m a b) x = if x = a then b else memRead m x :=
  memRead_memWrite_from h x

/-! ## Runs of bytes -/

theorem memWriteBytes_wf (n : Nat) : ∀ (m : Memory) (a v : Nat), m.wf = true →
    (memWriteBytes m a n v).wf = true := by
  induction n with
  | zero => intro m a v h; exact h
  | succ n ih => intro m a v h; exact ih _ _ _ (memWrite_wf h)

/-- Writing n bytes at a leaves every byte outside a .. a+n-1 alone. -/
theorem memRead_memWriteBytes_outside (n : Nat) : ∀ (m : Memory) (a v x : Nat), m.wf = true →
    (x < a ∨ a + n ≤ x) → memRead (memWriteBytes m a n v) x = memRead m x := by
  induction n with
  | zero => intro m a v x _ _; rfl
  | succ n ih =>
    intro m a v x h hx
    have hne : x ≠ a := by omega
    rw [memWriteBytes, ih _ _ _ _ (memWrite_wf h) (by omega), memRead_memWrite h, if_neg hne]

/-- Byte k of the n bytes written is byte k of the value, little-endian. -/
theorem memRead_memWriteBytes_inside (n : Nat) : ∀ (m : Memory) (a v k : Nat), m.wf = true → k < n →
    memRead (memWriteBytes m a n v) (a + k) = BitVec.ofNat 8 (v / 256 ^ k) := by
  induction n with
  | zero => intro m a v k _ hk; omega
  | succ n ih =>
    intro m a v k h hk
    cases k with
    | zero =>
      rw [memWriteBytes, memRead_memWriteBytes_outside _ _ _ _ _ (memWrite_wf h) (by omega),
        memRead_memWrite h]
      simp
    | succ k =>
      have := ih (memWrite m a (BitVec.ofNat 8 v)) (a + 1) (v / 256) k (memWrite_wf h) (by omega)
      rw [memWriteBytes, show a + (k + 1) = a + 1 + k by omega, this, Nat.div_div_eq_div_mul, pow_succ,
        Nat.mul_comm]

/-- The value assembled from n bytes depends on those bytes alone. -/
theorem leBytes_congr {f g : Nat → Byte} (n : Nat) : ∀ a, (∀ k, k < n → f (a + k) = g (a + k)) →
    leBytes f a n = leBytes g a n := by
  induction n with
  | zero => intro a _; rfl
  | succ n ih =>
    intro a h
    have h0 := h 0 (by omega)
    rw [Nat.add_zero] at h0
    rw [leBytes, leBytes, h0, ih (a + 1) (fun k hk => by
      have := h (k + 1) (by omega)
      rwa [show a + (k + 1) = a + 1 + k by omega] at this)]

theorem leBytes_lt (f : Nat → Byte) (n : Nat) : ∀ a, leBytes f a n < 256 ^ n := by
  induction n with
  | zero => intro a; simp [leBytes]
  | succ n ih =>
    intro a
    have h1 := (f a).isLt
    have h2 := ih (a + 1)
    have h3 : 256 ^ (n + 1) = 256 * 256 ^ n := by rw [pow_succ, Nat.mul_comm]
    rw [leBytes]
    omega

/-- The bytes of a value, assembled, are the value's low n bytes. -/
theorem leBytes_of_digits {f : Nat → Byte} (n : Nat) : ∀ a v,
    (∀ k, k < n → f (a + k) = BitVec.ofNat 8 (v / 256 ^ k)) → leBytes f a n = v % 256 ^ n := by
  induction n with
  | zero => intro a v _; simp [leBytes, Nat.mod_one]
  | succ n ih =>
    intro a v h
    have h0 := h 0 (by omega)
    rw [Nat.add_zero, pow_zero, Nat.div_one] at h0
    rw [leBytes, h0, ih (a + 1) (v / 256) (fun k hk => by
      have := h (k + 1) (by omega)
      rwa [show a + (k + 1) = a + 1 + k by omega, pow_succ, Nat.mul_comm, ← Nat.div_div_eq_div_mul] at this)]
    rw [BitVec.toNat_ofNat, show 256 ^ (n + 1) = 256 * 256 ^ n by rw [pow_succ, Nat.mul_comm], Nat.mod_mul]

/-- `MemWrite` then `MemRead` at the same place gives the value back (00_scope.md R11). -/
theorem memReadBytes_memWriteBytes (m : Memory) (a n v : Nat) (h : m.wf = true) :
    memReadBytes (memWriteBytes m a n v) a n = v % 256 ^ n :=
  leBytes_of_digits n a v fun k hk => memRead_memWriteBytes_inside n m a v k h hk

/-- `MemRead` of bytes a write did not touch is unchanged. -/
theorem memReadBytes_memWriteBytes_outside (m : Memory) (a n v b k : Nat) (h : m.wf = true)
    (hd : b + k ≤ a ∨ a + n ≤ b) : memReadBytes (memWriteBytes m a n v) b k = memReadBytes m b k :=
  leBytes_congr k b fun j hj => memRead_memWriteBytes_outside n m a v (b + j) h (by omega)

/-! ## Free bytes -/

theorem memFillAny_wf (t : Site) (n : Nat) : ∀ (m : Memory) (a : Nat), m.wf = true →
    (memFillAny t m a n).wf = true := by
  induction n with
  | zero => intro m a h; exact h
  | succ n ih => intro m a h; exact ih _ _ (memWrite_wf h)

theorem memRead_memFillAny_outside (t : Site) (n : Nat) : ∀ (m : Memory) (a x : Nat), m.wf = true →
    (x < a ∨ a + n ≤ x) → memRead (memFillAny t m a n) x = memRead m x := by
  induction n with
  | zero => intro m a x _ _; rfl
  | succ n ih =>
    intro m a x h hx
    have hne : x ≠ a := by omega
    rw [memFillAny, ih _ _ _ (memWrite_wf h) (by omega), memRead_memWrite h, if_neg hne]

theorem memRead_memFillAny_inside (t : Site) (n : Nat) : ∀ (m : Memory) (a x : Nat), m.wf = true →
    a ≤ x → x < a + n → memRead (memFillAny t m a n) x = Config.anyByte (x :: t) := by
  induction n with
  | zero => intro m a x _ h1 h2; omega
  | succ n ih =>
    intro m a x h h1 h2
    by_cases hxa : x = a
    · subst hxa
      rw [memFillAny, memRead_memFillAny_outside _ _ _ _ _ (memWrite_wf h) (by omega), memRead_memWrite h,
        if_pos rfl]
    · rw [memFillAny, ih _ _ _ (memWrite_wf h) (by omega) (by omega)]

/-! ## The address bound -/

/-- Every listed address lies below a bound. -/
def memBelow (bound : Nat) (m : Memory) : Prop := ∀ e ∈ m, e.1 < bound

theorem memWrite_below {bound : Nat} {m : Memory} {a : Nat} {b : Byte} (h : memBelow bound m)
    (ha : a < bound) : memBelow bound (memWrite m a b) := by
  induction m with
  | nil =>
    unfold memWrite
    split_ifs
    · exact h
    · intro e he; simp at he; subst he; exact ha
  | cons e rest ih =>
    obtain ⟨k, c⟩ := e
    have hrest : memBelow bound rest := fun e he => h e (List.mem_cons_of_mem _ he)
    have hk : k < bound := h (k, c) List.mem_cons_self
    unfold memWrite
    split_ifs
    · exact hrest
    · intro e he
      rcases List.mem_cons.mp he with rfl | he
      · exact ha
      · exact hrest e he
    · exact h
    · intro e he
      rcases List.mem_cons.mp he with rfl | he
      · exact ha
      · exact h e he
    · intro e he
      rcases List.mem_cons.mp he with rfl | he
      · exact hk
      · exact ih hrest e he

theorem memWriteBytes_below {bound : Nat} (n : Nat) : ∀ (m : Memory) (a v : Nat), memBelow bound m →
    a + n ≤ bound → memBelow bound (memWriteBytes m a n v) := by
  induction n with
  | zero => intro m a v h _; exact h
  | succ n ih => intro m a v h ha; exact ih _ _ _ (memWrite_below h (by omega)) (by omega)

theorem memFillAny_below {bound : Nat} (t : Site) (n : Nat) : ∀ (m : Memory) (a : Nat), memBelow bound m →
    a + n ≤ bound → memBelow bound (memFillAny t m a n) := by
  induction n with
  | zero => intro m a h _; exact h
  | succ n ih => intro m a h ha; exact ih _ _ (memWrite_below h (by omega)) (by omega)

/-! ## Equal memories are equal data -/

/-- Two memories in canonical form that read alike are the same list. -/
theorem memory_ext {m : Memory} : ∀ {lo : Nat} {m' : Memory}, memWfFrom lo m = true → memWfFrom lo m' = true →
    (∀ a, memRead m a = memRead m' a) → m = m' := by
  induction m with
  | nil =>
    intro lo m' _ h' hr
    cases m' with
    | nil => rfl
    | cons e rest =>
      obtain ⟨k, c⟩ := e
      have h2 := memWfFrom_cons.mp h'
      have := hr k
      simp [memRead] at this
      exact absurd this.symm h2.2.1
  | cons e rest ih =>
    obtain ⟨k, c⟩ := e
    intro lo m' h h' hr
    have h1 := memWfFrom_cons.mp h
    cases m' with
    | nil =>
      have := hr k
      simp [memRead] at this
      exact absurd this h1.2.1
    | cons e' rest' =>
      obtain ⟨k', c'⟩ := e'
      have h2 := memWfFrom_cons.mp h'
      have hk : k = k' := by
        rcases Nat.lt_trichotomy k k' with hlt | heq | hgt
        · have := hr k
          simp [memRead, hlt, show k ≠ k' by omega] at this
          exact absurd this h1.2.1
        · exact heq
        · have := hr k'
          simp [memRead, hgt, show k' ≠ k by omega] at this
          exact absurd this.symm h2.2.1
      subst hk
      have hc : c = c' := by have := hr k; simpa [memRead] using this
      subst hc
      rw [ih h1.2.2 h2.2.2 (fun a => by
        have := hr a
        by_cases hak : a = k
        · subst hak
          rw [memRead_below h1.2.2 (by omega), memRead_below h2.2.2 (by omega)]
        · by_cases hlt : a < k
          · rw [memRead_below h1.2.2 (by omega), memRead_below h2.2.2 (by omega)]
          · simpa [memRead, hak, hlt] using this)]

/-! ## Spans -/

/-- A span less another holds the addresses of the one that are not the other's. -/
theorem span_minus_has (x y : Span) (a : Nat) : spansHave (x.minus y) a = (x.has a && !y.has a) := by
  rw [Bool.eq_iff_iff]
  unfold spansHave Span.minus Span.has
  split_ifs <;> simp <;> omega

theorem spansHave_flatMap {α} (f : α → List Span) (xs : List α) (a : Nat) :
    spansHave (xs.flatMap f) a = xs.any fun x => spansHave (f x) a := by
  simp [spansHave, List.any_flatMap]

@[simp] theorem spansHave_nil (a : Nat) : spansHave [] a = false := rfl

@[simp] theorem spansHave_cons (x : Span) (xs : List Span) (a : Nat) :
    spansHave (x :: xs) a = (x.has a || spansHave xs a) := by simp [spansHave]

@[simp] theorem spansHave_spansDrop (xs : List Span) (y : Span) (a : Nat) :
    spansHave (spansDrop xs y) a = (spansHave xs a && !y.has a) := by
  rw [spansDrop, spansHave_flatMap]
  simp only [span_minus_has]
  induction xs with
  | nil => rfl
  | cons x xs ih => rw [List.any_cons, ih, spansHave_cons, Bool.and_or_distrib_right]

/-- Writing bytes anew ends what ended instances hide of them, and no more. -/
@[simp] theorem peersHide_rewritten (ps : List Peer) (x : Span) (a : Nat) :
    peersHide (ps.flatMap (Peer.rewritten x)) a = ps.any fun p => p.hides a && (p.busy || !x.has a) := by
  have one : ∀ p : Peer, peersHide (p.rewritten x) a = (p.hides a && (p.busy || !x.has a)) := fun p => by
    have hm := span_minus_has p.result x a
    unfold spansHave at hm
    unfold peersHide Peer.rewritten
    cases hb : p.busy with
    | true => simp
    | false => simp [Peer.hides, hb, hm, Function.comp_def]
  unfold peersHide at *
  rw [List.any_flatMap]
  simp only [one]

/-- Writing bytes anew changes nothing of the instances that are BUSY. -/
@[simp] theorem filter_busy_rewritten (ps : List Peer) (x : Span) :
    (ps.flatMap (Peer.rewritten x)).filter (·.busy) = ps.filter (·.busy) := by
  induction ps with
  | nil => rfl
  | cons p ps ih =>
    rw [List.flatMap_cons, List.filter_append, ih, List.filter_cons, Peer.rewritten]
    cases hb : p.busy <;> simp [hb]

/-- Dropping a span leaves none of its addresses. -/
theorem spansDrop_has (xs : List Span) (y : Span) (a : Nat) (h : y.has a = true) : spansHave (spansDrop xs y) a = false := by
  simp [h]

@[simp] theorem spansHave_spansDropAll (ys : List Span) : ∀ (xs : List Span) (a : Nat),
    spansHave (spansDropAll xs ys) a = (spansHave xs a && !spansHave ys a) := by
  unfold spansDropAll
  induction ys with
  | nil => intro xs a; simp
  | cons y ys ih =>
    intro xs a
    rw [List.foldl_cons, ih, spansHave_spansDrop, spansHave_cons]
    simp [Bool.and_assoc]

theorem span_inter_has (x y : Span) (a : Nat) : (x.inter y).has a = (x.has a && y.has a) := by
  rw [Bool.eq_iff_iff]
  simp only [Span.inter, Span.has, Bool.and_eq_true, decide_eq_true_eq, max_def, min_def]
  split_ifs <;> omega

@[simp] theorem spansHave_spansInter (xs : List Span) (y : Span) (a : Nat) :
    spansHave (spansInter xs y) a = (spansHave xs a && y.has a) := by
  induction xs with
  | nil => rfl
  | cons x xs ih =>
    unfold spansInter at *
    rw [List.map_cons, spansHave_cons, ih, span_inter_has, spansHave_cons, Bool.and_or_distrib_right]

/-- A span lies within its cache lines. -/
theorem span_lines_has (k : Nat) (x : Span) (a : Nat) (h : x.has a = true) : (x.lines k).has a = true := by
  simp only [Span.has, decide_eq_true_eq] at h
  unfold Span.lines
  rw [if_neg (by omega)]
  have hp : 0 < 2 ^ k := by positivity
  have h1 := Nat.div_mul_le_self x.base (2 ^ k)
  have h2 := Nat.lt_div_mul_add (a := x.base + x.size - 1) hp
  simp only [Span.has, decide_eq_true_eq, Nat.add_mul, Nat.one_mul]
  generalize x.base / 2 ^ k * 2 ^ k = lo at *
  generalize (x.base + x.size - 1) / 2 ^ k * 2 ^ k = hi at *
  generalize 2 ^ k = n at *
  omega

/-- The cache lines of a part of a span are among the span's. -/
theorem span_lines_mono (k : Nat) (x y : Span) (h : ∀ a, x.has a = true → y.has a = true) (a : Nat)
    (ha : (x.lines k).has a = true) :
    (y.lines k).has a = true := by
  unfold Span.lines at *
  by_cases hx : x.size = 0
  · rw [if_pos hx] at ha; simp [Span.has] at ha; omega
  rw [if_neg hx] at ha
  have h1 := h x.base (by simp [Span.has]; omega)
  have h2 := h (x.base + x.size - 1) (by simp [Span.has]; omega)
  simp only [Span.has, decide_eq_true_eq] at h1 h2 ha
  rw [if_neg (by omega)]
  have d1 : y.base / 2 ^ k ≤ x.base / 2 ^ k := Nat.div_le_div_right h1.1
  have d2 : (x.base + x.size - 1) / 2 ^ k ≤ (y.base + y.size - 1) / 2 ^ k := Nat.div_le_div_right (by omega)
  have m1 := Nat.mul_le_mul_right (2 ^ k) d1
  have m2 := Nat.mul_le_mul_right (2 ^ k) (Nat.add_le_add_right d2 1)
  have hle := Nat.mul_le_mul_right (2 ^ k) (Nat.div_le_div_right (c := 2 ^ k) (show x.base ≤ x.base + x.size - 1 by omega))
  simp only [Span.has, decide_eq_true_eq]
  simp only [Nat.add_mul, Nat.one_mul] at *
  generalize x.base / 2 ^ k * 2 ^ k = A at *
  generalize y.base / 2 ^ k * 2 ^ k = B at *
  generalize (x.base + x.size - 1) / 2 ^ k * 2 ^ k = C at *
  generalize (y.base + y.size - 1) / 2 ^ k * 2 ^ k = D at *
  generalize 2 ^ k = n at *
  omega

/-- A span shares a byte with one address exactly when it holds it. -/
theorem span_overlaps_one (x : Span) (a : Nat) : x.overlaps ⟨a, 1⟩ = x.has a := by
  unfold Span.overlaps Span.has
  exact decide_eq_decide.mpr ⟨fun ⟨_, _, h1, h2⟩ => ⟨Nat.lt_succ_iff.mp h1, h2⟩, fun ⟨h1, h2⟩ => ⟨by omega, by simp, Nat.lt_succ_iff.mpr h1, h2⟩⟩

/-! ## Free bytes over spans -/

theorem memFillSpans_wf (t : Site) (xs : List Span) : ∀ m : Memory, m.wf = true → (memFillSpans t xs m).wf = true := by
  induction xs with
  | nil => intro m h; exact h
  | cons x xs ih => intro m h; exact ih _ (memFillAny_wf _ _ _ _ h)

/-- Every byte of the spans holds its free value afterwards, and every other byte what it held. -/
theorem memRead_memFillSpans (t : Site) (a : Nat) (xs : List Span) : ∀ m : Memory, m.wf = true →
    memRead (memFillSpans t xs m) a = if spansHave xs a then Config.anyByte (a :: t) else memRead m a := by
  induction xs with
  | nil => intro m _; rfl
  | cons x xs ih =>
    intro m h
    rw [memFillSpans, ih _ (memFillAny_wf _ _ _ _ h), spansHave_cons]
    by_cases hx : x.has a = true
    · have hx' := hx
      simp only [Span.has, decide_eq_true_eq] at hx'
      rw [memRead_memFillAny_inside _ _ _ _ _ h hx'.1 hx'.2]
      simp [hx]
    · have hx' := hx
      simp only [Span.has, decide_eq_true_eq] at hx'
      rw [memRead_memFillAny_outside _ _ _ _ _ h (by omega)]
      simp [hx]

/-- Spans of addresses below a bound list no byte at or above it. -/
theorem memFillSpans_below {bound : Nat} (t : Site) (xs : List Span) : ∀ m : Memory, memBelow bound m →
    (∀ a, spansHave xs a = true → a < bound) → memBelow bound (memFillSpans t xs m) := by
  induction xs with
  | nil => intro m h _; exact h
  | cons x xs ih =>
    intro m h hb
    refine ih _ ?_ fun a ha => hb a (by simp [ha])
    rcases Nat.eq_zero_or_pos x.size with h0 | h0
    · rw [h0]; exact h
    · refine memFillAny_below _ _ _ _ h ?_
      have := hb (x.base + x.size - 1) (by simp [Span.has]; omega)
      omega

end Sys2Proof.Machine
end

