-- ==== Sys2Proof/Laws/Transforms.lean ====
section
/-!
SUPPORT. What a butterfly stage and a run of stages do, element by element (Machine/Transforms.lean,
41_transforms.md R160), and the sequence operations as the relations of Safety.lean.
-/

namespace Sys2Proof.Machine

theorem getD_append_first {α} (a b : List α) (d : α) (k : Nat) (h : k < a.length) : (a ++ b).getD k d = a.getD k d := by
  simp [List.getD_eq_getElem?_getD, List.getElem?_append_left h]

theorem getD_append_second {α} (a b : List α) (d : α) (k : Nat) (h : a.length ≤ k) : (a ++ b).getD k d = b.getD (k - a.length) d := by
  simp [List.getD_eq_getElem?_getD, List.getElem?_append_right h]

theorem getD_map_range {α} (n k : Nat) (f : Nat → α) (d : α) (h : k < n) : ((List.range n).map f).getD k d = f k := by
  simp [List.getD_eq_getElem?_getD, h]

/-- A stage applies the butterfly to elements j and j + h of each block. -/
theorem stage_getD (t : Site) (s : Direction) (h : Nat) (hh : 0 < h) : ∀ (G : Nat) (a : List C64), a.length = G * (2 * h) →
    ∀ g < G, ∀ j < h, ∃ u : Site,
      (stage t s h G a).getD (g * (2 * h) + j) zeroC = (butterfly u (a.getD (g * (2 * h) + j) zeroC) (a.getD (g * (2 * h) + j + h) zeroC) j (2 * h) s).1 ∧
      (stage t s h G a).getD (g * (2 * h) + j + h) zeroC = (butterfly u (a.getD (g * (2 * h) + j) zeroC) (a.getD (g * (2 * h) + j + h) zeroC) j (2 * h) s).2 := by
  intro G
  induction G with
  | zero => intro a _ g hg; omega
  | succ G ih =>
    intro a ha g hg j hj
    have e : (G + 1) * (2 * h) = G * (2 * h) + 2 * h := by ring
    have hl : (((a.take h).zip ((a.drop h).take h)).zipIdx).length = h := by
      simp; omega
    rw [stage]
    set P := (((a.take h).zip ((a.drop h).take h)).zipIdx).map fun e => butterfly (e.2 :: G :: t) e.1.1 e.1.2 e.2 (2 * h) s with hP
    have hPl : P.length = h := by rw [hP, List.length_map, hl]
    rcases Nat.eq_zero_or_pos g with rfl | hg0
    · have hget : P[j]? = some (butterfly (j :: G :: t) (a.getD j zeroC) (a.getD (j + h) zeroC) j (2 * h) s) := by
        have h1 : j < a.length := by omega
        have h2 : j + h < a.length := by omega
        have h3 : h + j < a.length := by omega
        rw [hP, List.getElem?_map, List.getElem?_eq_getElem (by rw [hl]; exact hj)]
        simp [List.getD_eq_getElem?_getD, h1, h2, Nat.add_comm h j]
      refine ⟨j :: G :: t, ?_, ?_⟩
      · simp only [Nat.zero_mul, Nat.zero_add]
        rw [List.append_assoc, getD_append_first _ _ _ _ (by simp [hPl, hj]), List.getD_eq_getElem?_getD, List.getElem?_map, hget]
        rfl
      · simp only [Nat.zero_mul, Nat.zero_add]
        rw [List.append_assoc, getD_append_second _ _ _ _ (by simp [hPl]), getD_append_first _ _ _ _ (by simp [hPl, hj]), List.getD_eq_getElem?_getD, List.getElem?_map]
        simp only [List.length_map, hPl, Nat.add_sub_cancel]
        rw [hget]; rfl
    · obtain ⟨g', rfl⟩ : ∃ g', g = g' + 1 := ⟨g - 1, by omega⟩
      have e' : (g' + 1) * (2 * h) = 2 * h + g' * (2 * h) := by ring
      have hd : (a.drop (2 * h)).length = G * (2 * h) := by rw [List.length_drop]; omega
      obtain ⟨u, hu1, hu2⟩ := ih _ hd g' (by omega) j hj
      have dr : ∀ k, (a.drop (2 * h)).getD k zeroC = a.getD (2 * h + k) zeroC := by
        intro k; simp [List.getD_eq_getElem?_getD]
      rw [dr, dr] at hu1 hu2
      have l2 : (List.map Prod.fst P ++ List.map Prod.snd P).length = 2 * h := by simp [hPl]; omega
      refine ⟨u, ?_, ?_⟩
      · rw [getD_append_second _ _ _ _ (by rw [l2]; omega), l2, e']
        rw [show 2 * h + g' * (2 * h) + j - 2 * h = g' * (2 * h) + j by omega, hu1]
        simp only [Nat.add_assoc]
      · rw [getD_append_second _ _ _ _ (by rw [l2]; omega), l2, e']
        rw [show 2 * h + g' * (2 * h) + j + h - 2 * h = g' * (2 * h) + j + h by omega, hu2]
        simp only [Nat.add_assoc]

/-- One more stage is the last one applied after the others. -/
theorem stages_succ (t : Site) (s : Direction) (n : Nat) : ∀ (b k : Nat) (a : List C64),
    stages t s n k (b + 1) a = stage ((k + b) :: t) s (2 ^ (k + b)) (n / 2 ^ (k + b + 1)) (stages t s n k b a) := by
  intro b
  induction b with
  | zero => intro k a; rfl
  | succ b ih =>
    intro k a
    rw [stages, ih, stages]
    rw [show k + 1 + b = k + (b + 1) by omega]

/-! ## The sequence operations as relations -/

/-- PMUL is the elementwise product of sequences of equal length. -/
theorem pmul_isProduct (t : Site) (A B : List C64) (h : A.length = B.length) : IsProduct A B (pmul t A B) := by
  refine ⟨by rw [pmul_length]; omega, fun k hk => ⟨k :: t, ?_⟩⟩
  have hk' : k < B.length := by omega
  simp [pmul, List.getD_eq_getElem?_getD, hk, hk']

/-- Dividing the first n elements of q by d. -/
theorem divAll_isQuotient (t : Site) (q : List C64) (n d : Nat) (h : n ≤ q.length) :
    IsQuotient q (divAll t (q.take n) d) n d := by
  refine ⟨by rw [divAll_length, List.length_take]; omega, fun k hk => ⟨k :: t, ?_⟩⟩
  have hk' : k < q.length := by omega
  simp [divAll, List.getD_eq_getElem?_getD, hk, hk']

/-- The model's circular convolution is CC. -/
theorem circular_isCircular (t : Site) (a b : Operand) (h : b.length = a.length) : IsCircular a b (circular t a b) := by
  have la := xform_auto_length (0 :: t) a .forward
  have lb := xform_auto_length (1 :: t) b .forward
  by_cases h0 : a.length = 0
  · have e : circular t a b = [] := by unfold circular; rw [if_pos h0]
    refine ⟨0 :: t, 1 :: t, 3 :: t, _, pmul_isProduct (2 :: t) _ _ (by rw [la, lb, h]), by rw [e, h0]; rfl,
      fun k hk => ?_⟩
    rw [h0] at hk
    omega
  · have lq := xform_auto_length (3 :: t)
      (.complex (pmul (2 :: t) (xform (0 :: t) a .forward .auto) (xform (1 :: t) b .forward .auto))) .inverse
    rw [Operand.length_complex, pmul_length, la, lb, h, min_self] at lq
    refine ⟨0 :: t, 1 :: t, 3 :: t, _, pmul_isProduct (2 :: t) _ _ (by rw [la, lb, h]), ?_⟩
    have hq := divAll_isQuotient (4 :: t) _ a.length a.length lq.ge
    rw [List.take_of_length_le lq.le] at hq
    unfold circular
    rw [if_neg h0]
    exact hq

end Sys2Proof.Machine
end

