-- ==== Sys2Proof/Laws/NaN.lean ====
section
/-!
SUPPORT. NaN bits do not spread (spec/40_datapath.md R121): operands that are the same but for NaN bits give results
that are the same but for NaN bits, whatever the sites, through every unit, engine and convolution.
-/

namespace Sys2Proof.Machine

/-! ## Values -/

theorem SameButNaN.refl (x : F64) : SameButNaN x x := .inl rfl

theorem SameButNaN.isNaN_eq {x y : F64} (h : SameButNaN x y) : isNaN x = isNaN y := by
  rcases h with rfl | ⟨h1, h2⟩
  · rfl
  · rw [h1, h2]

theorem SameButNaN.negF {x y : F64} (h : SameButNaN x y) : SameButNaN (negF x) (negF y) := by
  rcases h with rfl | ⟨h1, h2⟩
  · exact .inl rfl
  · exact .inr ⟨by simpa using h1, by simpa using h2⟩

theorem sameButNaN_nanF (t t' : Site) : SameButNaN (nanF t) (nanF t') := .inr ⟨isNaN_nanF t, isNaN_nanF t'⟩

/-- An operation that gives a NaN for a NaN operand, and depends on its site in NaN bits alone. -/
theorem sameButNaN_op {f : Site → F64 → F64 → F64} (hn : ∀ t a b, isNaN a = true ∨ isNaN b = true → f t a b = nanF t)
    (hs : ∀ t t' a b, SameButNaN (f t a b) (f t' a b)) {t t' : Site} {a a' b b' : F64} (ha : SameButNaN a a')
    (hb : SameButNaN b b') : SameButNaN (f t a b) (f t' a' b') := by
  have both : (isNaN a = true ∨ isNaN b = true) → SameButNaN (f t a b) (f t' a' b') := fun h => by
    rw [hn t a b h, hn t' a' b' (by rwa [← ha.isNaN_eq, ← hb.isNaN_eq])]
    exact sameButNaN_nanF t t'
  rcases ha with rfl | ⟨h, -⟩
  · rcases hb with rfl | ⟨h, -⟩
    · exact hs t t' a b
    · exact both (.inr h)
  · exact both (.inl h)

theorem addF_same {t t' : Site} {a a' b b' : F64} (ha : SameButNaN a a') (hb : SameButNaN b b') :
    SameButNaN (addF t a b) (addF t' a' b') := by
  refine sameButNaN_op (fun t a b h => by rcases h with h | h <;> simp [addF, h]) (fun t t' a b => ?_) ha hb
  unfold addF
  simp only
  split_ifs <;> first | with_reducible exact sameButNaN_nanF t t' | with_reducible exact SameButNaN.refl _

theorem subF_same {t t' : Site} {a a' b b' : F64} (ha : SameButNaN a a') (hb : SameButNaN b b') :
    SameButNaN (subF t a b) (subF t' a' b') := addF_same ha hb.negF

theorem mulF_same {t t' : Site} {a a' b b' : F64} (ha : SameButNaN a a') (hb : SameButNaN b b') :
    SameButNaN (mulF t a b) (mulF t' a' b') := by
  refine sameButNaN_op (fun t a b h => by rcases h with h | h <;> simp [mulF, h]) (fun t t' a b => ?_) ha hb
  unfold mulF
  simp only
  split_ifs <;> first | with_reducible exact sameButNaN_nanF t t' | with_reducible exact SameButNaN.refl _

theorem divF_same {t t' : Site} {a a' b b' : F64} (ha : SameButNaN a a') (hb : SameButNaN b b') :
    SameButNaN (divF t a b) (divF t' a' b') := by
  refine sameButNaN_op (fun t a b h => by rcases h with h | h <;> simp [divF, h]) (fun t t' a b => ?_) ha hb
  unfold divF
  simp only
  split_ifs <;> first | with_reducible exact sameButNaN_nanF t t' | with_reducible exact SameButNaN.refl _

theorem halfF_same {t t' : Site} {x y : F64} (h : SameButNaN x y) : SameButNaN (halfF t x) (halfF t' y) :=
  mulF_same h (.refl _)

/-! ## Complex values -/

/-- Equal bit for bit in both parts, except for NaN bits. -/
def SameC (p q : C64) : Prop := SameButNaN p.re q.re ∧ SameButNaN p.im q.im

theorem SameC.refl (p : C64) : SameC p p := ⟨.refl _, .refl _⟩

theorem cadd_same {t t' : Site} {p p' q q' : C64} (hp : SameC p p') (hq : SameC q q') :
    SameC (cadd t p q) (cadd t' p' q') := ⟨addF_same hp.1 hq.1, addF_same hp.2 hq.2⟩

theorem csub_same {t t' : Site} {p p' q q' : C64} (hp : SameC p p') (hq : SameC q q') :
    SameC (csub t p q) (csub t' p' q') := ⟨subF_same hp.1 hq.1, subF_same hp.2 hq.2⟩

theorem cmul_same {t t' : Site} {p p' q q' : C64} (hp : SameC p p') (hq : SameC q q') :
    SameC (cmul t p q) (cmul t' p' q') :=
  ⟨subF_same (mulF_same hp.1 hq.1) (mulF_same hp.2 hq.2), addF_same (mulF_same hp.1 hq.2) (mulF_same hp.2 hq.1)⟩

theorem cdivn_same {t t' : Site} {p p' : C64} (hp : SameC p p') (d : Nat) : SameC (cdivn t p d) (cdivn t' p' d) :=
  ⟨divF_same hp.1 (.refl _), divF_same hp.2 (.refl _)⟩

theorem butterfly_same {t t' : Site} {u u' v v' : C64} (hu : SameC u u') (hv : SameC v v') (j m : Nat) (s : Direction) :
    SameC (butterfly t u v j m s).1 (butterfly t' u' v' j m s).1 ∧
    SameC (butterfly t u v j m s).2 (butterfly t' u' v' j m s).2 := by
  unfold butterfly
  simp only
  split_ifs
  · exact ⟨cadd_same hu hv, csub_same hu hv⟩
  · exact ⟨cadd_same hu (cmul_same (.refl _) hv), csub_same hu (cmul_same (.refl _) hv)⟩

theorem rrec_same {t t' : Site} {a a' c c' : C64} (ha : SameC a a') (hc : SameC c c') (k N : Nat) (s : Direction) :
    SameC (rrec t a c k N s).1 (rrec t' a' c' k N s).1 ∧ SameC (rrec t a c k N s).2 (rrec t' a' c' k N s).2 := by
  have hw : ∀ u u' : Site, SameC (cmul u (gen k N s) ⟨halfF (4 :: t) (addF (5 :: t) a.im c.im), halfF (6 :: t) (subF (7 :: t) c.re a.re)⟩)
      (cmul u' (gen k N s) ⟨halfF (4 :: t') (addF (5 :: t') a'.im c'.im), halfF (6 :: t') (subF (7 :: t') c'.re a'.re)⟩) :=
    fun _ _ => cmul_same (.refl _) ⟨halfF_same (addF_same ha.2 hc.2), halfF_same (subF_same hc.1 ha.1)⟩
  have hr := addF_same (t := 9 :: t) (t' := 9 :: t') (halfF_same (t := 0 :: t) (t' := 0 :: t') (addF_same (t := 1 :: t) (t' := 1 :: t') ha.1 hc.1))
    (hw (8 :: t) (8 :: t')).1
  have hi := addF_same (t := 10 :: t) (t' := 10 :: t') (halfF_same (t := 2 :: t) (t' := 2 :: t') (subF_same (t := 3 :: t) (t' := 3 :: t') ha.2 hc.2))
    (hw (8 :: t) (8 :: t')).2
  exact ⟨⟨hr, hi⟩, hr, hi.negF⟩

/-! ## Sequences -/

/-- Sequences of one length, equal element by element except for NaN bits. -/
abbrev SameList : List C64 → List C64 → Prop := List.Forall₂ SameC

theorem SameList.refl (x : List C64) : SameList x x := List.forall₂_same.mpr fun p _ => SameC.refl p

theorem SameList.getD : ∀ {x y : List C64}, SameList x y → ∀ k, SameC (x.getD k zeroC) (y.getD k zeroC)
  | _, _, .nil, _ => SameC.refl _
  | _, _, .cons h _, 0 => by simpa using h
  | _, _, .cons _ h, k + 1 => by simpa using SameList.getD h k

theorem forall₂_zip {α β γ δ} {R : α → β → Prop} {S : γ → δ → Prop} : ∀ {a : List α} {b : List β} {c : List γ} {d : List δ},
    List.Forall₂ R a b → List.Forall₂ S c d → List.Forall₂ (fun p q => R p.1 q.1 ∧ S p.2 q.2) (a.zip c) (b.zip d)
  | _, _, _, _, .nil, _ => by simp
  | _, _, _, _, .cons _ _, .nil => by simp
  | _, _, _, _, .cons h t, .cons h' t' => .cons ⟨h, h'⟩ (forall₂_zip t t')

theorem forall₂_zipIdx_map {α β γ δ} {R : α → β → Prop} {S : γ → δ → Prop} {f : α × Nat → γ} {g : β × Nat → δ}
    (h : ∀ i x y, R x y → S (f (x, i)) (g (y, i))) : ∀ {a : List α} {b : List β} (n : Nat), List.Forall₂ R a b →
    List.Forall₂ S ((a.zipIdx n).map f) ((b.zipIdx n).map g)
  | _, _, _, .nil => .nil
  | _, _, n, .cons hx t => by
    simp only [List.zipIdx_cons, List.map_cons]
    exact .cons (h n _ _ hx) (forall₂_zipIdx_map h (n + 1) t)

theorem forall₂_map {α β γ δ} {R : α → β → Prop} {S : γ → δ → Prop} {f : α → γ} {g : β → δ}
    (h : ∀ x y, R x y → S (f x) (g y)) {a : List α} {b : List β} (hab : List.Forall₂ R a b) :
    List.Forall₂ S (a.map f) (b.map g) := by
  rw [List.forall₂_map_left_iff, List.forall₂_map_right_iff]
  exact hab.imp h

theorem forall₂_map_same {α γ δ} {S : γ → δ → Prop} {f : α → γ} {g : α → δ} (a : List α) (h : ∀ x, S (f x) (g x)) :
    List.Forall₂ S (a.map f) (a.map g) := forall₂_map (R := Eq) (fun x _ e => e ▸ h x) (List.forall₂_eq_eq_eq ▸ rfl)

theorem pmul_same {t t' : Site} {a a' b b' : List C64} (ha : SameList a a') (hb : SameList b b') :
    SameList (pmul t a b) (pmul t' a' b') :=
  forall₂_zipIdx_map (fun _ _ _ h => cmul_same h.1 h.2) 0 (forall₂_zip ha hb)

theorem divAll_same {t t' : Site} {x y : List C64} (h : SameList x y) (d : Nat) :
    SameList (divAll t x d) (divAll t' y d) := forall₂_zipIdx_map (fun _ _ _ h => cdivn_same h d) 0 h

theorem append_same {a a' b b' : List C64} (ha : SameList a a') (hb : SameList b b') : SameList (a ++ b) (a' ++ b') :=
  List.rel_append ha hb

theorem padComplex_same {x y : List C64} (h : SameList x y) (l : Nat) : SameList (padComplex x l) (padComplex y l) := by
  unfold padComplex
  rw [h.length_eq]
  exact append_same h (.refl _)

theorem bitReverse_same {x y : List C64} (h : SameList x y) : SameList (bitReverse x) (bitReverse y) := by
  unfold bitReverse
  rw [h.length_eq]
  exact forall₂_map_same _ fun i => h.getD _

/-! ## The engines -/

theorem stage_same {t t' : Site} (s : Direction) (h : Nat) : ∀ (g : Nat) {a b : List C64}, SameList a b →
    SameList (stage t s h g a) (stage t' s h g b)
  | 0, _, _, hab => hab
  | g + 1, a, b, hab => by
    have hp : List.Forall₂ (fun p q : C64 × C64 => SameC p.1 q.1 ∧ SameC p.2 q.2)
        ((((a.take h).zip ((a.drop h).take h)).zipIdx).map fun e => butterfly (e.2 :: g :: t) e.1.1 e.1.2 e.2 (2 * h) s)
        ((((b.take h).zip ((b.drop h).take h)).zipIdx).map fun e => butterfly (e.2 :: g :: t') e.1.1 e.1.2 e.2 (2 * h) s) :=
      forall₂_zipIdx_map (fun _ _ _ h => butterfly_same h.1 h.2 _ _ _) 0
        (forall₂_zip (List.forall₂_take _ hab) (List.forall₂_take _ (List.forall₂_drop _ hab)))
    exact append_same (append_same (forall₂_map (fun _ _ h => h.1) hp) (forall₂_map (fun _ _ h => h.2) hp))
      (stage_same s h g (List.forall₂_drop _ hab))

theorem stages_same {t t' : Site} (s : Direction) (n : Nat) : ∀ (b k : Nat) {x y : List C64}, SameList x y →
    SameList (stages t s n k b x) (stages t' s n k b y)
  | 0, _, _, _, h => h
  | b + 1, k, _, _, h => stages_same s n b (k + 1) (stage_same s _ _ h)

theorem r2c_same {t t' : Site} {x y : List C64} (h : SameList x y) (s : Direction) :
    SameList (r2c t x s) (r2c t' y s) := by
  unfold r2c
  rw [h.length_eq]
  split_ifs
  · exact h
  · exact stages_same s _ _ _ (bitReverse_same h)

theorem unpackReal_same {t t' : Site} {z w : List C64} (h : SameList z w) (n : Nat) (s : Direction) :
    SameList (unpackReal t z n s) (unpackReal t' w n s) := by
  have hr : List.Forall₂ (fun p q : C64 × C64 => SameC p.1 q.1 ∧ SameC p.2 q.2)
      ((List.range (n / 2 - 1)).map fun i =>
        rrec (i :: 1 :: t) (z.getD (i + 1) zeroC) (z.getD (n / 2 - (i + 1)) zeroC) (i + 1) n s)
      ((List.range (n / 2 - 1)).map fun i =>
        rrec (i :: 1 :: t') (w.getD (i + 1) zeroC) (w.getD (n / 2 - (i + 1)) zeroC) (i + 1) n s) :=
    forall₂_map_same _ fun i => rrec_same (h.getD _) (h.getD _) _ _ _
  exact append_same
    (.cons ⟨addF_same (h.getD 0).1 (h.getD 0).2, .refl _⟩ (forall₂_map (fun _ _ h => h.1) hr))
    (.cons ⟨subF_same (h.getD 0).1 (h.getD 0).2, .refl _⟩ (List.rel_reverse (forall₂_map (fun _ _ h => h.2) hr)))

theorem r2r_same {t t' : Site} (x : List F64) (s : Direction) : SameList (r2r t x s) (r2r t' x s) := by
  unfold r2r
  split_ifs
  · exact .refl _
  · exact unpackReal_same (r2c_same (.refl _) s) _ s

theorem bluestein_same {t t' : Site} {x y : List C64} (h : SameList x y) (s : Direction) :
    SameList (bluestein t x s) (bluestein t' y s) := by
  unfold bluestein
  simp only [h.length_eq]
  split_ifs
  · exact h
  · exact pmul_same (.refl _) (divAll_same (List.forall₂_take _ (r2c_same (pmul_same
      (r2c_same (padComplex_same (pmul_same h (.refl _)) _) _) (r2c_same (.refl _) _)) _)) _)

/-! ## The commands -/

/-- Operands of one format, equal except for the NaN bits of complex elements. -/
inductive SameOperand : Operand → Operand → Prop where
  | same (x : Operand) : SameOperand x x
  | complex {x y : List C64} (h : SameList x y) : SameOperand (.complex x) (.complex y)

theorem SameOperand.length_eq {x y : Operand} (h : SameOperand x y) : x.length = y.length := by
  cases h with
  | same => rfl
  | complex h => exact h.length_eq

theorem xform_same {t t' : Site} {x y : Operand} (h : SameOperand x y) (s : Direction) (e : Engine) :
    SameList (xform t x s e) (xform t' y s e) := by
  have complex : ∀ {x y : List C64}, SameList x y → SameList (xform t (.complex x) s e) (xform t' (.complex y) s e) :=
    fun h => by
      unfold xform
      simp only [h.length_eq]
      split_ifs
      · exact r2c_same h s
      · exact bluestein_same h s
  cases h with
  | complex h => exact complex h
  | same x =>
    cases x with
    | complex x => exact complex (.refl x)
    | real x =>
      unfold xform
      simp only
      split_ifs
      · exact r2r_same x s
      · exact bluestein_same (.refl _) s

theorem hermPost_same (herm : Bool) {x y : List C64} (h : SameList x y) : SameList (hermPost herm x) (hermPost herm y) := by
  unfold hermPost
  split_ifs
  · exact forall₂_map (fun _ _ h => ⟨h.1, .refl _⟩) h
  · exact h

theorem circular_same {t t' : Site} {a a' b b' : Operand} (ha : SameOperand a a') (hb : SameOperand b b') :
    SameList (circular t a b) (circular t' a' b') := by
  unfold circular
  simp only [ha.length_eq]
  split_ifs
  · exact .nil
  · exact divAll_same (xform_same (.complex (pmul_same (xform_same ha _ _) (xform_same hb _ _))) _ _) _

theorem complexWords_same {x y : List C64} (h : SameList x y) :
    List.Forall₂ SameButNaN (Operand.complex x).words (Operand.complex y).words := by
  induction h with
  | nil => exact .nil
  | cons h _ ih => exact .cons h.1 (.cons h.2 ih)

theorem convResult_same (a b : Operand) {x y : List C64} (h : SameList x y) :
    List.Forall₂ SameButNaN (convResult a b x).words (convResult a b y).words := by
  unfold convResult
  split_ifs
  · exact forall₂_map (fun _ _ h => h.1) h
  · exact complexWords_same h

/-- The result of a command depends on its sites in NaN bits alone. -/
theorem commandResult_same (i : Instr) (t t' : Site) (a b : Operand) :
    List.Forall₂ SameButNaN (commandResult i t a b).words (commandResult i t' a b).words := by
  cases i with
  | fft | fftR2 | fftBl => exact complexWords_same (xform_same (.same a) _ _)
  | ifft _ herm | ifftR2 _ herm | ifftBl _ herm => exact complexWords_same (hermPost_same herm (xform_same (.same a) _ _))
  | conv =>
    unfold commandResult convLinear
    simp only
    split_ifs
    · exact convResult_same a b .nil
    · exact convResult_same a b (divAll_same (List.forall₂_take _ (xform_same (.complex
        (pmul_same (xform_same (.same _) _ _) (xform_same (.same _) _ _))) _ _)) _)
  | cconv => exact convResult_same a b (circular_same (.same a) (.same b))
  | nconv =>
    exact convResult_same a b (pmul_same (circular_same (.complex (pmul_same (.refl _) (.refl _)))
      (.complex (pmul_same (.refl _) (.refl _)))) (.refl _))

end Sys2Proof.Machine
end

