-- ==== Sys2Proof/Laws/PerInstr.lean ====
section
/-!
SUPPORT. The family Row, constructor by constructor: the word of every command is legal and selects the row of
the opcode map that carries the command's mnemonic, and no other row (30_encoding.md R95, R96).
-/

namespace Sys2Proof.Laws.Row

/-- The command's fields pass R96, and of the rows of R95 its word selects exactly its own. -/
def Statement (i : Instr) : Prop :=
  i.wf = true ∧ (opcodeRows.filter fun r => r.selects (encode i)).map OpcodeRow.mnemonic = [i.mnemonic]

theorem fft (fa : Fmt) : Statement (.fft fa) := by cases fa <;> (unfold Statement; decide)

theorem fftR2 (fa : Fmt) : Statement (.fftR2 fa) := by cases fa <;> (unfold Statement; decide)

theorem fftBl (fa : Fmt) : Statement (.fftBl fa) := by cases fa <;> (unfold Statement; decide)

theorem ifft (fa : Fmt) (herm : Bool) : Statement (.ifft fa herm) := by cases fa <;> cases herm <;> (unfold Statement; decide)

theorem ifftR2 (fa : Fmt) (herm : Bool) : Statement (.ifftR2 fa herm) := by cases fa <;> cases herm <;> (unfold Statement; decide)

theorem ifftBl (fa : Fmt) (herm : Bool) : Statement (.ifftBl fa herm) := by cases fa <;> cases herm <;> (unfold Statement; decide)

theorem conv (fa fb : Fmt) : Statement (.conv fa fb) := by cases fa <;> cases fb <;> (unfold Statement; decide)

theorem cconv (fa fb : Fmt) : Statement (.cconv fa fb) := by cases fa <;> cases fb <;> (unfold Statement; decide)

theorem nconv (fa fb : Fmt) : Statement (.nconv fa fb) := by cases fa <;> cases fb <;> (unfold Statement; decide)

end Sys2Proof.Laws.Row
end

