-- ==== Sys2Proof/Laws/Pi.lean ====
section
/-!
SUPPORT. The values for π that the generator uses are π's (Machine/Trig.lean `piBits`, `piBelow`, log 8): Machin's
formula with exact partial sums of the arctangent series.
-/

namespace Sys2Proof.Machine

theorem arctanSum_eq (k : Rat) : ∀ n i, ((arctanSum k n i : ℚ) : ℝ) =
    ∑ j ∈ Finset.range n, (-1 : ℝ) ^ (i + j) * ((1 / (k : ℝ)) ^ (2 * (i + j) + 1) / (2 * (i + j : ℕ) + 1)) := by
  intro n
  induction n with
  | zero => intro i; simp [arctanSum]
  | succ n ih =>
    intro i
    rw [arctanSum, Rat.cast_add, ih, Finset.sum_range_succ']
    simp only [Nat.add_zero, Nat.add_assoc, Nat.add_comm 1]
    push_cast
    ring

theorem arctan_bounds (k : Rat) (hk : 1 < k) (n : Nat) :
    ((arctanSum k (2 * n) 0 : ℚ) : ℝ) ≤ Real.arctan (1 / (k : ℝ)) ∧
      Real.arctan (1 / (k : ℝ)) ≤ ((arctanSum k (2 * n + 1) 0 : ℚ) : ℝ) := by
  have hk' : (1 : ℝ) < k := by exact_mod_cast hk
  have h0 : (0 : ℝ) < 1 / (k : ℝ) := by positivity
  have h1 : 1 / (k : ℝ) < 1 := by rw [div_lt_one (by linarith)]; exact hk'
  have hs := (Real.hasSum_arctan (x := 1 / (k : ℝ))
    (by rw [Real.norm_eq_abs, abs_of_pos h0]; exact h1)).tendsto_sum_nat
  simp only [mul_div_assoc] at hs
  have ha : Antitone fun i : ℕ => (1 / (k : ℝ)) ^ (2 * i + 1) / ((2 * i + 1 : ℕ) : ℝ) := by
    refine antitone_nat_of_succ_le fun i => ?_
    have hp : (1 / (k : ℝ)) ^ (2 * (i + 1) + 1) ≤ (1 / (k : ℝ)) ^ (2 * i + 1) :=
      pow_le_pow_of_le_one h0.le h1.le (by omega)
    gcongr
    omega
  constructor
  · have := ha.alternating_series_le_tendsto hs n
    rw [arctanSum_eq]
    simpa using this
  · have := ha.tendsto_le_alternating_series hs n
    rw [arctanSum_eq]
    simpa using this

theorem pi_machin : Real.pi = 16 * Real.arctan (1 / ((5 : ℚ) : ℝ)) - 4 * Real.arctan (1 / ((239 : ℚ) : ℝ)) := by
  have := Real.four_mul_arctan_inv_5_sub_arctan_inv_239
  push_cast
  rw [one_div, one_div]
  linarith

/-- `piBelow` is at most π and within 4·2^-4n of it. -/
theorem piBelow_bounds (n : Nat) : (piBelow n : ℝ) ≤ Real.pi ∧ Real.pi ≤ piBelow n + 4 / 2 ^ (4 * n) := by
  have h5 := arctan_bounds 5 (by norm_num) n
  have h239 := arctan_bounds 239 (by norm_num) n
  have hv : (piBelow n : ℝ) =
      16 * ((arctanSum 5 (2 * n) 0 : ℚ) : ℝ) - 4 * ((arctanSum 239 (2 * n + 1) 0 : ℚ) : ℝ) := by
    unfold piBelow; push_cast; ring
  have last : ∀ k : ℚ, 0 < k → ((arctanSum k (2 * n + 1) 0 : ℚ) : ℝ) ≤
      ((arctanSum k (2 * n) 0 : ℚ) : ℝ) + (1 / (k : ℝ)) ^ (4 * n + 1) := by
    intro k hk
    have hk' : (0 : ℝ) < k := by exact_mod_cast hk
    rw [arctanSum_eq, arctanSum_eq, Finset.sum_range_succ]
    refine add_le_add le_rfl ?_
    rw [Nat.zero_add, Even.neg_one_pow ⟨n, by ring⟩, one_mul, show 2 * (2 * n) + 1 = 4 * n + 1 by ring]
    refine div_le_self (by positivity) ?_
    have : (0 : ℝ) ≤ 2 * ((2 * n : ℕ) : ℝ) := by positivity
    linarith
  have l5 := last 5 (by norm_num)
  have l239 := last 239 (by norm_num)
  have small : ∀ k : ℝ, 2 ≤ k → (1 / k) ^ (4 * n + 1) ≤ 1 / 2 ^ (4 * n) * (1 / k) := by
    intro k hk
    rw [pow_succ, ← one_div_pow]
    gcongr
  have s5 := small 5 (by norm_num)
  have s239 := small 239 (by norm_num)
  have hp : (0 : ℝ) < 1 / 2 ^ (4 * n) := by positivity
  rw [pi_machin, hv, show (4 : ℝ) / 2 ^ (4 * n) = 4 * (1 / 2 ^ (4 * n)) by ring]
  generalize (1 : ℝ) / 2 ^ (4 * n) = e at *
  simp only [Rat.cast_ofNat] at *
  constructor <;> linarith

theorem piBits_low : (piBits : ℚ) / 2 ^ 256 ≤ 16 * arctanSum 5 (2 * 60) 0 - 4 * arctanSum 239 (2 * 20 + 1) 0 := by
  decide +kernel

theorem piBits_high : 16 * arctanSum 5 (2 * 60 + 1) 0 - 4 * arctanSum 239 (2 * 20) 0 < ((piBits : ℚ) + 1) / 2 ^ 256 := by
  decide +kernel

/-- `piBits` is ⌊π·2^256⌋. -/
theorem piBits_bounds : (piBits : ℝ) / 2 ^ 256 ≤ Real.pi ∧ Real.pi < ((piBits : ℝ) + 1) / 2 ^ 256 := by
  have h5 := arctan_bounds 5 (by norm_num) 60
  have h239 := arctan_bounds 239 (by norm_num) 20
  have lo : (((piBits : ℚ) / 2 ^ 256 : ℚ) : ℝ) ≤ ((16 * arctanSum 5 (2 * 60) 0 - 4 * arctanSum 239 (2 * 20 + 1) 0 : ℚ) : ℝ) := by
    exact_mod_cast piBits_low
  have hi : ((16 * arctanSum 5 (2 * 60 + 1) 0 - 4 * arctanSum 239 (2 * 20) 0 : ℚ) : ℝ) < ((((piBits : ℚ) + 1) / 2 ^ 256 : ℚ) : ℝ) := by
    exact_mod_cast piBits_high
  rw [pi_machin]
  rw [Rat.cast_sub, Rat.cast_mul, Rat.cast_mul] at lo hi
  rw [Rat.cast_div, Rat.cast_pow] at lo hi
  rw [Rat.cast_add] at hi
  simp only [Rat.cast_ofNat, Rat.cast_natCast, Rat.cast_one] at lo hi ⊢
  simp only [Rat.cast_ofNat] at h5 h239
  constructor <;> linarith [h5.1, h5.2, h239.1, h239.2]

end Sys2Proof.Machine
end

