-- ==== Sys2Proof/Laws/State.lean ====
section
/-!
SUPPORT. One lemma for each field under each named update of State (Machine/Ops.lean), so that no later proof
unfolds a record update.
-/

namespace Sys2Proof.Machine

/-! ## State.withMem -/

@[simp] theorem State.withMem_platform (s : State) (m : Memory) : (s.withMem m).platform = s.platform := rfl
@[simp] theorem State.withMem_seq (s : State) (m : Memory) : (s.withMem m).seq = s.seq := rfl
@[simp] theorem State.withMem_err (s : State) (m : Memory) : (s.withMem m).err = s.err := rfl
@[simp] theorem State.withMem_cmd (s : State) (m : Memory) : (s.withMem m).cmd = s.cmd := rfl
@[simp] theorem State.withMem_lenA (s : State) (m : Memory) : (s.withMem m).lenA = s.lenA := rfl
@[simp] theorem State.withMem_lenB (s : State) (m : Memory) : (s.withMem m).lenB = s.lenB := rfl
@[simp] theorem State.withMem_outLen (s : State) (m : Memory) : (s.withMem m).outLen = s.outLen := rfl
@[simp] theorem State.withMem_srcALo (s : State) (m : Memory) : (s.withMem m).srcALo = s.srcALo := rfl
@[simp] theorem State.withMem_srcAHi (s : State) (m : Memory) : (s.withMem m).srcAHi = s.srcAHi := rfl
@[simp] theorem State.withMem_srcBLo (s : State) (m : Memory) : (s.withMem m).srcBLo = s.srcBLo := rfl
@[simp] theorem State.withMem_srcBHi (s : State) (m : Memory) : (s.withMem m).srcBHi = s.srcBHi := rfl
@[simp] theorem State.withMem_dstLo (s : State) (m : Memory) : (s.withMem m).dstLo = s.dstLo := rfl
@[simp] theorem State.withMem_dstHi (s : State) (m : Memory) : (s.withMem m).dstHi = s.dstHi := rfl
@[simp] theorem State.withMem_irqEn (s : State) (m : Memory) : (s.withMem m).irqEn = s.irqEn := rfl
@[simp] theorem State.withMem_irqStat (s : State) (m : Memory) : (s.withMem m).irqStat = s.irqStat := rfl
@[simp] theorem State.withMem_errAddr (s : State) (m : Memory) : (s.withMem m).errAddr = s.errAddr := rfl
@[simp] theorem State.withMem_mem (s : State) (m : Memory) : (s.withMem m).mem = m := rfl
@[simp] theorem State.withMem_raced (s : State) (m : Memory) : (s.withMem m).raced = s.raced := rfl
@[simp] theorem State.withMem_unclean (s : State) (m : Memory) : (s.withMem m).unclean = s.unclean := rfl
@[simp] theorem State.withMem_stale (s : State) (m : Memory) : (s.withMem m).stale = s.stale := rfl
@[simp] theorem State.withMem_unseen (s : State) (m : Memory) : (s.withMem m).unseen = s.unseen := rfl
@[simp] theorem State.withMem_peers (s : State) (m : Memory) : (s.withMem m).peers = s.peers := rfl
@[simp] theorem State.withMem_script (s : State) (m : Memory) : (s.withMem m).script = s.script := rfl
@[simp] theorem State.withMem_hostData (s : State) (m : Memory) : (s.withMem m).hostData = s.hostData := rfl
@[simp] theorem State.withMem_draws (s : State) (m : Memory) : (s.withMem m).draws = s.draws := rfl

/-! ## State.enterError -/

@[simp] theorem State.enterError_platform (s : State) (e : ErrCode) (a : Addr) : (s.enterError e a).platform = s.platform := rfl
@[simp] theorem State.enterError_seq (s : State) (e : ErrCode) (a : Addr) : (s.enterError e a).seq = .error := rfl
@[simp] theorem State.enterError_err (s : State) (e : ErrCode) (a : Addr) : (s.enterError e a).err = e := rfl
@[simp] theorem State.enterError_cmd (s : State) (e : ErrCode) (a : Addr) : (s.enterError e a).cmd = s.cmd := rfl
@[simp] theorem State.enterError_lenA (s : State) (e : ErrCode) (a : Addr) : (s.enterError e a).lenA = s.lenA := rfl
@[simp] theorem State.enterError_lenB (s : State) (e : ErrCode) (a : Addr) : (s.enterError e a).lenB = s.lenB := rfl
@[simp] theorem State.enterError_outLen (s : State) (e : ErrCode) (a : Addr) : (s.enterError e a).outLen = 0 := rfl
@[simp] theorem State.enterError_srcALo (s : State) (e : ErrCode) (a : Addr) : (s.enterError e a).srcALo = s.srcALo := rfl
@[simp] theorem State.enterError_srcAHi (s : State) (e : ErrCode) (a : Addr) : (s.enterError e a).srcAHi = s.srcAHi := rfl
@[simp] theorem State.enterError_srcBLo (s : State) (e : ErrCode) (a : Addr) : (s.enterError e a).srcBLo = s.srcBLo := rfl
@[simp] theorem State.enterError_srcBHi (s : State) (e : ErrCode) (a : Addr) : (s.enterError e a).srcBHi = s.srcBHi := rfl
@[simp] theorem State.enterError_dstLo (s : State) (e : ErrCode) (a : Addr) : (s.enterError e a).dstLo = s.dstLo := rfl
@[simp] theorem State.enterError_dstHi (s : State) (e : ErrCode) (a : Addr) : (s.enterError e a).dstHi = s.dstHi := rfl
@[simp] theorem State.enterError_irqEn (s : State) (e : ErrCode) (a : Addr) : (s.enterError e a).irqEn = s.irqEn := rfl
@[simp] theorem State.enterError_irqStat (s : State) (e : ErrCode) (a : Addr) : (s.enterError e a).irqStat = s.irqStat ||| 2 := rfl
@[simp] theorem State.enterError_errAddr (s : State) (e : ErrCode) (a : Addr) : (s.enterError e a).errAddr = a := rfl
@[simp] theorem State.enterError_mem (s : State) (e : ErrCode) (a : Addr) : (s.enterError e a).mem = s.mem := rfl
@[simp] theorem State.enterError_raced (s : State) (e : ErrCode) (a : Addr) : (s.enterError e a).raced = s.raced := rfl
@[simp] theorem State.enterError_unclean (s : State) (e : ErrCode) (a : Addr) : (s.enterError e a).unclean = s.unclean := rfl
@[simp] theorem State.enterError_stale (s : State) (e : ErrCode) (a : Addr) : (s.enterError e a).stale = s.stale := rfl
@[simp] theorem State.enterError_unseen (s : State) (e : ErrCode) (a : Addr) : (s.enterError e a).unseen = s.unseen := rfl
@[simp] theorem State.enterError_peers (s : State) (e : ErrCode) (a : Addr) : (s.enterError e a).peers = s.peers := rfl
@[simp] theorem State.enterError_script (s : State) (e : ErrCode) (a : Addr) : (s.enterError e a).script = s.script := rfl
@[simp] theorem State.enterError_hostData (s : State) (e : ErrCode) (a : Addr) : (s.enterError e a).hostData = s.hostData := rfl
@[simp] theorem State.enterError_draws (s : State) (e : ErrCode) (a : Addr) : (s.enterError e a).draws = s.draws := rfl

/-! ## State.enterDone -/

@[simp] theorem State.enterDone_platform (s : State) (n : Word) : (s.enterDone n).platform = s.platform := rfl
@[simp] theorem State.enterDone_seq (s : State) (n : Word) : (s.enterDone n).seq = .done := rfl
@[simp] theorem State.enterDone_err (s : State) (n : Word) : (s.enterDone n).err = s.err := rfl
@[simp] theorem State.enterDone_cmd (s : State) (n : Word) : (s.enterDone n).cmd = s.cmd := rfl
@[simp] theorem State.enterDone_lenA (s : State) (n : Word) : (s.enterDone n).lenA = s.lenA := rfl
@[simp] theorem State.enterDone_lenB (s : State) (n : Word) : (s.enterDone n).lenB = s.lenB := rfl
@[simp] theorem State.enterDone_outLen (s : State) (n : Word) : (s.enterDone n).outLen = n := rfl
@[simp] theorem State.enterDone_srcALo (s : State) (n : Word) : (s.enterDone n).srcALo = s.srcALo := rfl
@[simp] theorem State.enterDone_srcAHi (s : State) (n : Word) : (s.enterDone n).srcAHi = s.srcAHi := rfl
@[simp] theorem State.enterDone_srcBLo (s : State) (n : Word) : (s.enterDone n).srcBLo = s.srcBLo := rfl
@[simp] theorem State.enterDone_srcBHi (s : State) (n : Word) : (s.enterDone n).srcBHi = s.srcBHi := rfl
@[simp] theorem State.enterDone_dstLo (s : State) (n : Word) : (s.enterDone n).dstLo = s.dstLo := rfl
@[simp] theorem State.enterDone_dstHi (s : State) (n : Word) : (s.enterDone n).dstHi = s.dstHi := rfl
@[simp] theorem State.enterDone_irqEn (s : State) (n : Word) : (s.enterDone n).irqEn = s.irqEn := rfl
@[simp] theorem State.enterDone_irqStat (s : State) (n : Word) : (s.enterDone n).irqStat = s.irqStat ||| 1 := rfl
@[simp] theorem State.enterDone_errAddr (s : State) (n : Word) : (s.enterDone n).errAddr = s.errAddr := rfl
@[simp] theorem State.enterDone_mem (s : State) (n : Word) : (s.enterDone n).mem = s.mem := rfl
@[simp] theorem State.enterDone_raced (s : State) (n : Word) : (s.enterDone n).raced = s.raced := rfl
@[simp] theorem State.enterDone_unclean (s : State) (n : Word) : (s.enterDone n).unclean = s.unclean := rfl
@[simp] theorem State.enterDone_stale (s : State) (n : Word) : (s.enterDone n).stale = s.stale := rfl
@[simp] theorem State.enterDone_unseen (s : State) (n : Word) : (s.enterDone n).unseen = s.unseen := rfl
@[simp] theorem State.enterDone_peers (s : State) (n : Word) : (s.enterDone n).peers = s.peers := rfl
@[simp] theorem State.enterDone_script (s : State) (n : Word) : (s.enterDone n).script = s.script := rfl
@[simp] theorem State.enterDone_hostData (s : State) (n : Word) : (s.enterDone n).hostData = s.hostData := rfl
@[simp] theorem State.enterDone_draws (s : State) (n : Word) : (s.enterDone n).draws = s.draws := rfl

/-! ## State.enterBusy -/

@[simp] theorem State.enterBusy_platform (s : State) (r : Bool) : (s.enterBusy r).platform = s.platform := rfl
@[simp] theorem State.enterBusy_seq (s : State) (r : Bool) : (s.enterBusy r).seq = .busy := rfl
@[simp] theorem State.enterBusy_err (s : State) (r : Bool) : (s.enterBusy r).err = s.err := rfl
@[simp] theorem State.enterBusy_cmd (s : State) (r : Bool) : (s.enterBusy r).cmd = s.cmd := rfl
@[simp] theorem State.enterBusy_lenA (s : State) (r : Bool) : (s.enterBusy r).lenA = s.lenA := rfl
@[simp] theorem State.enterBusy_lenB (s : State) (r : Bool) : (s.enterBusy r).lenB = s.lenB := rfl
@[simp] theorem State.enterBusy_outLen (s : State) (r : Bool) : (s.enterBusy r).outLen = s.outLen := rfl
@[simp] theorem State.enterBusy_srcALo (s : State) (r : Bool) : (s.enterBusy r).srcALo = s.srcALo := rfl
@[simp] theorem State.enterBusy_srcAHi (s : State) (r : Bool) : (s.enterBusy r).srcAHi = s.srcAHi := rfl
@[simp] theorem State.enterBusy_srcBLo (s : State) (r : Bool) : (s.enterBusy r).srcBLo = s.srcBLo := rfl
@[simp] theorem State.enterBusy_srcBHi (s : State) (r : Bool) : (s.enterBusy r).srcBHi = s.srcBHi := rfl
@[simp] theorem State.enterBusy_dstLo (s : State) (r : Bool) : (s.enterBusy r).dstLo = s.dstLo := rfl
@[simp] theorem State.enterBusy_dstHi (s : State) (r : Bool) : (s.enterBusy r).dstHi = s.dstHi := rfl
@[simp] theorem State.enterBusy_irqEn (s : State) (r : Bool) : (s.enterBusy r).irqEn = s.irqEn := rfl
@[simp] theorem State.enterBusy_irqStat (s : State) (r : Bool) : (s.enterBusy r).irqStat = s.irqStat := rfl
@[simp] theorem State.enterBusy_errAddr (s : State) (r : Bool) : (s.enterBusy r).errAddr = s.errAddr := rfl
@[simp] theorem State.enterBusy_mem (s : State) (r : Bool) : (s.enterBusy r).mem = s.mem := rfl
@[simp] theorem State.enterBusy_raced (s : State) (r : Bool) : (s.enterBusy r).raced = r := rfl
@[simp] theorem State.enterBusy_unclean (s : State) (r : Bool) : (s.enterBusy r).unclean = s.unclean := rfl
@[simp] theorem State.enterBusy_stale (s : State) (r : Bool) : (s.enterBusy r).stale = s.stale := rfl
@[simp] theorem State.enterBusy_unseen (s : State) (r : Bool) : (s.enterBusy r).unseen = s.unseen := rfl
@[simp] theorem State.enterBusy_peers (s : State) (r : Bool) : (s.enterBusy r).peers = s.peers := rfl
@[simp] theorem State.enterBusy_script (s : State) (r : Bool) : (s.enterBusy r).script = s.script := rfl
@[simp] theorem State.enterBusy_hostData (s : State) (r : Bool) : (s.enterBusy r).hostData = s.hostData := rfl
@[simp] theorem State.enterBusy_draws (s : State) (r : Bool) : (s.enterBusy r).draws = s.draws := rfl

/-! ## State.enterIdle -/

@[simp] theorem State.enterIdle_platform (s : State) : (s.enterIdle).platform = s.platform := rfl
@[simp] theorem State.enterIdle_seq (s : State) : (s.enterIdle).seq = .idle := rfl
@[simp] theorem State.enterIdle_err (s : State) : (s.enterIdle).err = .none := rfl
@[simp] theorem State.enterIdle_cmd (s : State) : (s.enterIdle).cmd = s.cmd := rfl
@[simp] theorem State.enterIdle_lenA (s : State) : (s.enterIdle).lenA = s.lenA := rfl
@[simp] theorem State.enterIdle_lenB (s : State) : (s.enterIdle).lenB = s.lenB := rfl
@[simp] theorem State.enterIdle_outLen (s : State) : (s.enterIdle).outLen = s.outLen := rfl
@[simp] theorem State.enterIdle_srcALo (s : State) : (s.enterIdle).srcALo = s.srcALo := rfl
@[simp] theorem State.enterIdle_srcAHi (s : State) : (s.enterIdle).srcAHi = s.srcAHi := rfl
@[simp] theorem State.enterIdle_srcBLo (s : State) : (s.enterIdle).srcBLo = s.srcBLo := rfl
@[simp] theorem State.enterIdle_srcBHi (s : State) : (s.enterIdle).srcBHi = s.srcBHi := rfl
@[simp] theorem State.enterIdle_dstLo (s : State) : (s.enterIdle).dstLo = s.dstLo := rfl
@[simp] theorem State.enterIdle_dstHi (s : State) : (s.enterIdle).dstHi = s.dstHi := rfl
@[simp] theorem State.enterIdle_irqEn (s : State) : (s.enterIdle).irqEn = s.irqEn := rfl
@[simp] theorem State.enterIdle_irqStat (s : State) : (s.enterIdle).irqStat = s.irqStat := rfl
@[simp] theorem State.enterIdle_errAddr (s : State) : (s.enterIdle).errAddr = 0 := rfl
@[simp] theorem State.enterIdle_mem (s : State) : (s.enterIdle).mem = s.mem := rfl
@[simp] theorem State.enterIdle_raced (s : State) : (s.enterIdle).raced = s.raced := rfl
@[simp] theorem State.enterIdle_unclean (s : State) : (s.enterIdle).unclean = s.unclean := rfl
@[simp] theorem State.enterIdle_stale (s : State) : (s.enterIdle).stale = s.stale := rfl
@[simp] theorem State.enterIdle_unseen (s : State) : (s.enterIdle).unseen = s.unseen := rfl
@[simp] theorem State.enterIdle_peers (s : State) : (s.enterIdle).peers = s.peers := rfl
@[simp] theorem State.enterIdle_script (s : State) : (s.enterIdle).script = s.script := rfl
@[simp] theorem State.enterIdle_hostData (s : State) : (s.enterIdle).hostData = s.hostData := rfl
@[simp] theorem State.enterIdle_draws (s : State) : (s.enterIdle).draws = s.draws := rfl

/-! ## State.rewritten -/

@[simp] theorem State.rewritten_platform (s : State) (x : Span) : (s.rewritten x).platform = s.platform := rfl
@[simp] theorem State.rewritten_seq (s : State) (x : Span) : (s.rewritten x).seq = s.seq := rfl
@[simp] theorem State.rewritten_err (s : State) (x : Span) : (s.rewritten x).err = s.err := rfl
@[simp] theorem State.rewritten_cmd (s : State) (x : Span) : (s.rewritten x).cmd = s.cmd := rfl
@[simp] theorem State.rewritten_lenA (s : State) (x : Span) : (s.rewritten x).lenA = s.lenA := rfl
@[simp] theorem State.rewritten_lenB (s : State) (x : Span) : (s.rewritten x).lenB = s.lenB := rfl
@[simp] theorem State.rewritten_outLen (s : State) (x : Span) : (s.rewritten x).outLen = s.outLen := rfl
@[simp] theorem State.rewritten_srcALo (s : State) (x : Span) : (s.rewritten x).srcALo = s.srcALo := rfl
@[simp] theorem State.rewritten_srcAHi (s : State) (x : Span) : (s.rewritten x).srcAHi = s.srcAHi := rfl
@[simp] theorem State.rewritten_srcBLo (s : State) (x : Span) : (s.rewritten x).srcBLo = s.srcBLo := rfl
@[simp] theorem State.rewritten_srcBHi (s : State) (x : Span) : (s.rewritten x).srcBHi = s.srcBHi := rfl
@[simp] theorem State.rewritten_dstLo (s : State) (x : Span) : (s.rewritten x).dstLo = s.dstLo := rfl
@[simp] theorem State.rewritten_dstHi (s : State) (x : Span) : (s.rewritten x).dstHi = s.dstHi := rfl
@[simp] theorem State.rewritten_irqEn (s : State) (x : Span) : (s.rewritten x).irqEn = s.irqEn := rfl
@[simp] theorem State.rewritten_irqStat (s : State) (x : Span) : (s.rewritten x).irqStat = s.irqStat := rfl
@[simp] theorem State.rewritten_errAddr (s : State) (x : Span) : (s.rewritten x).errAddr = s.errAddr := rfl
@[simp] theorem State.rewritten_mem (s : State) (x : Span) : (s.rewritten x).mem = s.mem := rfl
@[simp] theorem State.rewritten_raced (s : State) (x : Span) : (s.rewritten x).raced = s.raced := rfl
@[simp] theorem State.rewritten_unclean (s : State) (x : Span) : (s.rewritten x).unclean = s.unclean := rfl
@[simp] theorem State.rewritten_stale (s : State) (x : Span) : (s.rewritten x).stale = s.stale := rfl
@[simp] theorem State.rewritten_unseen (s : State) (x : Span) : (s.rewritten x).unseen = spansDrop s.unseen x := rfl
@[simp] theorem State.rewritten_peers (s : State) (x : Span) : (s.rewritten x).peers = s.peers.flatMap (Peer.rewritten x) := rfl
@[simp] theorem State.rewritten_script (s : State) (x : Span) : (s.rewritten x).script = s.script := rfl
@[simp] theorem State.rewritten_hostData (s : State) (x : Span) : (s.rewritten x).hostData = s.hostData := rfl
@[simp] theorem State.rewritten_draws (s : State) (x : Span) : (s.rewritten x).draws = s.draws := rfl

/-! ## State.endRun -/

@[simp] theorem State.endRun_platform (s : State) (w : Span) : (s.endRun w).platform = s.platform := rfl
@[simp] theorem State.endRun_seq (s : State) (w : Span) : (s.endRun w).seq = s.seq := rfl
@[simp] theorem State.endRun_err (s : State) (w : Span) : (s.endRun w).err = s.err := rfl
@[simp] theorem State.endRun_cmd (s : State) (w : Span) : (s.endRun w).cmd = s.cmd := rfl
@[simp] theorem State.endRun_lenA (s : State) (w : Span) : (s.endRun w).lenA = s.lenA := rfl
@[simp] theorem State.endRun_lenB (s : State) (w : Span) : (s.endRun w).lenB = s.lenB := rfl
@[simp] theorem State.endRun_outLen (s : State) (w : Span) : (s.endRun w).outLen = s.outLen := rfl
@[simp] theorem State.endRun_srcALo (s : State) (w : Span) : (s.endRun w).srcALo = s.srcALo := rfl
@[simp] theorem State.endRun_srcAHi (s : State) (w : Span) : (s.endRun w).srcAHi = s.srcAHi := rfl
@[simp] theorem State.endRun_srcBLo (s : State) (w : Span) : (s.endRun w).srcBLo = s.srcBLo := rfl
@[simp] theorem State.endRun_srcBHi (s : State) (w : Span) : (s.endRun w).srcBHi = s.srcBHi := rfl
@[simp] theorem State.endRun_dstLo (s : State) (w : Span) : (s.endRun w).dstLo = s.dstLo := rfl
@[simp] theorem State.endRun_dstHi (s : State) (w : Span) : (s.endRun w).dstHi = s.dstHi := rfl
@[simp] theorem State.endRun_irqEn (s : State) (w : Span) : (s.endRun w).irqEn = s.irqEn := rfl
@[simp] theorem State.endRun_irqStat (s : State) (w : Span) : (s.endRun w).irqStat = s.irqStat := rfl
@[simp] theorem State.endRun_errAddr (s : State) (w : Span) : (s.endRun w).errAddr = s.errAddr := rfl
@[simp] theorem State.endRun_mem (s : State) (w : Span) : (s.endRun w).mem = s.mem := rfl
@[simp] theorem State.endRun_raced (s : State) (w : Span) : (s.endRun w).raced = false := rfl
@[simp] theorem State.endRun_unclean (s : State) (w : Span) : (s.endRun w).unclean = s.unclean := rfl
@[simp] theorem State.endRun_stale (s : State) (w : Span) : (s.endRun w).stale = if s.platform.ioCoherent then s.stale else w :: s.stale := rfl
@[simp] theorem State.endRun_unseen (s : State) (w : Span) : (s.endRun w).unseen = spansDrop s.unseen w := rfl
@[simp] theorem State.endRun_peers (s : State) (w : Span) : (s.endRun w).peers = s.peers.flatMap (Peer.rewritten w) := rfl
@[simp] theorem State.endRun_script (s : State) (w : Span) : (s.endRun w).script = s.script := rfl
@[simp] theorem State.endRun_hostData (s : State) (w : Span) : (s.endRun w).hostData = s.hostData := rfl
@[simp] theorem State.endRun_draws (s : State) (w : Span) : (s.endRun w).draws = s.draws + 1 := rfl

/-! ## State.awaitSight -/

@[simp] theorem State.awaitSight_platform (s : State) (d : Span) : (s.awaitSight d).platform = s.platform := rfl
@[simp] theorem State.awaitSight_seq (s : State) (d : Span) : (s.awaitSight d).seq = s.seq := rfl
@[simp] theorem State.awaitSight_err (s : State) (d : Span) : (s.awaitSight d).err = s.err := rfl
@[simp] theorem State.awaitSight_cmd (s : State) (d : Span) : (s.awaitSight d).cmd = s.cmd := rfl
@[simp] theorem State.awaitSight_lenA (s : State) (d : Span) : (s.awaitSight d).lenA = s.lenA := rfl
@[simp] theorem State.awaitSight_lenB (s : State) (d : Span) : (s.awaitSight d).lenB = s.lenB := rfl
@[simp] theorem State.awaitSight_outLen (s : State) (d : Span) : (s.awaitSight d).outLen = s.outLen := rfl
@[simp] theorem State.awaitSight_srcALo (s : State) (d : Span) : (s.awaitSight d).srcALo = s.srcALo := rfl
@[simp] theorem State.awaitSight_srcAHi (s : State) (d : Span) : (s.awaitSight d).srcAHi = s.srcAHi := rfl
@[simp] theorem State.awaitSight_srcBLo (s : State) (d : Span) : (s.awaitSight d).srcBLo = s.srcBLo := rfl
@[simp] theorem State.awaitSight_srcBHi (s : State) (d : Span) : (s.awaitSight d).srcBHi = s.srcBHi := rfl
@[simp] theorem State.awaitSight_dstLo (s : State) (d : Span) : (s.awaitSight d).dstLo = s.dstLo := rfl
@[simp] theorem State.awaitSight_dstHi (s : State) (d : Span) : (s.awaitSight d).dstHi = s.dstHi := rfl
@[simp] theorem State.awaitSight_irqEn (s : State) (d : Span) : (s.awaitSight d).irqEn = s.irqEn := rfl
@[simp] theorem State.awaitSight_irqStat (s : State) (d : Span) : (s.awaitSight d).irqStat = s.irqStat := rfl
@[simp] theorem State.awaitSight_errAddr (s : State) (d : Span) : (s.awaitSight d).errAddr = s.errAddr := rfl
@[simp] theorem State.awaitSight_mem (s : State) (d : Span) : (s.awaitSight d).mem = s.mem := rfl
@[simp] theorem State.awaitSight_raced (s : State) (d : Span) : (s.awaitSight d).raced = s.raced := rfl
@[simp] theorem State.awaitSight_unclean (s : State) (d : Span) : (s.awaitSight d).unclean = s.unclean := rfl
@[simp] theorem State.awaitSight_stale (s : State) (d : Span) : (s.awaitSight d).stale = s.stale := rfl
@[simp] theorem State.awaitSight_unseen (s : State) (d : Span) : (s.awaitSight d).unseen = d :: s.unseen := rfl
@[simp] theorem State.awaitSight_peers (s : State) (d : Span) : (s.awaitSight d).peers = s.peers := rfl
@[simp] theorem State.awaitSight_script (s : State) (d : Span) : (s.awaitSight d).script = s.script := rfl
@[simp] theorem State.awaitSight_hostData (s : State) (d : Span) : (s.awaitSight d).hostData = s.hostData := rfl
@[simp] theorem State.awaitSight_draws (s : State) (d : Span) : (s.awaitSight d).draws = s.draws := rfl

/-! ## State.observe -/

@[simp] theorem State.observe_platform (s : State) (b : Bool) : (s.observe b).platform = s.platform := rfl
@[simp] theorem State.observe_seq (s : State) (b : Bool) : (s.observe b).seq = s.seq := rfl
@[simp] theorem State.observe_err (s : State) (b : Bool) : (s.observe b).err = s.err := rfl
@[simp] theorem State.observe_cmd (s : State) (b : Bool) : (s.observe b).cmd = s.cmd := rfl
@[simp] theorem State.observe_lenA (s : State) (b : Bool) : (s.observe b).lenA = s.lenA := rfl
@[simp] theorem State.observe_lenB (s : State) (b : Bool) : (s.observe b).lenB = s.lenB := rfl
@[simp] theorem State.observe_outLen (s : State) (b : Bool) : (s.observe b).outLen = s.outLen := rfl
@[simp] theorem State.observe_srcALo (s : State) (b : Bool) : (s.observe b).srcALo = s.srcALo := rfl
@[simp] theorem State.observe_srcAHi (s : State) (b : Bool) : (s.observe b).srcAHi = s.srcAHi := rfl
@[simp] theorem State.observe_srcBLo (s : State) (b : Bool) : (s.observe b).srcBLo = s.srcBLo := rfl
@[simp] theorem State.observe_srcBHi (s : State) (b : Bool) : (s.observe b).srcBHi = s.srcBHi := rfl
@[simp] theorem State.observe_dstLo (s : State) (b : Bool) : (s.observe b).dstLo = s.dstLo := rfl
@[simp] theorem State.observe_dstHi (s : State) (b : Bool) : (s.observe b).dstHi = s.dstHi := rfl
@[simp] theorem State.observe_irqEn (s : State) (b : Bool) : (s.observe b).irqEn = s.irqEn := rfl
@[simp] theorem State.observe_irqStat (s : State) (b : Bool) : (s.observe b).irqStat = s.irqStat := rfl
@[simp] theorem State.observe_errAddr (s : State) (b : Bool) : (s.observe b).errAddr = s.errAddr := rfl
@[simp] theorem State.observe_mem (s : State) (b : Bool) : (s.observe b).mem = s.mem := rfl
@[simp] theorem State.observe_raced (s : State) (b : Bool) : (s.observe b).raced = s.raced := rfl
@[simp] theorem State.observe_unclean (s : State) (b : Bool) : (s.observe b).unclean = s.unclean := rfl
@[simp] theorem State.observe_stale (s : State) (b : Bool) : (s.observe b).stale = s.stale := rfl
@[simp] theorem State.observe_unseen (s : State) (b : Bool) : (s.observe b).unseen = if b then [] else s.unseen := rfl
@[simp] theorem State.observe_peers (s : State) (b : Bool) : (s.observe b).peers = s.peers := rfl
@[simp] theorem State.observe_script (s : State) (b : Bool) : (s.observe b).script = s.script := rfl
@[simp] theorem State.observe_hostData (s : State) (b : Bool) : (s.observe b).hostData = s.hostData := rfl
@[simp] theorem State.observe_draws (s : State) (b : Bool) : (s.observe b).draws = s.draws := rfl

/-! ## State.resetRegisters -/

@[simp] theorem State.resetRegisters_platform (s : State) : (s.resetRegisters).platform = s.platform := rfl
@[simp] theorem State.resetRegisters_seq (s : State) : (s.resetRegisters).seq = .idle := rfl
@[simp] theorem State.resetRegisters_err (s : State) : (s.resetRegisters).err = .none := rfl
@[simp] theorem State.resetRegisters_cmd (s : State) : (s.resetRegisters).cmd = 0 := rfl
@[simp] theorem State.resetRegisters_lenA (s : State) : (s.resetRegisters).lenA = 0 := rfl
@[simp] theorem State.resetRegisters_lenB (s : State) : (s.resetRegisters).lenB = 0 := rfl
@[simp] theorem State.resetRegisters_outLen (s : State) : (s.resetRegisters).outLen = 0 := rfl
@[simp] theorem State.resetRegisters_srcALo (s : State) : (s.resetRegisters).srcALo = 0 := rfl
@[simp] theorem State.resetRegisters_srcAHi (s : State) : (s.resetRegisters).srcAHi = 0 := rfl
@[simp] theorem State.resetRegisters_srcBLo (s : State) : (s.resetRegisters).srcBLo = 0 := rfl
@[simp] theorem State.resetRegisters_srcBHi (s : State) : (s.resetRegisters).srcBHi = 0 := rfl
@[simp] theorem State.resetRegisters_dstLo (s : State) : (s.resetRegisters).dstLo = 0 := rfl
@[simp] theorem State.resetRegisters_dstHi (s : State) : (s.resetRegisters).dstHi = 0 := rfl
@[simp] theorem State.resetRegisters_irqEn (s : State) : (s.resetRegisters).irqEn = 0 := rfl
@[simp] theorem State.resetRegisters_irqStat (s : State) : (s.resetRegisters).irqStat = 0 := rfl
@[simp] theorem State.resetRegisters_errAddr (s : State) : (s.resetRegisters).errAddr = 0 := rfl
@[simp] theorem State.resetRegisters_mem (s : State) : (s.resetRegisters).mem = s.mem := rfl
@[simp] theorem State.resetRegisters_raced (s : State) : (s.resetRegisters).raced = false := rfl
@[simp] theorem State.resetRegisters_unclean (s : State) : (s.resetRegisters).unclean = s.unclean := rfl
@[simp] theorem State.resetRegisters_stale (s : State) : (s.resetRegisters).stale = s.stale := rfl
@[simp] theorem State.resetRegisters_unseen (s : State) : (s.resetRegisters).unseen = s.unseen := rfl
@[simp] theorem State.resetRegisters_peers (s : State) : (s.resetRegisters).peers = s.peers := rfl
@[simp] theorem State.resetRegisters_script (s : State) : (s.resetRegisters).script = s.script := rfl
@[simp] theorem State.resetRegisters_hostData (s : State) : (s.resetRegisters).hostData = s.hostData := rfl
@[simp] theorem State.resetRegisters_draws (s : State) : (s.resetRegisters).draws = s.draws := rfl

/-! ## The state after reset -/

@[simp] theorem State.resetOn_platform (p : Platform) : (State.resetOn p).platform = p := rfl
@[simp] theorem State.resetOn_seq (p : Platform) : (State.resetOn p).seq = .idle := rfl
@[simp] theorem State.resetOn_err (p : Platform) : (State.resetOn p).err = .none := rfl
@[simp] theorem State.resetOn_cmd (p : Platform) : (State.resetOn p).cmd = 0 := rfl
@[simp] theorem State.resetOn_lenA (p : Platform) : (State.resetOn p).lenA = 0 := rfl
@[simp] theorem State.resetOn_lenB (p : Platform) : (State.resetOn p).lenB = 0 := rfl
@[simp] theorem State.resetOn_outLen (p : Platform) : (State.resetOn p).outLen = 0 := rfl
@[simp] theorem State.resetOn_srcALo (p : Platform) : (State.resetOn p).srcALo = 0 := rfl
@[simp] theorem State.resetOn_srcAHi (p : Platform) : (State.resetOn p).srcAHi = 0 := rfl
@[simp] theorem State.resetOn_srcBLo (p : Platform) : (State.resetOn p).srcBLo = 0 := rfl
@[simp] theorem State.resetOn_srcBHi (p : Platform) : (State.resetOn p).srcBHi = 0 := rfl
@[simp] theorem State.resetOn_dstLo (p : Platform) : (State.resetOn p).dstLo = 0 := rfl
@[simp] theorem State.resetOn_dstHi (p : Platform) : (State.resetOn p).dstHi = 0 := rfl
@[simp] theorem State.resetOn_irqEn (p : Platform) : (State.resetOn p).irqEn = 0 := rfl
@[simp] theorem State.resetOn_irqStat (p : Platform) : (State.resetOn p).irqStat = 0 := rfl
@[simp] theorem State.resetOn_errAddr (p : Platform) : (State.resetOn p).errAddr = 0 := rfl
@[simp] theorem State.resetOn_mem (p : Platform) : (State.resetOn p).mem = [] := rfl
@[simp] theorem State.resetOn_raced (p : Platform) : (State.resetOn p).raced = false := rfl
@[simp] theorem State.resetOn_unclean (p : Platform) : (State.resetOn p).unclean = [] := rfl
@[simp] theorem State.resetOn_stale (p : Platform) : (State.resetOn p).stale = [] := rfl
@[simp] theorem State.resetOn_unseen (p : Platform) : (State.resetOn p).unseen = [] := rfl
@[simp] theorem State.resetOn_peers (p : Platform) : (State.resetOn p).peers = [] := rfl
@[simp] theorem State.resetOn_script (p : Platform) : (State.resetOn p).script = [] := rfl
@[simp] theorem State.resetOn_hostData (p : Platform) : (State.resetOn p).hostData = 0 := rfl
@[simp] theorem State.resetOn_draws (p : Platform) : (State.resetOn p).draws = 0 := rfl

end Sys2Proof.Machine
end

