-- ==== Sys2Proof/Laws/Run.lean ====
section
/-!
SUPPORT. What the read phase, the write phase and a whole run can do (Machine/Operands.lean, Machine/Run.lean):
one lemma each, which proofs cite instead of unfolding them.
-/

namespace Sys2Proof.Machine

/-- A bus error is at the address accessed (20_memory.md R70). -/
theorem busAccess_fail {p : Platform} {a b : Nat} (h : busAccess p a = some (.fail b)) : b = a := by
  unfold busAccess at h
  split_ifs at h <;> simp at h
  exact h.symm

/-- A run stops at the address accessed (20_memory.md R70). -/
theorem busAccess_addr {p : Platform} {a : Nat} {stop : BusStop} (h : busAccess p a = some stop) : stop.addr = a := by
  unfold busAccess at h
  split_ifs at h <;> cases h <;> rfl

/-! ## The read phase -/

/-- Where every access completes, the read phase returns the region's words. -/
theorem readWords_ok (s : State) (region : Nat) : ∀ (n a : Nat),
    (∀ k < n, busAccess s.platform (a + 8 * k) = none) →
    readWords s region a n = .ok ((List.range n).map fun k => engineWord s region (a + 8 * k)) := by
  intro n
  induction n with
  | zero => intro a _; rfl
  | succ n ih =>
    intro a h
    have h0 := h 0 (by omega)
    rw [Nat.mul_zero, Nat.add_zero] at h0
    have h1 := ih (a + 8) (fun k hk => by
      have := h (k + 1) (by omega)
      rwa [show a + 8 * (k + 1) = a + 8 + 8 * k by omega] at this)
    rw [readWords, h0]
    simp only [h1, List.range_succ_eq_map, List.map_cons, List.map_map, Nat.mul_zero, Nat.add_zero]
    refine congrArg (fun l => Except.ok (engineWord s region a :: l)) (List.map_congr_left fun k _ => ?_)
    exact congrArg (engineWord s region) (show a + 8 + 8 * k = a + 8 * (k + 1) by omega)

/-- The read phase stops at the first access that does not complete. -/
theorem readWords_stop (s : State) (region : Nat) {stop : BusStop} : ∀ (n a k : Nat), k < n →
    (∀ j < k, busAccess s.platform (a + 8 * j) = none) → busAccess s.platform (a + 8 * k) = some stop →
    readWords s region a n = .error stop := by
  intro n
  induction n with
  | zero => intro a k hk; omega
  | succ n ih =>
    intro a k hk h hs
    cases k with
    | zero => rw [readWords]; simp only [Nat.mul_zero, Nat.add_zero] at hs; rw [hs]
    | succ k =>
      have h0 := h 0 (by omega)
      rw [Nat.mul_zero, Nat.add_zero] at h0
      have h1 := ih (a + 8) k (by omega) (fun j hj => by
          have := h (j + 1) (by omega)
          rwa [show a + 8 * (j + 1) = a + 8 + 8 * j by omega] at this)
        (by rwa [show a + 8 * (k + 1) = a + 8 + 8 * k by omega] at hs)
      rw [readWords, h0]
      simp only [h1]

/-- Everything the read phase can do: all accesses complete and it returns the region's words, or it stops at
the first that does not. -/
theorem readWords_cases (s : State) (region a n : Nat) :
    ((∀ k < n, busAccess s.platform (a + 8 * k) = none) ∧
      readWords s region a n = .ok ((List.range n).map fun k => engineWord s region (a + 8 * k))) ∨
    (∃ k stop, k < n ∧ (∀ j < k, busAccess s.platform (a + 8 * j) = none) ∧
      busAccess s.platform (a + 8 * k) = some stop ∧ readWords s region a n = .error stop) := by
  by_cases h : ∀ k < n, busAccess s.platform (a + 8 * k) = none
  · exact .inl ⟨h, readWords_ok s region n a h⟩
  · refine .inr ?_
    have hex : ∃ k, k < n ∧ busAccess s.platform (a + 8 * k) ≠ none := by
      by_contra hc
      exact h fun k hk => by
        by_contra hne
        exact hc ⟨k, hk, hne⟩
    classical
    obtain ⟨hk, hne⟩ := Nat.find_spec hex
    obtain ⟨stop, hstop⟩ := Option.ne_none_iff_exists'.mp hne
    have hmin : ∀ j < Nat.find hex, busAccess s.platform (a + 8 * j) = none := fun j hj => by
      by_contra hc
      exact Nat.find_min hex hj ⟨by omega, hc⟩
    exact ⟨_, stop, hk, hmin, hstop, readWords_stop s region n a _ hk hmin hstop⟩

/-! ## The write phase -/

theorem storeWords_wf : ∀ (ws : List F64) (a : Nat) (m : Memory), m.wf = true →
    (storeWords a ws m).wf = true
  | [], _, _, h => h
  | _ :: ws, _, _, h => storeWords_wf ws _ _ (memWriteBytes_wf _ _ _ _ h)

theorem memRead_storeWords_outside : ∀ (ws : List F64) (a x : Nat) (m : Memory), m.wf = true →
    (x < a ∨ a + 8 * ws.length ≤ x) → memRead (storeWords a ws m) x = memRead m x
  | [], _, _, _, _, _ => rfl
  | _ :: ws, a, x, m, h, hx => by
    simp only [List.length_cons] at hx
    rw [storeWords, memRead_storeWords_outside ws _ _ _ (memWriteBytes_wf _ _ _ _ h) (by omega),
      memRead_memWriteBytes_outside _ _ _ _ _ h (by omega)]

theorem memReadBytes_storeWords_outside (ws : List F64) (a x n : Nat) (m : Memory) (h : m.wf = true)
    (hx : x + n ≤ a ∨ a + 8 * ws.length ≤ x) :
    memReadBytes (storeWords a ws m) x n = memReadBytes m x n :=
  leBytes_congr n x fun k hk => memRead_storeWords_outside ws a (x + k) m h (by omega)

/-- Word k of the words stored reads back. -/
theorem memReadBytes_storeWords : ∀ (ws : List F64) (a k : Nat) (m : Memory) (hk : k < ws.length),
    m.wf = true → memReadBytes (storeWords a ws m) (a + 8 * k) 8 = (ws[k]).toNat
  | [], _, _, _, hk, _ => absurd hk (by simp)
  | w :: ws, a, 0, m, _, h => by
    rw [storeWords, show a + 8 * 0 = a from rfl,
      memReadBytes_storeWords_outside ws (a + 8) a 8 _ (memWriteBytes_wf _ _ _ _ h) (by omega),
      memReadBytes_memWriteBytes _ _ _ _ h]
    have := w.isLt
    simp only [List.getElem_cons_zero]
    omega
  | w :: ws, a, k + 1, m, hk, h => by
    simp only [List.length_cons] at hk
    rw [storeWords, show a + 8 * (k + 1) = a + 8 + 8 * k by omega,
      memReadBytes_storeWords ws (a + 8) k _ (by omega) (memWriteBytes_wf _ _ _ _ h)]
    simp

theorem storeWords_below {bound : Nat} : ∀ (ws : List F64) (a : Nat) (m : Memory), memBelow bound m →
    a + 8 * ws.length ≤ bound → memBelow bound (storeWords a ws m)
  | [], _, _, h, _ => h
  | _ :: ws, a, m, h, ha => by
    simp only [List.length_cons] at ha
    exact storeWords_below ws _ _ (memWriteBytes_below _ _ _ _ h (by omega)) (by omega)

/-- Where every access completes, the write phase stores all the words. -/
theorem writeWords_ok (p : Platform) : ∀ (ws : List F64) (a : Nat) (m : Memory),
    (∀ k < ws.length, busAccess p (a + 8 * k) = none) →
    writeWords p a ws m = (storeWords a ws m, none) := by
  intro ws
  induction ws with
  | nil => intro a m _; rfl
  | cons w ws ih =>
    intro a m h
    have h0 := h 0 (by simp)
    rw [Nat.mul_zero, Nat.add_zero] at h0
    rw [writeWords, h0]
    exact ih (a + 8) _ (fun k hk => by
      have := h (k + 1) (by simpa using hk)
      rwa [show a + 8 * (k + 1) = a + 8 + 8 * k by omega] at this)

/-- The write phase stops at the first access that does not complete; the words below it are stored
(20_memory.md R73). -/
theorem writeWords_stop (p : Platform) {stop : BusStop} : ∀ (ws : List F64) (a k : Nat) (m : Memory),
    k < ws.length → (∀ j < k, busAccess p (a + 8 * j) = none) → busAccess p (a + 8 * k) = some stop →
    writeWords p a ws m = (storeWords a (ws.take k) m, some stop) := by
  intro ws
  induction ws with
  | nil => intro a k m hk; simp at hk
  | cons w ws ih =>
    intro a k m hk h hs
    cases k with
    | zero => rw [writeWords]; simp only [Nat.mul_zero, Nat.add_zero] at hs; rw [hs]; rfl
    | succ k =>
      have h0 := h 0 (by omega)
      rw [Nat.mul_zero, Nat.add_zero] at h0
      rw [writeWords, h0]
      simp only
      rw [ih (a + 8) k _ (by simpa using hk) (fun j hj => by
          have := h (j + 1) (by omega)
          rwa [show a + 8 * (j + 1) = a + 8 + 8 * j by omega] at this)
        (by rwa [show a + 8 * (k + 1) = a + 8 + 8 * k by omega] at hs)]
      rfl

/-- Everything the write phase can do. -/
theorem writeWords_cases (p : Platform) (ws : List F64) (a : Nat) (m : Memory) :
    ((∀ k < ws.length, busAccess p (a + 8 * k) = none) ∧ writeWords p a ws m = (storeWords a ws m, none)) ∨
    (∃ k stop, k < ws.length ∧ (∀ j < k, busAccess p (a + 8 * j) = none) ∧
      busAccess p (a + 8 * k) = some stop ∧
      writeWords p a ws m = (storeWords a (ws.take k) m, some stop)) := by
  by_cases h : ∀ k < ws.length, busAccess p (a + 8 * k) = none
  · exact .inl ⟨h, writeWords_ok p ws a m h⟩
  · refine .inr ?_
    have hex : ∃ k, k < ws.length ∧ busAccess p (a + 8 * k) ≠ none := by
      by_contra hc
      exact h fun k hk => by
        by_contra hne
        exact hc ⟨k, hk, hne⟩
    classical
    obtain ⟨hk, hne⟩ := Nat.find_spec hex
    obtain ⟨stop, hstop⟩ := Option.ne_none_iff_exists'.mp hne
    have hmin : ∀ j < Nat.find hex, busAccess p (a + 8 * j) = none := fun j hj => by
      by_contra hc
      exact Nat.find_min hex hj ⟨by omega, hc⟩
    exact ⟨_, stop, hk, hmin, hstop, writeWords_stop p ws a _ m hk hmin hstop⟩

/-! ## Regions and results -/

theorem fmtSize_eq (f : Fmt) : f.size = 8 ∨ f.size = 16 := by cases f <;> simp [Fmt.size]

/-- Every region is a whole number of 8-byte words (20_memory.md R65). -/
theorem regionSizes_mod8 (i : Instr) (n m : Nat) :
    (regionSizes i n m).1 % 8 = 0 ∧ (regionSizes i n m).2.1 % 8 = 0 ∧ (regionSizes i n m).2.2 % 8 = 0 := by
  have hs : ∀ (f : Fmt) (k : Nat), k * f.size % 8 = 0 := fun f k => by
    cases f <;> simp only [Fmt.size] <;> omega
  have h16 : ∀ k : Nat, 16 * k % 8 = 0 := fun k => by omega
  cases i <;> simp only [regionSizes] <;> try split_ifs
  all_goals simp [hs, h16]

@[simp] theorem regionWords_length (s : State) (region : Nat) (r : Span) :
    (regionWords s region r).length = r.size / 8 := by simp [regionWords]

theorem operandOf_length (f : Fmt) (ws : List F64) (n : Nat) (h : ws.length = n * f.size / 8) :
    (operandOf f ws).length = n := by
  cases f with
  | real => simp [Fmt.size] at h; simpa [operandOf] using h
  | complex =>
    have : ws.length = 2 * n := by simp [Fmt.size] at h; omega
    simpa [operandOf] using pairUp_length n ws this

@[simp] theorem bothReal_operandOf (f g : Fmt) (a b : List F64) :
    (operandOf f a).bothReal (operandOf g b) = decide (fmtOut f g = .real) := by
  cases f <;> cases g <;> rfl

/-- An operand has as many elements as its length register says, where its region is not empty by rule
(20_memory.md R64). -/
theorem operandA_length (i : Instr) (s : State)
    (h : (regionSizes i s.lenN s.lenM).1 = s.lenN * i.fmtA.size) : (operandA i s).length = s.lenN :=
  operandOf_length _ _ _ (by simp [regionA, h])

theorem operandB_length (i : Instr) (s : State) (n : Nat)
    (h : (regionSizes i s.lenN s.lenM).2.1 = n * i.fmtB.size) : (operandB i s).length = n :=
  operandOf_length _ _ _ (by simp [regionB, h])

/-- The start checks that passed, one by one (60_exceptions.md R240). -/
theorem startCheck_none {i : Instr} {s : State} (h : startCheck i s = none) :
    (i.engine = .radix2 → isPow2 s.lenN = true) ∧ (i.needsEqualLengths = true → s.lenM = s.lenN) ∧
    capacityOk s.lmax i s.lenN s.lenM = true ∧
    (∀ r ∈ regionsOf i s, misaligned r = false) ∧ (∀ r ∈ regionsOf i s, outOfRange s.platform r = false) := by
  unfold startCheck at h
  split_ifs at h with h1 h2 h3
  have ha : (regionsOf i s).find? misaligned = none := by
    cases hf : (regionsOf i s).find? misaligned with
    | none => rfl
    | some r => rw [hf] at h; simp at h
  have hr : (regionsOf i s).find? (outOfRange s.platform) = none := by
    rw [ha] at h
    cases hf : (regionsOf i s).find? (outOfRange s.platform) with
    | none => rfl
    | some r => rw [hf] at h; simp at h
  refine ⟨fun he => ?_, fun hq => ?_, ?_, fun r hm => ?_, fun r hm => ?_⟩
  · by_contra hc; exact h1 ⟨he, by simpa using hc⟩
  · by_contra hc; exact h2 ⟨hq, hc⟩
  · simpa using h3
  · simpa using List.find?_eq_none.mp ha r hm
  · simpa using List.find?_eq_none.mp hr r hm

/-- A command's result fills its region D exactly: eight bytes for every word (20_memory.md R64). -/
theorem resultOf_words_length {i : Instr} {s : State} (h : startCheck i s = none) :
    8 * (resultOf i s).words.length = (regionD i s).size := by
  obtain ⟨h2, heq, -, -, -⟩ := startCheck_none h
  have transform : ∀ (e : Engine) (d : Direction), (e = .radix2 → isPow2 s.lenN = true) →
      (operandA i s).length = s.lenN → (xform [s.draws] (operandA i s) d e).length = s.lenN :=
    fun e d he hl => by rw [xform_length _ _ _ _ (by rwa [hl]), hl]
  cases i with
  | fft fa =>
    have := transform .auto .forward (by simp) (operandA_length _ s rfl)
    simp [resultOf, commandResult, this, regionD, regionSizes]; omega
  | fftR2 fa =>
    have := transform .radix2 .forward (fun _ => h2 rfl) (operandA_length _ s rfl)
    simp [resultOf, commandResult, this, regionD, regionSizes]; omega
  | fftBl fa =>
    have := transform .bluestein .forward (by simp) (operandA_length _ s rfl)
    simp [resultOf, commandResult, this, regionD, regionSizes]; omega
  | ifft fa herm =>
    have := transform .auto .inverse (by simp) (operandA_length _ s rfl)
    simp [resultOf, commandResult, this, regionD, regionSizes]; omega
  | ifftR2 fa herm =>
    have := transform .radix2 .inverse (fun _ => h2 rfl) (operandA_length _ s rfl)
    simp [resultOf, commandResult, this, regionD, regionSizes]; omega
  | ifftBl fa herm =>
    have := transform .bluestein .inverse (by simp) (operandA_length _ s rfl)
    simp [resultOf, commandResult, this, regionD, regionSizes]; omega
  | conv fa fb =>
    simp only [resultOf, commandResult, convLinear_words_length, regionD, regionSizes]
    by_cases h0 : s.lenN = 0 ∨ s.lenM = 0
    · have hA : (operandA (.conv fa fb) s).length = 0 := by
        simp [operandA, regionA, regionSizes, h0, regionWords]
        cases fa <;> rfl
      simp [hA, h0]
    · have hA : (operandA (.conv fa fb) s).length = s.lenN :=
        operandA_length _ s (by simp [regionSizes, h0, Instr.fmtA])
      have hB : (operandB (.conv fa fb) s).length = s.lenM :=
        operandB_length _ s _ (by simp [regionSizes, h0, Instr.fmtB])
      rw [hA, hB, if_neg h0, if_neg h0]
      simp only [operandA, operandB, bothReal_operandOf, Instr.fmtA, Instr.fmtB]
      cases fa <;> cases fb <;> simp [fmtOut, Fmt.size] <;> omega
  | cconv fa fb =>
    have hm := heq rfl
    have hA : (operandA (.cconv fa fb) s).length = s.lenN := operandA_length _ s rfl
    have hB : (operandB (.cconv fa fb) s).length = s.lenN := operandB_length _ s _ rfl
    simp only [resultOf, commandResult, regionD, regionSizes]
    rw [convCircular_words_length _ _ _ (by rw [hA, hB]), hA]
    simp only [operandA, operandB, bothReal_operandOf, Instr.fmtA, Instr.fmtB]
    cases fa <;> cases fb <;> simp [fmtOut, Fmt.size] <;> omega
  | nconv fa fb =>
    have hm := heq rfl
    have hA : (operandA (.nconv fa fb) s).length = s.lenN := operandA_length _ s rfl
    have hB : (operandB (.nconv fa fb) s).length = s.lenN := operandB_length _ s _ rfl
    simp only [resultOf, commandResult, regionD, regionSizes]
    rw [convNegacyclic_words_length _ _ _ (by rw [hA, hB]), hA]
    simp only [operandA, operandB, bothReal_operandOf, Instr.fmtA, Instr.fmtB]
    cases fa <;> cases fb <;> simp [fmtOut, Fmt.size] <;> omega

@[simp] theorem resultWords_length (s : State) (r : Operand) : (resultWords s r).length = r.words.length := by
  unfold resultWords; split_ifs <;> simp

/-! ## A whole run -/

/-! ## The state a completed run leaves, field by field -/

@[simp] theorem doneWith_platform (i : Instr) (s : State) (r : Operand) : (doneWith i s r).platform = s.platform := rfl
@[simp] theorem doneWith_seq (i : Instr) (s : State) (r : Operand) : (doneWith i s r).seq = .done := rfl
@[simp] theorem doneWith_err (i : Instr) (s : State) (r : Operand) : (doneWith i s r).err = s.err := rfl
@[simp] theorem doneWith_cmd (i : Instr) (s : State) (r : Operand) : (doneWith i s r).cmd = s.cmd := rfl
@[simp] theorem doneWith_lenA (i : Instr) (s : State) (r : Operand) : (doneWith i s r).lenA = s.lenA := rfl
@[simp] theorem doneWith_lenB (i : Instr) (s : State) (r : Operand) : (doneWith i s r).lenB = s.lenB := rfl
@[simp] theorem doneWith_outLen (i : Instr) (s : State) (r : Operand) : (doneWith i s r).outLen =
    BitVec.ofNat 32 (outLength i s.lenN s.lenM) := rfl
@[simp] theorem doneWith_srcALo (i : Instr) (s : State) (r : Operand) : (doneWith i s r).srcALo = s.srcALo := rfl
@[simp] theorem doneWith_srcAHi (i : Instr) (s : State) (r : Operand) : (doneWith i s r).srcAHi = s.srcAHi := rfl
@[simp] theorem doneWith_srcBLo (i : Instr) (s : State) (r : Operand) : (doneWith i s r).srcBLo = s.srcBLo := rfl
@[simp] theorem doneWith_srcBHi (i : Instr) (s : State) (r : Operand) : (doneWith i s r).srcBHi = s.srcBHi := rfl
@[simp] theorem doneWith_dstLo (i : Instr) (s : State) (r : Operand) : (doneWith i s r).dstLo = s.dstLo := rfl
@[simp] theorem doneWith_dstHi (i : Instr) (s : State) (r : Operand) : (doneWith i s r).dstHi = s.dstHi := rfl
@[simp] theorem doneWith_irqEn (i : Instr) (s : State) (r : Operand) : (doneWith i s r).irqEn = s.irqEn := rfl
@[simp] theorem doneWith_irqStat (i : Instr) (s : State) (r : Operand) : (doneWith i s r).irqStat =
    s.irqStat ||| 1 := rfl
@[simp] theorem doneWith_errAddr (i : Instr) (s : State) (r : Operand) : (doneWith i s r).errAddr = s.errAddr := rfl
@[simp] theorem doneWith_mem (i : Instr) (s : State) (r : Operand) : (doneWith i s r).mem =
    storeWords (regionD i s).base (resultWords s r) s.mem := rfl
@[simp] theorem doneWith_raced (i : Instr) (s : State) (r : Operand) : (doneWith i s r).raced = false := rfl
@[simp] theorem doneWith_unclean (i : Instr) (s : State) (r : Operand) : (doneWith i s r).unclean = s.unclean := rfl
@[simp] theorem doneWith_stale (i : Instr) (s : State) (r : Operand) : (doneWith i s r).stale =
    if s.platform.ioCoherent then s.stale else regionD i s :: s.stale := rfl
@[simp] theorem doneWith_unseen (i : Instr) (s : State) (r : Operand) : (doneWith i s r).unseen =
    regionD i s :: spansDrop s.unseen (regionD i s) := rfl
@[simp] theorem doneWith_peers (i : Instr) (s : State) (r : Operand) : (doneWith i s r).peers =
    s.peers.flatMap (Peer.rewritten (regionD i s)) := rfl
@[simp] theorem doneWith_script (i : Instr) (s : State) (r : Operand) : (doneWith i s r).script = s.script := rfl
@[simp] theorem doneWith_hostData (i : Instr) (s : State) (r : Operand) : (doneWith i s r).hostData = s.hostData := rfl
@[simp] theorem doneWith_draws (i : Instr) (s : State) (r : Operand) : (doneWith i s r).draws = s.draws + 1 := rfl

/-- Every command is the common execution with its own compute phase. -/
theorem exec_eq_runCommand (i : Instr) (s : State) : exec i s = runCommand i (commandResult i) s := by
  cases i <;> rfl

/-- Everything a command can do (60_exceptions.md R230, R236, R239; 41_transforms.md R172). -/
theorem exec_cases (i : Instr) (s : State) :
    (∃ e, startCheck i s = some e ∧ exec i s = .next (s.enterError e.code e.addr)) ∨
    (startCheck i s = none ∧ (∃ r ∈ regionsOf i s, ¬ NoDevice s.platform r) ∧
      exec i s = .refused .deviceRegion) ∨
    (startCheck i s = none ∧ (∀ r ∈ regionsOf i s, NoDevice s.platform r) ∧
      (∃ region r k stop, ((region = 0 ∧ r = regionA i s) ∨
          (region = 1 ∧ r = regionB i s ∧ RegionOk s.platform (regionA i s))) ∧ k < r.size / 8 ∧
        (∀ j < k, busAccess s.platform (r.base + 8 * j) = none) ∧
        busAccess s.platform (r.base + 8 * k) = some stop ∧ exec i s = stopRun s ⟨0, 0⟩ stop)) ∨
    (startCheck i s = none ∧ (∀ r ∈ regionsOf i s, NoDevice s.platform r) ∧
      RegionOk s.platform (regionA i s) ∧ RegionOk s.platform (regionB i s) ∧
      (∃ k stop, k < (regionD i s).size / 8 ∧
        (∀ j < k, busAccess s.platform ((regionD i s).base + 8 * j) = none) ∧
        busAccess s.platform ((regionD i s).base + 8 * k) = some stop ∧
        exec i s = stopRun (s.withMem (storeWords (regionD i s).base
          ((resultWords s (resultOf i s)).take k) s.mem)) ⟨(regionD i s).base, 8 * k⟩ stop)) ∨
    (Runnable i s ∧ exec i s = .next (doneWith i s (resultOf i s))) := by
  rw [exec_eq_runCommand]
  unfold runCommand
  cases hc : startCheck i s with
  | some e => exact .inl ⟨e, rfl, rfl⟩
  | none =>
    refine .inr ?_
    simp only
    unfold runPhases
    by_cases hd : ((regionsOf i s).any fun r => s.platform.device.any fun d => d.overlaps r) = true
    · refine .inl ⟨trivial, ?_, by rw [if_pos hd]⟩
      obtain ⟨r, hr, hx⟩ := List.any_eq_true.mp hd
      obtain ⟨d, hdm, ho⟩ := List.any_eq_true.mp hx
      exact ⟨r, hr, fun hn => by rw [hn d hdm] at ho; exact absurd ho (by simp)⟩
    · have hn : ∀ r ∈ regionsOf i s, NoDevice s.platform r := fun r hr d hdm => by
        by_contra ho
        exact hd (List.any_eq_true.mpr ⟨r, hr, List.any_eq_true.mpr ⟨d, hdm, by simpa using ho⟩⟩)
      refine .inr ?_
      rw [if_neg hd]
      rcases readWords_cases s 0 (regionA i s).base ((regionA i s).size / 8) with
        ⟨okA, eA⟩ | ⟨k, stop, hk, hj, hs, eA⟩
      · rw [eA]
        simp only
        rcases readWords_cases s 1 (regionB i s).base ((regionB i s).size / 8) with
          ⟨okB, eB⟩ | ⟨k, stop, hk, hj, hs, eB⟩
        · rw [eB]
          simp only
          have hlen := resultOf_words_length hc
          have hlen' : (resultWords s (resultOf i s)).length = (regionD i s).size / 8 := by
            rw [resultWords_length]; omega
          refine .inr ?_
          rcases writeWords_cases s.platform (resultWords s (resultOf i s)) (regionD i s).base s.mem with
            ⟨okD, eD⟩ | ⟨k, stop, hk, hj, hs, eD⟩
          · refine .inr ⟨⟨hc, hn, okA, okB, by rwa [hlen'] at okD⟩, ?_⟩
            show finishRun i s (resultOf i s) = _
            unfold finishRun
            rw [eD]
            rfl
          · refine .inl ⟨trivial, hn, okA, okB, k, stop, by omega, hj, hs, ?_⟩
            show finishRun i s (resultOf i s) = _
            unfold finishRun writtenBelow
            rw [eD]
            simp only [busAccess_addr hs, Nat.add_sub_cancel_left]
        · rw [eB]
          exact .inl ⟨trivial, hn, 1, regionB i s, k, stop, .inr ⟨rfl, rfl, okA⟩, hk, hj, hs, rfl⟩
      · rw [eA]
        exact .inl ⟨trivial, hn, 0, regionA i s, k, stop, .inl ⟨rfl, rfl⟩, hk, hj, hs, rfl⟩

/-- A runnable command goes to DONE with its result (10_state.md R39). -/
theorem exec_runnable {i : Instr} {s : State} (hR : Runnable i s) : exec i s = .next (doneWith i s (resultOf i s)) := by
    rcases exec_cases i s with ⟨e, hc, he⟩ | ⟨hc, ⟨r, hr, hd⟩, he⟩ | ⟨hc, -, reg, r, k, stop, hreg, hk, -, hs, he⟩ |
      ⟨hc, -, -, -, k, stop, hk, -, hs, he⟩ | ⟨hr, he⟩
    · rw [hR.checks] at hc; cases hc
    · exact absurd (hR.noDevice r hr) hd
    · rcases hreg with ⟨-, rfl⟩ | ⟨-, rfl, -⟩
      · rw [hR.okA k hk] at hs; cases hs
      · rw [hR.okB k hk] at hs; cases hs
    · rw [hR.okD k hk] at hs; cases hs
    · exact he

/-- A command reaches DONE only where it is runnable. -/
theorem exec_done {i : Instr} {s t : State} (h : exec i s = .next t) (hd : t.seq = .done) :
    Runnable i s ∧ t = doneWith i s (resultOf i s) := by
  rcases exec_cases i s with ⟨e, hc, he⟩ | ⟨hc, -, he⟩ | ⟨hc, -, reg, r, k, stop, -, -, -, hs, he⟩ |
      ⟨hc, -, -, -, k, stop, hk, -, hs, he⟩ | ⟨hr, he⟩
  · rw [he] at h; cases h; cases hd
  · rw [he] at h; cases h
  · rw [he] at h; cases stop <;> cases h; cases hd
  · rw [he] at h; cases stop <;> cases h; cases hd
  · rw [he] at h; cases h; exact ⟨hr, rfl⟩

/-- Element k of a complex region is the pair of its words 2k and 2k+1 (20_memory.md R63). -/
theorem pairUp_get : ∀ (ws : List F64) (k : Nat), 2 * k + 1 < ws.length →
    (pairUp ws)[k]? = some ⟨ws.getD (2 * k) 0, ws.getD (2 * k + 1) 0⟩
  | a :: b :: rest, 0, _ => by simp [pairUp]
  | a :: b :: rest, k + 1, h => by
    simp only [pairUp, List.getElem?_cons_succ]
    rw [pairUp_get rest k (by simp at h; omega)]
    rfl
  | [], k, h => by simp at h
  | [a], k, h => by simp at h

/-- Where every host write is visible, the engine reads memory's words (20_memory.md R62, R74). -/
theorem engineWord_clean (s : State) (h : s.unclean = []) (region a : Nat) :
    engineWord s region a = BitVec.ofNat 64 (memReadBytes s.mem a 8) := by
  unfold engineWord memReadBytes
  rw [leBytes_congr 8 a (g := memRead s.mem)]
  intro k _
  simp [engineByte, State.unsettled, State.dirtyLines, h]

end Sys2Proof.Machine
end

