-- ==== Sys2Proof/Laws/Step.lean ====
section
/-!
SUPPORT. Everything a step can do, said once (Machine/Registers.lean, Machine/HostPort.lean,
Machine/Sequencer.lean): the register writes, START, the engine's turn and the step itself, case by case.
-/

namespace Sys2Proof.Machine

/-! ## Registers -/

/-- A register read sees neither the script nor the host's last value. -/
@[simp] theorem readReg_host (s : State) (rest : List HostEvent) (hd : BitVec 64) (off : Nat) :
    readReg { s with script := rest, hostData := hd } off = readReg s off := by
  unfold readReg; split <;> rfl

@[simp] theorem readReg_script (s : State) (rest : List HostEvent) (off : Nat) :
    readReg { s with script := rest } off = readReg s off := readReg_host s rest s.hostData off

/-- Everything START can do (10_state.md R40). -/
theorem start_cases (s : State) :
    ((s.seq = .busy ∨ s.seq = .error) ∧ s.start = s) ∨
    ((s.seq = .idle ∨ s.seq = .done) ∧
      ((∃ e, decode s.cmd = .error e ∧ s.start = s.enterError .illegalCmd 0) ∨
       (∃ i e, decode s.cmd = .ok i ∧ startCheck i s = some e ∧ s.start = s.enterError e.code e.addr) ∨
       (∃ i, decode s.cmd = .ok i ∧ startCheck i s = none ∧ s.start = s.enterBusy (s.peersHit i)))) := by
  unfold State.start
  have checks : (s.seq = .idle ∨ s.seq = .done) →
      (∃ e, decode s.cmd = .error e) ∨ (∃ i e, decode s.cmd = .ok i ∧ startCheck i s = some e) ∨
      (∃ i, decode s.cmd = .ok i ∧ startCheck i s = none) := fun _ => by
    cases hd : decode s.cmd with
    | error e => exact .inl ⟨e, rfl⟩
    | ok i =>
      cases hc : startCheck i s with
      | some e => exact .inr (.inl ⟨i, e, rfl, hc⟩)
      | none => exact .inr (.inr ⟨i, rfl, hc⟩)
  cases hs : s.seq with
  | busy => exact .inl ⟨.inl rfl, rfl⟩
  | error => exact .inl ⟨.inr rfl, rfl⟩
  | idle | done =>
    refine .inr ⟨by simp, ?_⟩
    rcases checks (by simp [hs]) with ⟨e, he⟩ | ⟨i, e, hi, hc⟩ | ⟨i, hi, hc⟩
    · exact .inl ⟨e, he, by simp only [he]⟩
    · exact .inr (.inl ⟨i, e, hi, hc, by simp only [hi, hc]⟩)
    · exact .inr (.inr ⟨i, hi, hc, by simp only [hi, hc]⟩)

/-- Everything CLEAR can do (10_state.md R41). -/
theorem clear_cases (s : State) :
    ((s.seq = .done ∨ s.seq = .error) ∧ s.clear = s.enterIdle) ∨
    ((s.seq = .idle ∨ s.seq = .busy) ∧ s.clear = s) := by
  unfold State.clear
  cases s.seq <;> simp

/-- The start checks read the length, address and platform fields alone, so CLEAR does not change their outcome. -/
@[simp] theorem startCheck_enterIdle (i : Instr) (s : State) : startCheck i s.enterIdle = startCheck i s := rfl

/-- Nor does it change which other instances race with a command. -/
@[simp] theorem peersHit_enterIdle (i : Instr) (s : State) : s.enterIdle.peersHit i = s.peersHit i := rfl

/-- Everything a CTRL write can do (10_state.md R39-R42): nothing, CLEAR, or START from the state CLEAR leaves. -/
theorem writeCtrl_cases (s : State) (v : Word) :
    s.writeCtrl v = s ∨
    (v.getLsbD 1 = true ∧ v.getLsbD 0 = false ∧ (s.seq = .done ∨ s.seq = .error) ∧ s.writeCtrl v = s.enterIdle) ∨
    (v.getLsbD 0 = true ∧ ∃ u, (u = s ∧ (s.seq = .idle ∨ s.seq = .done) ∨
        u = s.enterIdle ∧ v.getLsbD 1 = true ∧ (s.seq = .done ∨ s.seq = .error)) ∧
      ((∃ e, decode s.cmd = .error e ∧ s.writeCtrl v = u.enterError .illegalCmd 0) ∨
       (∃ i e, decode s.cmd = .ok i ∧ startCheck i s = some e ∧ s.writeCtrl v = u.enterError e.code e.addr) ∨
       (∃ i, decode s.cmd = .ok i ∧ startCheck i s = none ∧ s.writeCtrl v = u.enterBusy (s.peersHit i)))) := by
  have main : ∀ u : State, (u = s ∧ v.getLsbD 1 = false ∨ v.getLsbD 1 = true ∧ u = s.clear) →
      s.writeCtrl v = (if v.getLsbD 0 then u.start else u) := by
    rintro u (⟨rfl, h1⟩ | ⟨h1, rfl⟩) <;>
      simp only [State.writeCtrl, h1, Bool.false_eq_true, if_false, if_true]
  cases h1 : v.getLsbD 1 with
  | false =>
    rw [main s (.inl ⟨rfl, h1⟩)]
    cases h0 : v.getLsbD 0 with
    | false => exact .inl rfl
    | true =>
      rcases start_cases s with ⟨-, e⟩ | ⟨hs, h⟩
      · exact .inl e
      · exact .inr (.inr ⟨rfl, s, .inl ⟨rfl, hs⟩, h⟩)
  | true =>
    rw [main _ (.inr ⟨h1, rfl⟩)]
    rcases clear_cases s with ⟨hs, e⟩ | ⟨hs, e⟩
    · rw [e]
      cases h0 : v.getLsbD 0 with
      | false => exact .inr (.inl ⟨rfl, rfl, hs, rfl⟩)
      | true =>
        rcases start_cases s.enterIdle with ⟨hb, -⟩ | ⟨-, h⟩
        · rcases hb with hb | hb <;> cases hb
        · exact .inr (.inr ⟨rfl, _, .inr ⟨rfl, rfl, hs⟩, h⟩)
    · rw [e]
      cases h0 : v.getLsbD 0 with
      | false => exact .inl rfl
      | true =>
        rcases start_cases s with ⟨-, e⟩ | ⟨hs', h⟩
        · exact .inl e
        · exact .inr (.inr ⟨rfl, s, .inl ⟨rfl, hs'⟩, h⟩)

/-- Everything a register write can do (10_state.md R24, R30, R31, R33-R36). -/
theorem writeReg_cases (s : State) (off : Nat) (v : Word) :
    (off = 0x010 ∧ writeReg s off v = s.writeCtrl v) ∨
    (off = 0x040 ∧ writeReg s off v = { s with irqEn := v.extractLsb' 0 2 }) ∨
    (off = 0x044 ∧ writeReg s off v = { s with irqStat := clearPending s.irqStat v }) ∨
    (off ≠ 0x010 ∧ s.seq = .busy ∧ writeReg s off v = s) ∨
    (off ≠ 0x010 ∧ s.seq ≠ .busy ∧ writeReg s off v = writeArg s off v) := by
  unfold writeReg
  split
  · exact .inl ⟨rfl, rfl⟩
  · exact .inr (.inl ⟨rfl, rfl⟩)
  · exact .inr (.inr (.inl ⟨rfl, rfl⟩))
  · rename_i h10 _ _
    by_cases hb : s.seq = .busy
    · exact .inr (.inr (.inr (.inl ⟨h10, hb, if_pos hb⟩)))
    · exact .inr (.inr (.inr (.inr ⟨h10, hb, if_neg hb⟩)))

/-- A write of an argument register changes the nine argument registers alone. -/
theorem writeArg_frame (s : State) (off : Nat) (v : Word) :
    writeArg s off v =
      { s with cmd := (writeArg s off v).cmd, lenA := (writeArg s off v).lenA, lenB := (writeArg s off v).lenB,
               srcALo := (writeArg s off v).srcALo, srcAHi := (writeArg s off v).srcAHi,
               srcBLo := (writeArg s off v).srcBLo, srcBHi := (writeArg s off v).srcBHi,
               dstLo := (writeArg s off v).dstLo, dstHi := (writeArg s off v).dstHi } := by
  unfold writeArg; split <;> rfl

/-! ## Commands -/

/-- Every next state of a command: a start error, a bus error after some words of region D, or completion. -/
theorem exec_next {i : Instr} {s t : State} (h : exec i s = .next t) :
    (∃ e, startCheck i s = some e ∧ t = s.enterError e.code e.addr) ∨
    (startCheck i s = none ∧ ∃ k span a, 8 * k ≤ (regionD i s).size ∧
      (span = ⟨0, 0⟩ ∨ span = ⟨(regionD i s).base, 8 * k⟩) ∧ t =
      ((s.withMem (storeWords (regionD i s).base ((resultWords s (resultOf i s)).take k) s.mem)).endRun
        span).enterError .busError a) ∨
    (Runnable i s ∧ t = doneWith i s (resultOf i s)) := by
  rcases exec_cases i s with ⟨e, hc, he⟩ | ⟨-, -, he⟩ | ⟨hc, -, r, -, k, stop, -, -, -, -, he⟩ |
    ⟨hc, -, -, -, k, stop, hk, -, -, he⟩ | ⟨hr, he⟩
  · rw [he] at h; cases h; exact .inl ⟨e, hc, rfl⟩
  · rw [he] at h; cases h
  · rw [he] at h
    cases stop with
    | fail a =>
      simp only [stopRun] at h
      cases h
      exact .inr (.inl ⟨hc, 0, ⟨0, 0⟩, _, Nat.zero_le _, .inl rfl, rfl⟩)
    | hang a => cases h
  · rw [he] at h
    cases stop with
    | fail a =>
      simp only [stopRun] at h
      cases h
      exact .inr (.inl ⟨hc, k, _, _, by omega, .inr rfl, rfl⟩)
    | hang a => cases h
  · rw [he] at h; cases h; exact .inr (.inr ⟨hr, rfl⟩)

/-- A running command is one in BUSY. -/
theorem running_some {s : State} {i : Instr} (h : s.running = some i) : s.seq = .busy ∧ decode s.cmd = .ok i := by
  unfold State.running at h
  split at h
  · rename_i h1 h2; cases h; exact ⟨h1, h2⟩
  · cases h

/-- Only in BUSY does a span touch a region of a running command (20_memory.md R75). -/
theorem hitsRunning_busy {s : State} {x : Span} (h : s.hitsRunning x = true) : s.seq = .busy := by
  unfold State.hitsRunning at h
  split at h
  · rename_i hr; exact (running_some hr).1
  · cases h

/-- Everything the engine's turn can do (10_state.md R39). -/
theorem engineTurn_next {s t : State} (h : engineTurn s = .next t) :
    (s.seq ≠ .busy ∧ t = s) ∨
    (s.seq = .busy ∧ (∃ e, decode s.cmd = .error e) ∧ t = s.enterError .illegalCmd 0) ∨
    (s.seq = .busy ∧ ∃ i, decode s.cmd = .ok i ∧ exec i s = .next t) := by
  unfold engineTurn at h
  cases hs : s.seq with
  | busy =>
    rw [hs] at h
    simp only at h
    cases hd : decode s.cmd with
    | error e => rw [hd] at h; cases h; exact .inr (.inl ⟨rfl, ⟨e, rfl⟩, rfl⟩)
    | ok i => rw [hd] at h; exact .inr (.inr ⟨rfl, i, rfl, h⟩)
  | idle | done | error => rw [hs] at h; cases h; exact .inl ⟨by simp, rfl⟩

/-- A 32-bit access at a multiple of 4 in the window goes to the register there (10_state.md R38). -/
theorem targetOf_register (p : Platform) {off : Nat} (h : off < 256) (h4 : off % 4 = 0) :
    targetOf p (p.mmioBase + off) 4 = .register off := by
  have hw : (⟨p.mmioBase, 256⟩ : Span).overlaps ⟨p.mmioBase + off, 4⟩ = true := by
    simp only [Span.overlaps, decide_eq_true_eq]; omega
  unfold targetOf
  rw [if_pos hw, Nat.add_sub_cancel_left, if_pos ⟨rfl, Nat.le_add_right _ _, h4⟩]

/-- A register read sees nothing of what the host has seen. -/
@[simp] theorem readReg_observe (s : State) (b : Bool) (off : Nat) : readReg (s.observe b) off = readReg s off := by
  unfold readReg; split <;> rfl

/-- A look at the engine changes what the host has seen alone. -/
theorem observe_eq (s : State) (b : Bool) :
    ∃ u, (u = s.unseen ∨ u = []) ∧ s.observe b = { s with unseen := u } := by
  cases b
  · exact ⟨_, .inl rfl, rfl⟩
  · exact ⟨_, .inr rfl, rfl⟩

/-! ## The other instances -/

/-- When a START takes another instance to BUSY. -/
theorem peerMayStart_iff {s : State} {n : Nat} {inputs : List Span} {d : Span} :
    s.peerMayStart n inputs d = true ↔
      (0 < n ∧ n < s.platform.numInstances) ∧ (∀ p ∈ s.peers, p.busy = true → p.inst ≠ n) ∧
        ∀ r ∈ d :: inputs, r.size % 8 = 0 ∧ (0 < r.size → r.base % 8 = 0 ∧ r.base + r.size ≤ 2 ^ s.platform.paBits) := by
  have hr : ∀ r : Span, isRegion s.platform r = true ↔
      r.size % 8 = 0 ∧ (0 < r.size → r.base % 8 = 0 ∧ r.base + r.size ≤ 2 ^ s.platform.paBits) := fun r => by
    simp only [isRegion, misaligned, outOfRange, Bool.and_eq_true, Bool.not_eq_true', decide_eq_true_eq, decide_eq_false_iff_not]
    omega
  simp only [State.peerMayStart, Bool.and_eq_true, decide_eq_true_eq, Bool.not_eq_true', List.any_eq_false, not_and,
    List.all_eq_true, hr, and_assoc, ne_eq]

/-- Where a write of another instance completes. -/
theorem peerMayWrite_iff {s : State} {a : Nat} :
    s.peerMayWrite a = true ↔
      a % 8 = 0 ∧ a + 8 ≤ 2 ^ s.platform.paBits ∧ busAccess s.platform a = none ∧
        ∃ p ∈ s.peers, p.busy = true ∧ p.result.base ≤ a ∧ a + 8 ≤ p.result.base + p.result.size := by
  simp only [State.peerMayWrite, Bool.and_eq_true, decide_eq_true_eq, List.any_eq_true, and_assoc]

/-- Writing bytes anew leaves the other instances what they are (60_exceptions.md R250). -/
theorem PeersFit.rewritten {n : Nat} {ps : List Peer} (h : PeersFit n ps) (x : Span) :
    PeersFit n (ps.flatMap (Peer.rewritten x)) := by
  refine ⟨fun q hq => ?_, by rw [filter_busy_rewritten]; exact h.2⟩
  obtain ⟨p, hp, hq⟩ := List.mem_flatMap.mp hq
  have : q.inst = p.inst := by
    unfold Peer.rewritten at hq
    split_ifs at hq
    · rw [List.mem_singleton.mp hq]
    · obtain ⟨r, -, rfl⟩ := List.mem_map.mp hq; rfl
  rw [this]
  exact h.1 p hp

/-- Some of the other instances are other instances. -/
theorem PeersFit.sublist {n : Nat} {ps qs : List Peer} (h : PeersFit n ps) (hs : qs.Sublist ps) : PeersFit n qs :=
  ⟨fun q hq => h.1 q (hs.subset hq), ((hs.filter _).map _).nodup h.2⟩

/-- A START takes to BUSY an instance of the platform that was not BUSY (60_exceptions.md R250). -/
theorem peerStart_fit {s : State} (h : PeersFit s.platform.numInstances s.peers) (n : Nat) (inputs : List Span) (d : Span) :
    PeersFit s.platform.numInstances (peerStart s n inputs d).peers := by
  unfold peerStart
  split_ifs with hm
  · obtain ⟨hn, hb, -⟩ := peerMayStart_iff.mp hm
    refine ⟨fun q hq => ?_, ?_⟩
    · rcases List.mem_cons.mp hq with rfl | hq
      · exact hn
      · exact h.1 q hq
    · rw [List.filter_cons_of_pos rfl, List.map_cons, List.nodup_cons]
      refine ⟨fun hm => ?_, h.2⟩
      obtain ⟨q, hq, hqn⟩ := List.mem_map.mp hm
      obtain ⟨hq, hqb⟩ := List.mem_filter.mp hq
      exact hb q hq hqb hqn
  · exact h

/-- The end of an instance is the end of its one run (60_exceptions.md R250). -/
theorem peerEnd_fit {s : State} (h : PeersFit s.platform.numInstances s.peers) (n : Nat) :
    PeersFit s.platform.numInstances (peerEnd s n).peers := by
  unfold peerEnd
  refine ⟨fun q hq => ?_, ?_⟩
  · obtain ⟨p, hp, rfl⟩ := List.mem_map.mp hq
    split_ifs
    · exact h.1 p hp
    · exact h.1 p hp
  · have hs : (((s.peers.map fun p => if p.inst = n then { p with busy := false } else p).filter (·.busy)).map
        (·.inst)).Sublist ((s.peers.filter (·.busy)).map (·.inst)) := by
      generalize s.peers = ps
      induction ps with
      | nil => exact List.Sublist.refl _
      | cons p ps ih =>
        rw [List.map_cons]
        split_ifs with hn
        · rw [List.filter_cons_of_neg (by simp)]
          exact ih.trans (((List.sublist_cons_self p ps).filter _).map _)
        · cases hb : p.busy with
          | true =>
            rw [List.filter_cons_of_pos hb, List.filter_cons_of_pos hb, List.map_cons, List.map_cons]
            exact ih.cons₂ _
          | false =>
            rw [List.filter_cons_of_neg (by simp [hb]), List.filter_cons_of_neg (by simp [hb])]
            exact ih
    exact hs.nodup h.2

/-- The host's observation takes instances off the list at most. -/
theorem peerSeen_fit {s : State} (h : PeersFit s.platform.numInstances s.peers) (n : Nat) :
    PeersFit s.platform.numInstances (peerSeen s n).peers := by
  unfold peerSeen
  simp only
  split_ifs
  · exact h
  · exact h.sublist List.filter_sublist

/-- Every next state of a step: the engine's turn, a register write, a read or an interrupt taken, a host store, cache
maintenance, the reset input, another instance's write, or its start, end, observation or failed write. A turn with a look at a
register, a read and an interrupt may end what is unseen. -/
theorem step_next {s t : State} (h : step s = .next t) :
    (∃ rest hd u, (u = s.unseen ∨ u = []) ∧ ctrlWrite s = none ∧
      engineTurn { s with script := rest, hostData := hd, unseen := u } = .next t) ∨
    (∃ rest off v, (off = 0x010 → ctrlWrite s = some v) ∧ t = writeReg { s with script := rest } off v) ∨
    (∃ rest hd u n, (u = s.unseen ∨ u = []) ∧
      t = { s with script := rest, hostData := hd, unseen := u, draws := n }) ∨
    (∃ rest a w v, targetOf s.platform a w.bytes = .memory ∧ t = hostStore { s with script := rest } a w v) ∨
    (∃ rest x, t = hostClean { s with script := rest } x) ∨
    (∃ rest x, t = hostInvalidate { s with script := rest } x) ∨
    (∃ rest, s.script.head? = some .reset ∧ t = State.hwReset { s with script := rest }) ∨
    (∃ rest a v, a + 8 ≤ 2 ^ s.platform.paBits ∧ t = peerStore { s with script := rest } a v) ∨
    (∃ rest r ps, (r = true → s.raced = true ∨ s.seq = .busy) ∧
      (PeersFit s.platform.numInstances s.peers → PeersFit s.platform.numInstances ps) ∧
      t = { s with script := rest, raced := r, peers := ps }) := by
  unfold step machineStep at h
  split at h
  · rename_i hs
    refine .inl ⟨[], s.hostData, s.unseen, .inl rfl, by simp [ctrlWrite, hs], ?_⟩
    rw [← hs]; exact h
  · rename_i rest hs
    exact .inl ⟨rest, s.hostData, s.unseen, .inl rfl, by simp [ctrlWrite, hs], h⟩
  · rename_i a mask value rest hs
    unfold pollTurn at h
    split at h
    · obtain ⟨u, hu, e⟩ := observe_eq s (s.showsDone _)
      rw [e] at h
      split_ifs at h
      · cases h; exact .inr (.inr (.inl ⟨rest, _, u, s.draws, hu, rfl⟩))
      · exact .inl ⟨s.script, _, u, hu, by simp [ctrlWrite, hs], h⟩
    · cases h
  · rename_i a w rest hs
    unfold hostRead at h
    split at h
    · obtain ⟨u, hu, e⟩ := observe_eq { s with script := rest } (State.showsDone { s with script := rest } _)
      rw [e] at h
      cases h; exact .inr (.inr (.inl ⟨rest, _, u, s.draws, hu, rfl⟩))
    · cases h
    · cases h
    · cases h
    · cases h; exact .inr (.inr (.inl ⟨rest, _, s.unseen, _, .inl rfl, rfl⟩))
  · rename_i a w v rest hs
    unfold hostWrite at h
    split at h
    · rename_i off ht
      cases h
      refine .inr (.inl ⟨rest, off, _, fun h0 => ?_, rfl⟩)
      subst h0
      simp only at ht
      simp [ctrlWrite, hs, ht]
    · cases h
    · cases h
    · cases h
    · rename_i ht
      cases h
      exact .inr (.inr (.inr (.inl ⟨rest, a, w, v, ht, rfl⟩)))
  · rename_i x rest hs
    cases h; exact .inr (.inr (.inr (.inr (.inl ⟨rest, x, rfl⟩))))
  · rename_i rest hs
    unfold irqTurn at h
    split_ifs at h
    · obtain ⟨u, hu, e⟩ := observe_eq s s.doneIrq
      rw [e] at h
      cases h; exact .inr (.inr (.inl ⟨rest, s.hostData, u, s.draws, hu, rfl⟩))
    · exact .inl ⟨s.script, s.hostData, s.unseen, .inl rfl, by simp [ctrlWrite, hs], h⟩
  · rename_i x rest hs
    cases h; exact .inr (.inr (.inr (.inr (.inr (.inl ⟨rest, x, rfl⟩)))))
  · rename_i n inputs d rest hs
    have e : ∃ r ps, (r = true → s.raced = true ∨ s.seq = .busy) ∧
        peerStart { s with script := rest } n inputs d = { s with script := rest, raced := r, peers := ps } := by
      unfold peerStart
      split_ifs
      · refine ⟨_, _, fun hr => ?_, rfl⟩
        exact (Bool.or_eq_true _ _ ▸ hr).imp_right fun hr => hitsRunning_busy (s := { s with script := rest }) hr
      · exact ⟨s.raced, s.peers, .inl, rfl⟩
    obtain ⟨r, ps, hr, e⟩ := e
    have hf := fun hp => peerStart_fit (s := { s with script := rest }) hp n inputs d
    rw [e] at h hf
    cases h
    exact .inr (.inr (.inr (.inr (.inr (.inr (.inr (.inr ⟨rest, r, ps, hr, hf, rfl⟩)))))))
  · rename_i a v rest hs
    unfold peerWrite at h
    split_ifs at h with ha
    · cases h
      have ha := (peerMayWrite_iff.mp ha).2.1
      exact .inr (.inr (.inr (.inr (.inr (.inr (.inr (.inl ⟨rest, a, v, ha, rfl⟩)))))))
    · cases h
      exact .inr (.inr (.inr (.inr (.inr (.inr (.inr (.inr ⟨rest, s.raced, s.peers, .inl, id, rfl⟩)))))))
  · rename_i n rest hs
    have hf := fun hp => peerEnd_fit (s := { s with script := rest }) hp n
    cases h; exact .inr (.inr (.inr (.inr (.inr (.inr (.inr (.inr ⟨rest, s.raced, _, .inl, hf, rfl⟩)))))))
  · rename_i n rest hs
    have hf := fun hp => peerSeen_fit (s := { s with script := rest }) hp n
    cases h; exact .inr (.inr (.inr (.inr (.inr (.inr (.inr (.inr ⟨rest, s.raced, _, .inl, hf, rfl⟩)))))))
  · rename_i rest hs
    cases h; exact .inr (.inr (.inr (.inr (.inr (.inr (.inl ⟨rest, by simp [hs], rfl⟩))))))

/-- The reset input, whatever ran: every register at its reset value, memory as before but for region D of a
running command (70_reset_and_hazards.md R260-R262). -/
theorem hwReset_eq (s : State) : ∃ m stale unseen peers n,
    s.hwReset = { State.resetOn s.platform with
      mem := m, unclean := s.unclean, stale := stale, unseen := unseen, peers := peers,
      script := s.script, hostData := s.hostData, draws := n } ∧
    (m = s.mem ∨ ∃ i, s.running = some i ∧
      m = memFillAny [3, s.draws] s.mem (regionD i s).base (regionD i s).size) ∧
    (s.platform.ioCoherent = true → stale = s.stale) ∧
    (∀ a, spansHave stale a = true → spansHave s.stale a = true ∨ ∃ i, s.running = some i ∧ (regionD i s).has a = true) ∧
    (∀ a, spansHave unseen a = true → spansHave s.unseen a = true) ∧
    (∀ k, PeersFit k s.peers → PeersFit k peers) := by
  unfold State.hwReset
  split
  · rename_i i hi
    refine ⟨_, _, _, _, _, rfl, .inr ⟨i, hi, rfl⟩, fun hc => if_pos hc, fun a ha => ?_, fun a ha => ?_, fun _ h => h.rewritten _⟩
    swap
    · have hd : spansHave (spansDrop s.unseen (regionD i s)) a = true := ha
      rw [spansHave_spansDrop, Bool.and_eq_true] at hd
      exact hd.1
    have ha' : spansHave (if s.platform.ioCoherent then s.stale else regionD i s :: s.stale) a = true := ha
    split_ifs at ha'
    · exact .inl ha'
    · rw [spansHave_cons, Bool.or_eq_true] at ha'
      exact ha'.symm.imp_right fun h => ⟨i, hi, h⟩
  · exact ⟨_, _, _, _, _, rfl, .inl rfl, fun _ => rfl, fun _ ha => .inl ha, fun _ ha => ha, fun _ h => h⟩

end Sys2Proof.Machine
end

