-- ==== Sys2Proof/Laws/Trig.lean ====
section
/-!
SUPPORT. The generator's cosine is RNE of the exact cosine (Machine/Trig.lean, 40_datapath.md R130): the error of
the series and of π is below the bracket's width, and what both ends of a bracket round to is the rounding of
every real number between them.
-/

namespace Sys2Proof.Machine

/-! ## The series -/

/-- The nested series is the cosine's Taylor polynomial, as a fraction with a positive denominator. -/
theorem cosSeries_eq (x2 y2 : ℤ) (hy : 0 < y2) : ∀ n j,
    0 < (cosSeries x2 y2 n j).2 ∧
    ((cosSeries x2 y2 n j).1 : ℝ) / (cosSeries x2 y2 n j).2 =
      ∑ k ∈ Finset.range (n + 1), (-1 : ℝ) ^ k * ((x2 : ℝ) / y2) ^ k * (j.factorial / (j + 2 * k).factorial) := by
  intro n
  induction n with
  | zero => intro j; simp [cosSeries, Nat.factorial_ne_zero]
  | succ n ih =>
    intro j
    obtain ⟨hb, he⟩ := ih (j + 2)
    rw [cosSeries]
    generalize cosSeries x2 y2 n (j + 2) = p at *
    obtain ⟨a, b⟩ := p
    simp only at hb he ⊢
    have hj : (0 : ℤ) < (((j + 1) * (j + 2) : ℕ) : ℤ) := by positivity
    refine ⟨by positivity, ?_⟩
    have hbr : (0 : ℝ) < b := by exact_mod_cast hb
    have hyr : (0 : ℝ) < y2 := by exact_mod_cast hy
    have step : ((((((j + 1) * (j + 2) : ℕ) : ℤ) * y2 * b - x2 * a : ℤ)) : ℝ)
        / (((((j + 1) * (j + 2) : ℕ) : ℤ) * y2 * b : ℤ) : ℝ)
        = 1 - (x2 : ℝ) / y2 / ((j + 1) * (j + 2)) * ((a : ℝ) / b) := by
      push_cast
      field_simp
    rw [step, he]
    conv_rhs => rw [Finset.sum_range_succ']
    rw [Finset.mul_sum]
    have h0 : ((-1 : ℝ) ^ 0 * ((x2 : ℝ) / y2) ^ 0 * (j.factorial / (j + 2 * 0).factorial)) = 1 := by
      simp [Nat.factorial_ne_zero]
    rw [h0, sub_eq_add_neg, add_comm, ← Finset.sum_neg_distrib]
    refine congrArg (· + 1) (Finset.sum_congr rfl fun k _ => ?_)
    have hf : ((j + 2).factorial : ℝ) = (j + 2) * ((j + 1) * j.factorial) := by
      rw [show j + 2 = j + 1 + 1 from rfl, Nat.factorial_succ, Nat.factorial_succ]; push_cast; ring
    rw [show j + 2 * (k + 1) = j + 2 + 2 * k by ring, hf, pow_succ, pow_succ]
    field_simp

/-- The real part of the exponential's partial sum at i·y. -/
theorem exp_sum_re (y : ℝ) (n : ℕ) :
    (∑ m ∈ Finset.range (2 * n), ((y : ℂ) * Complex.I) ^ m / (m.factorial : ℂ)).re =
      ∑ k ∈ Finset.range n, (-1 : ℝ) ^ k * (y ^ 2) ^ k / (2 * k).factorial := by
  induction n with
  | zero => simp
  | succ n ih =>
    rw [show 2 * (n + 1) = 2 * n + 1 + 1 by ring, Finset.sum_range_succ, Finset.sum_range_succ,
      Complex.add_re, Complex.add_re, ih, Finset.sum_range_succ]
    have hI : Complex.I ^ (2 * n) = ((-1 : ℝ) ^ n : ℝ) := by
      rw [pow_mul, Complex.I_sq]; push_cast; ring
    have e1 : (((y : ℂ) * Complex.I) ^ (2 * n) / ((2 * n).factorial : ℂ)).re
        = (-1 : ℝ) ^ n * (y ^ 2) ^ n / (2 * n).factorial := by
      rw [mul_pow, hI]
      have : ((y : ℂ) ^ (2 * n) * (((-1 : ℝ) ^ n : ℝ) : ℂ)) / ((2 * n).factorial : ℂ)
          = (((-1 : ℝ) ^ n * (y ^ 2) ^ n / (2 * n).factorial : ℝ) : ℂ) := by
        push_cast; rw [← pow_mul]; ring
      rw [this, Complex.ofReal_re]
    have e2 : (((y : ℂ) * Complex.I) ^ (2 * n + 1) / ((2 * n + 1).factorial : ℂ)).re = 0 := by
      rw [mul_pow, pow_succ Complex.I, hI]
      have : ((y : ℂ) ^ (2 * n + 1) * ((((-1 : ℝ) ^ n : ℝ) : ℂ) * Complex.I)) / ((2 * n + 1).factorial : ℂ)
          = ((y ^ (2 * n + 1) * (-1 : ℝ) ^ n / (2 * n + 1).factorial : ℝ) : ℂ) * Complex.I := by
        push_cast; ring
      rw [this, Complex.re_ofReal_mul, Complex.I_re, mul_zero]
    rw [e1, e2, add_zero]

/-- The cosine's Taylor polynomial with n terms, for an angle of at most 1.58. -/
theorem cos_taylor (y : ℝ) (h0 : 0 ≤ y) (h : y ≤ 1.58) (n : ℕ) (hn : 2 ≤ n) :
    |Real.cos y - ∑ k ∈ Finset.range n, (-1 : ℝ) ^ k * (y ^ 2) ^ k / (2 * k).factorial| ≤
      1.58 ^ (2 * n) / ((2 * n).factorial : ℝ) * 2 := by
  have hy : ‖(y : ℂ) * Complex.I‖ = y := by simp [abs_of_nonneg h0]
  have hN : (4 : ℝ) ≤ ((2 * n : ℕ) : ℝ) := by exact_mod_cast (by omega : 4 ≤ 2 * n)
  have hb := Complex.exp_bound' (x := (y : ℂ) * Complex.I) (n := 2 * n) (by
    rw [hy, div_le_iff₀ (by positivity), Nat.cast_succ]; linarith)
  rw [hy] at hb
  have hre := (Complex.abs_re_le_norm _).trans hb
  rw [Complex.sub_re, exp_sum_re, Complex.exp_ofReal_mul_I_re] at hre
  refine hre.trans ?_
  have hp : y ^ (2 * n) ≤ 1.58 ^ (2 * n) := pow_le_pow_left₀ h0 h _
  gcongr

/-- The nested series at (P/S)·q as the Taylor polynomial. -/
theorem cosPoly_value (P S : ℤ) (hS : 0 < S) (n : ℕ) (q : ℚ) :
    0 < (cosPoly P S n q).2 ∧
    ((cosPoly P S n q).1 : ℝ) / (cosPoly P S n q).2 =
      ∑ k ∈ Finset.range (n + 1), (-1 : ℝ) ^ k * (((P : ℝ) / S * q) ^ 2) ^ k / (2 * k).factorial := by
  have hden : (0 : ℤ) < q.den := by exact_mod_cast q.den_pos
  obtain ⟨hpos, heq⟩ := cosSeries_eq ((P * q.num) * (P * q.num)) ((S * q.den) * (S * q.den))
    (by positivity) n 0
  refine ⟨hpos, heq.trans (Finset.sum_congr rfl fun k _ => ?_)⟩
  have hX : ((((P * q.num) * (P * q.num) : ℤ)) : ℝ) / ((((S * q.den) * (S * q.den) : ℤ)) : ℝ)
      = ((P : ℝ) / S * q) ^ 2 := by
    have hq : (q : ℝ) = (q.num : ℝ) / q.den := by exact_mod_cast (Rat.num_div_den q).symm
    have hd : (q.den : ℝ) ≠ 0 := by exact_mod_cast q.den_ne_zero
    have hs : (S : ℝ) ≠ 0 := by exact_mod_cast hS.ne'
    rw [hq]
    push_cast
    field_simp
  rw [hX, Nat.factorial_zero, Nat.zero_add]
  push_cast
  ring

/-- `cosPoly` is near the cosine of (π/2)·q: with P/S at most π/2 and within e of it, and a last term below e, it
is within 2e. -/
theorem cosPoly_near (P S : ℤ) (n : ℕ) (e : ℝ) (hn : 1 ≤ n) (hP : 0 ≤ P) (hS : 0 < S)
    (hc : (P : ℝ) / S ≤ Real.pi / 2) (hd : Real.pi / 2 ≤ (P : ℝ) / S + e)
    (hlast : 1.58 ^ (2 * (n + 1)) / ((2 * (n + 1)).factorial : ℝ) * 2 ≤ e)
    (q : ℚ) (h0 : 0 ≤ q) (h1 : q ≤ 1) :
    0 < (cosPoly P S n q).2 ∧
    |((cosPoly P S n q).1 : ℝ) / (cosPoly P S n q).2 - Real.cos (Real.pi / 2 * q)| ≤ 2 * e := by
  obtain ⟨hpos, hval⟩ := cosPoly_value P S hS n q
  refine ⟨hpos, ?_⟩
  rw [hval]
  have q0 : (0 : ℝ) ≤ q := by exact_mod_cast h0
  have q1 : (q : ℝ) ≤ 1 := by exact_mod_cast h1
  have hc0 : (0 : ℝ) ≤ (P : ℝ) / S :=
    div_nonneg (by exact_mod_cast hP) (by exact_mod_cast hS.le)
  have he0 : 0 ≤ e := le_trans (by positivity) hlast
  generalize (P : ℝ) / S = c at *
  have hyle : c * q ≤ Real.pi / 2 * q := by gcongr
  have hdist : |c * q - Real.pi / 2 * q| ≤ e := by
    rw [abs_sub_comm, abs_of_nonneg (by linarith), ← sub_mul]
    have : (Real.pi / 2 - c) * q ≤ e * 1 := mul_le_mul (by linarith) q1 q0 he0
    linarith
  have ht := (cos_taylor (c * q) (by positivity) (by nlinarith [Real.pi_pos, Real.pi_lt_d2]) (n + 1)
    (by omega)).trans hlast
  have hcos := (Real.abs_cos_sub_cos_le (c * q) (Real.pi / 2 * q)).trans hdist
  rw [abs_sub_comm] at ht
  exact (abs_sub_le _ (Real.cos (c * q)) _).trans (by linarith)

/-- The first bracket's π/2 is below the exact one by less than 2^-252. -/
theorem halfPi_bounds : (piBits : ℝ) / 2 ^ 257 ≤ Real.pi / 2 ∧
    Real.pi / 2 ≤ (piBits : ℝ) / 2 ^ 257 + 1 / 2 ^ 252 := by
  obtain ⟨plo, phi⟩ := piBits_bounds
  generalize (piBits : ℝ) = P at *
  have e257 : P / 2 ^ 257 = P / 2 ^ 256 / 2 := by rw [div_div, ← pow_succ]
  have e256 : (P + 1) / 2 ^ 256 = P / 2 ^ 256 + 1 / 2 ^ 256 := by ring
  have esm : (1 : ℝ) / 2 ^ 256 ≤ 1 / 2 ^ 252 := by
    apply one_div_pow_le_one_div_pow_of_le <;> norm_num
  rw [e256] at phi
  rw [e257]
  constructor
  · linarith
  · have : (0 : ℝ) < 1 / 2 ^ 252 := by positivity
    linarith

/-- The first bracket's centre is within 2^-trigBits of the exact cosine. -/
theorem cosPoly_first (q : ℚ) (h0 : 0 ≤ q) (h1 : q ≤ 1) :
    0 < (cosPoly piBits halfPiScale 31 q).2 ∧
    |((cosPoly piBits halfPiScale 31 q).1 : ℝ) / (cosPoly piBits halfPiScale 31 q).2 - Real.cos (Real.pi / 2 * q)|
      ≤ 1 / 2 ^ trigBits := by
  have hs : halfPiScale = 2 ^ 257 := by decide
  have hc : (((piBits : ℕ) : ℤ) : ℝ) / (halfPiScale : ℝ) = (piBits : ℝ) / 2 ^ 257 := by
    rw [hs, Int.cast_pow, Int.cast_ofNat, Int.cast_natCast]
  obtain ⟨hpos, h⟩ := cosPoly_near piBits halfPiScale 31 (1 / 2 ^ 252) (by norm_num) (by positivity)
    (by rw [hs]; positivity)
    (by rw [hc]; exact halfPi_bounds.1) (by rw [hc]; exact halfPi_bounds.2) (by norm_num [Nat.factorial]) q h0 h1
  exact ⟨hpos, h.trans (by norm_num [trigBits])⟩

/-! ## The bracket -/

/-- What both ends of an interval round to is the rounding of every number in it. -/
theorem IsRNE.between {lo hi r : ℝ} {v : F64} (hl : IsRNE lo v) (hh : IsRNE hi v) (h1 : lo ≤ r) (h2 : r ≤ hi) :
    IsRNE r v := by
  have side : ∀ w, isFinite w = true →
      (realOf w ≤ realOf v → 2 * lo ≥ realOf w + realOf v ∨ realOf w = realOf v) ∧
      (realOf v ≤ realOf w → 2 * hi ≤ realOf w + realOf v ∨ realOf w = realOf v) := by
    intro w hw
    have n1 := hl.nearest w hw
    have n2 := hh.nearest w hw
    constructor
    · intro hwv
      by_contra hc
      push Not at hc
      have hlt : realOf w < realOf v := lt_of_le_of_ne hwv hc.2
      rw [abs_of_nonneg (by linarith : (0 : ℝ) ≤ realOf v - lo)] at n1
      rcases abs_cases (realOf w - lo) with ⟨e, _⟩ | ⟨e, _⟩ <;> linarith
    · intro hwv
      by_contra hc
      push Not at hc
      have hlt : realOf v < realOf w := lt_of_le_of_ne hwv (Ne.symm hc.2)
      rw [abs_of_nonpos (by linarith : realOf v - hi ≤ 0)] at n2
      rcases abs_cases (realOf w - hi) with ⟨e, _⟩ | ⟨e, _⟩ <;> linarith
  refine ⟨hl.finite, fun w hw => ?_, fun w hw hne he => ?_⟩
  · rcases le_total (realOf w) (realOf v) with hle | hle
    · rcases (side w hw).1 hle with h | h
      · rcases abs_cases (realOf v - r) with ⟨e, _⟩ | ⟨e, _⟩ <;>
          rcases abs_cases (realOf w - r) with ⟨e', _⟩ | ⟨e', _⟩ <;> linarith
      · rw [h]
    · rcases (side w hw).2 hle with h | h
      · rcases abs_cases (realOf v - r) with ⟨e, _⟩ | ⟨e, _⟩ <;>
          rcases abs_cases (realOf w - r) with ⟨e', _⟩ | ⟨e', _⟩ <;> linarith
      · rw [h]
  · rcases lt_or_gt_of_ne hne with hlt | hlt
    · have hs := ((side w hw).1 hlt.le).resolve_right hne
      have hr : 2 * r = realOf w + realOf v := by
        rcases abs_cases (realOf v - r) with ⟨e, _⟩ | ⟨e, _⟩ <;>
          rcases abs_cases (realOf w - r) with ⟨e', _⟩ | ⟨e', _⟩ <;> linarith
      have hlo : lo = r := by linarith
      exact hl.tieEven w hw hne (by rw [hlo]; exact he)
    · have hs := ((side w hw).2 hlt.le).resolve_right hne
      have hr : 2 * r = realOf w + realOf v := by
        rcases abs_cases (realOf v - r) with ⟨e, _⟩ | ⟨e, _⟩ <;>
          rcases abs_cases (realOf w - r) with ⟨e', _⟩ | ⟨e', _⟩ <;> linarith
      have hhi : hi = r := by linarith
      exact hh.tieEven w hw hne (by rw [hhi]; exact he)

theorem signedQuotient_units (k : Nat) (d : Nat) :
    signedQuotient false (k * 2 ^ 1074) d = (k : ℝ) / d := by
  unfold signedQuotient
  have : (2 : ℝ) ^ 1074 ≠ 0 := by positivity
  rw [if_neg Bool.false_ne_true, one_mul, Nat.cast_mul, Nat.cast_pow, Nat.cast_ofNat]
  field_simp

/-- The two ends of a bracket around a number c of 0 .. 1, as quotients of natural numbers in units of 2^-1074: they
enclose c, lie at most 2·2^-bits apart, and round below ∞. -/
theorem roundEnds_spec (a b : ℤ) (bits : ℕ) (c : ℝ) (hb : 0 < b) (h0 : 0 ≤ c) (h1 : c ≤ 1)
    (h : |(a : ℝ) / b - c| ≤ 1 / 2 ^ bits) :
    ∃ n1 n2 d : ℕ, 0 < d ∧ roundEnds a b bits = (roundMag (n1 * 2 ^ 1074) d, roundMag (n2 * 2 ^ 1074) d) ∧
      (n1 : ℝ) / d ≤ c ∧ c ≤ (n2 : ℝ) / d ∧ (n2 : ℝ) / d ≤ (n1 : ℝ) / d + 2 / 2 ^ bits ∧
      roundMag (n1 * 2 ^ 1074) d < infMag ∧ roundMag (n2 * 2 ^ 1074) d < infMag := by
  have hd : (0 : ℤ) < b * 2 ^ bits := by positivity
  have hdn : 0 < (b * 2 ^ bits).toNat := by omega
  have hbr : (0 : ℝ) < b := by exact_mod_cast hb
  have hpow : (0 : ℝ) < 2 ^ bits := by positivity
  have hdr : (((b * 2 ^ bits).toNat : ℕ) : ℝ) = b * 2 ^ bits := by
    have : (((b * 2 ^ bits).toNat : ℤ) : ℝ) = ((b * 2 ^ bits : ℤ) : ℝ) := by rw [Int.toNat_of_nonneg hd.le]
    push_cast at this; exact this
  have quot : ∀ z : ℤ, ((z.toNat : ℕ) : ℝ) / ((b * 2 ^ bits).toNat : ℕ) = max (z : ℝ) 0 / (b * 2 ^ bits) := by
    intro z
    have : (((z.toNat : ℕ) : ℤ) : ℝ) = ((max z 0 : ℤ) : ℝ) := by rw [Int.toNat_eq_max]
    push_cast at this
    rw [hdr, this]
  have q1 := quot (a * 2 ^ bits - b)
  have q2 := quot (a * 2 ^ bits + b)
  have hbp : (0 : ℝ) < b * 2 ^ bits := by positivity
  have v1 : ((a * 2 ^ bits - b : ℤ) : ℝ) / (b * 2 ^ bits) = (a : ℝ) / b - 1 / 2 ^ bits := by
    push_cast; field_simp
  have v2 : ((a * 2 ^ bits + b : ℤ) : ℝ) / (b * 2 ^ bits) = (a : ℝ) / b + 1 / 2 ^ bits := by
    push_cast; field_simp
  rw [← max_div_div_right hbp.le, zero_div, v1] at q1
  rw [← max_div_div_right hbp.le, zero_div, v2] at q2
  obtain ⟨e1, e2⟩ := abs_le.mp h
  have small : (1 : ℝ) / 2 ^ bits ≤ 1 := by
    rw [div_le_one hpow]; exact one_le_pow₀ (by norm_num)
  have pos : (0 : ℝ) < 1 / 2 ^ bits := by positivity
  have two : (2 : ℝ) / 2 ^ bits = 2 * (1 / 2 ^ bits) := by ring
  have inr : ∀ k : ℕ, (k : ℝ) / ((b * 2 ^ bits).toNat : ℕ) ≤ 3 →
      roundMag (k * 2 ^ 1074) (b * 2 ^ bits).toNat < infMag := fun k hk => by
    rw [roundMag_lt_inf_iff_inRange hdn false, signedQuotient_units, InRange,
      abs_of_nonneg (by positivity)]
    refine lt_of_le_of_lt hk ?_
    have : (2 : ℝ) ^ 1024 = 2 ^ 54 * 2 ^ 970 := by rw [← pow_add]
    rw [this]
    have hbig : (1 : ℝ) ≤ 2 ^ 970 := one_le_pow₀ (by norm_num)
    generalize (2 : ℝ) ^ 970 = u at *
    clear hk
    norm_num
    linarith only [hbig]
  refine ⟨_, _, _, hdn, rfl, ?_, ?_, ?_, inr _ ?_, inr _ ?_⟩
  · rw [q1]; exact max_le (by linarith) h0
  · rw [q2]; exact le_max_of_le_left (by linarith)
  · rw [q1, q2, two]; refine max_le ?_ ?_
    · have := le_max_left ((a : ℝ) / b - 1 / 2 ^ bits) 0; linarith
    · have := le_max_right ((a : ℝ) / b - 1 / 2 ^ bits) 0; linarith
  · rw [q1]; exact max_le (by linarith) (by norm_num)
  · rw [q2]; exact max_le (by linarith) (by norm_num)

/-- A bracket around c whose ends round alike gives RNE of c. -/
theorem roundEnds_isRNE (a b : ℤ) (bits : ℕ) (c : ℝ) (hb : 0 < b) (h0 : 0 ≤ c) (h1 : c ≤ 1)
    (h : |(a : ℝ) / b - c| ≤ 1 / 2 ^ bits) (he : (roundEnds a b bits).1 = (roundEnds a b bits).2) :
    IsRNE c (packF64 false (roundEnds a b bits).1) := by
  obtain ⟨n1, n2, d, hd, hr, l1, l2, -, f1, f2⟩ := roundEnds_spec a b bits c hb h0 h1 h
  rw [hr] at he ⊢
  have rlo := isRNE_packF64 hd false f1
  have rhi := isRNE_packF64 hd false f2
  simp only at he ⊢
  rw [← he] at rhi
  rw [signedQuotient_units] at rlo rhi
  exact rlo.between rhi l1 l2

/-- The first bracket's rounding, where its ends round alike. -/
theorem cosBracket_some (q : ℚ) (m : ℕ) (h : cosBracket q = some m) :
    ∃ p, p = cosPoly piBits halfPiScale 31 q ∧ (roundEnds p.1 p.2 trigBits).1 = m ∧
      (roundEnds p.1 p.2 trigBits).1 = (roundEnds p.1 p.2 trigBits).2 := by
  unfold cosBracket at h
  generalize cosPoly piBits halfPiScale 31 q = p at h ⊢
  simp only at h
  split_ifs at h with he
  exact ⟨p, rfl, Option.some.inj h, he.2⟩

/-- Where the first bracket decides, it gives RNE of the exact cosine. -/
theorem cosBracket_isRNE (q : ℚ) (h0 : 0 ≤ q) (h1 : q ≤ 1) (m : ℕ) (h : cosBracket q = some m) :
    IsRNE (Real.cos (Real.pi / 2 * q)) (packF64 false m) := by
  have q0 : (0 : ℝ) ≤ q := by exact_mod_cast h0
  have q1 : (q : ℝ) ≤ 1 := by exact_mod_cast h1
  obtain ⟨hb, herr⟩ := cosPoly_first q h0 h1
  obtain ⟨p, hp, rfl, he⟩ := cosBracket_some q m h
  rw [← hp] at hb herr
  exact roundEnds_isRNE p.1 p.2 trigBits _ hb
    (Real.cos_nonneg_of_neg_pi_div_two_le_of_le (by nlinarith [Real.pi_pos]) (by nlinarith [Real.pi_pos]))
    (Real.cos_le_one _) herr he

/-! ## The generator -/

theorem roundEnds_lt (a b : ℤ) (bits : ℕ) : (roundEnds a b bits).1 < 2 ^ 63 :=
  lt_of_le_of_lt (roundMag_le_inf _ _) infMag_lt

theorem cosDecided_lt (q : ℚ) : cosDecided q < 2 ^ 63 := by
  rw [cosDecided]; exact roundEnds_lt _ _ _

/-- A cosine of the first quadrant has sign bit 0 (40_datapath.md R130). -/
theorem cosQuarter_pos (q : ℚ) : ∃ m, m < 2 ^ 63 ∧ cosQuarter q = packF64 false m := by
  unfold cosQuarter
  split_ifs with h
  · exact ⟨0, by norm_num, rfl⟩
  · cases hb : cosBracket q with
    | none => exact ⟨cosDecided q, cosDecided_lt q, rfl⟩
    | some m =>
      obtain ⟨p, -, rfl, -⟩ := cosBracket_some q m hb
      exact ⟨_, roundEnds_lt _ _ _, rfl⟩

/-- Gen by the quadrant of its angle, (π/2)·(k + m/D) (40_datapath.md R130, R133). -/
theorem gen_quadrant (r D k m : Nat) (s : Direction) (hD : 0 < D) (hr : r < D) (h : 4 * r = k * D + m) (hm : m < D) :
    gen r D s = match (generalizing := false) k with
      | 0 => ⟨cosQuarter ((m : ℚ) / D), signed s (cosQuarter (1 - (m : ℚ) / D))⟩
      | 1 => ⟨negNonzero (cosQuarter (1 - (m : ℚ) / D)), signed s (cosQuarter ((m : ℚ) / D))⟩
      | 2 => ⟨negNonzero (cosQuarter ((m : ℚ) / D)), signed s (negNonzero (cosQuarter (1 - (m : ℚ) / D)))⟩
      | _ => ⟨cosQuarter (1 - (m : ℚ) / D), signed s (negNonzero (cosQuarter ((m : ℚ) / D)))⟩ := by
  have h1 : 4 * r / D = k := by
    rw [h, Nat.mul_comm, Nat.mul_add_div hD, Nat.div_eq_of_lt hm, Nat.add_zero]
  have h2 : 4 * r % D = m := by
    rw [h, Nat.mul_comm, Nat.mul_add_mod, Nat.mod_eq_of_lt hm]
  unfold gen
  rw [Nat.mod_eq_of_lt hr, h1, h2] <;> rfl

end Sys2Proof.Machine
end

