-- ==== Sys2Proof/Laws/TrigExact.lean ====
section
/-!
SUPPORT. The generator's cosine is RNE of the exact cosine at every angle (Machine/Trig.lean, 40_datapath.md R130,
log 7): no number where the rounding changes lies within the second bracket of the cosine of a rational multiple
of π, so both ends of that bracket round alike.
-/

namespace Sys2Proof.Machine

/-! ## Dyadic numbers are far from the cosines of rational multiples of π -/

/-- With 2·cos φ = p/2^J, 2·cos(kφ) is a multiple of 2^-Jk, an odd one where p is odd, J ≥ 1 and k ≥ 1. -/
theorem two_cos_multiple (φ : ℝ) (p : ℤ) (J : ℕ) (h : 2 * Real.cos φ = p / 2 ^ J) (hp : Odd p) (hJ : 1 ≤ J) (k : ℕ) :
    ∃ z z' : ℤ, 2 * Real.cos (k * φ) = z / 2 ^ (J * k) ∧
      2 * Real.cos ((k + 1 : ℕ) * φ) = z' / 2 ^ (J * (k + 1)) ∧ Odd z' := by
  induction k with
  | zero => exact ⟨2, p, by simp, by simpa using h, hp⟩
  | succ k ih =>
    obtain ⟨z, z', h1, h2, ho⟩ := ih
    refine ⟨z', p * z' - 2 ^ (2 * J) * z, h2, ?_, ?_⟩
    · have hsum : Real.cos ((k + 1 + 1 : ℕ) * φ) + Real.cos (k * φ) =
          2 * Real.cos φ * Real.cos ((k + 1 : ℕ) * φ) := by
        rw [Real.cos_add_cos]
        push_cast
        rw [show (((k : ℝ) + 1 + 1) * φ + k * φ) / 2 = (k + 1) * φ by ring,
          show (((k : ℝ) + 1 + 1) * φ - k * φ) / 2 = φ by ring]
        ring
      have : 2 * Real.cos ((k + 1 + 1 : ℕ) * φ) = (2 * Real.cos φ) * (2 * Real.cos ((k + 1 : ℕ) * φ))
          - 2 * Real.cos (k * φ) := by linarith
      rw [this, h, h2, h1]
      push_cast
      rw [show J * (k + 1 + 1) = J * k + 2 * J by ring, show J * (k + 1) = J * k + J by ring,
        pow_add, pow_add, show 2 * J = J + J by ring, pow_add]
      field_simp
    · have he : Even ((2 : ℤ) ^ (2 * J) * z) := by
        rw [show 2 * J = 2 * J - 1 + 1 by omega, pow_succ, mul_assoc, mul_comm, mul_assoc]
        exact even_two_mul _
      exact (hp.mul ho).sub_even he

/-- With 2·cos φ = p/2^J no integer, 2·cos(nφ) is at least 2^-Jn away from 2. -/
theorem two_cos_far (φ : ℝ) (p : ℤ) (J n : ℕ) (h : 2 * Real.cos φ = p / 2 ^ J) (hni : ∀ k : ℤ, 2 * Real.cos φ ≠ k)
    (hn : 1 ≤ n) : 1 / 2 ^ (J * n) ≤ |2 * Real.cos (n * φ) - 2| := by
  induction J generalizing p with
  | zero => exact absurd (by simpa using h) (hni p)
  | succ J ih =>
    rcases Int.even_or_odd p with ⟨p', rfl⟩ | hp
    · refine le_trans ?_ (ih p' ?_)
      · gcongr
        · norm_num
        · omega
      · rw [h, pow_succ]; push_cast; field_simp; ring
    · obtain ⟨k, rfl⟩ : ∃ k, n = k + 1 := ⟨n - 1, by omega⟩
      obtain ⟨_, z, -, hz, ho⟩ := two_cos_multiple φ p (J + 1) h hp (by omega) k
      rw [hz]
      generalize hN : (J + 1) * (k + 1) = N
      have hN1 : 1 ≤ N := by rw [← hN]; exact Nat.mul_pos (by omega) (by omega)
      have hodd : z - 2 * 2 ^ N ≠ 0 := by
        intro hc
        have : Even z := ⟨2 ^ N, by omega⟩
        exact (Int.not_even_iff_odd.mpr ho) this
      have h1 : (1 : ℝ) ≤ |((z - 2 * 2 ^ N : ℤ) : ℝ)| := by exact_mod_cast Int.one_le_abs hodd
      have hpos : (0 : ℝ) < 2 ^ N := by positivity
      have : (z : ℝ) / 2 ^ N - 2 = ((z - 2 * 2 ^ N : ℤ) : ℝ) / 2 ^ N := by push_cast; field_simp
      rw [this, abs_div, abs_of_pos hpos]
      gcongr

theorem abs_sin_nat_mul_le (x : ℝ) (n : ℕ) : |Real.sin (n * x)| ≤ n * |Real.sin x| := by
  induction n with
  | zero => simp
  | succ n ih =>
    rw [Nat.cast_succ, add_mul, one_mul, Real.sin_add, add_mul, one_mul]
    refine (abs_add_le _ _).trans (add_le_add ?_ ?_)
    · rw [abs_mul]; exact (mul_le_of_le_one_right (abs_nonneg _) (Real.abs_cos_le_one _)).trans ih
    · rw [abs_mul]; exact mul_le_of_le_one_left (abs_nonneg _) (Real.abs_cos_le_one _)

/-- Multiplying both angles by n moves two cosines apart by at most n². -/
theorem abs_cos_nat_mul_sub_le (x y : ℝ) (n : ℕ) :
    |Real.cos (n * x) - Real.cos (n * y)| ≤ n ^ 2 * |Real.cos x - Real.cos y| := by
  rw [Real.cos_sub_cos, Real.cos_sub_cos]
  have h1 := abs_sin_nat_mul_le ((x + y) / 2) n
  have h2 := abs_sin_nat_mul_le ((x - y) / 2) n
  rw [show (n * x + n * y) / 2 = n * ((x + y) / 2) by ring, show (n * x - n * y) / 2 = n * ((x - y) / 2) by ring]
  rw [abs_mul, abs_mul, abs_mul (-2 * _), abs_mul (-2)]
  calc |(-2 : ℝ)| * |Real.sin (n * ((x + y) / 2))| * |Real.sin (n * ((x - y) / 2))|
      ≤ |(-2 : ℝ)| * (n * |Real.sin ((x + y) / 2)|) * (n * |Real.sin ((x - y) / 2)|) := by gcongr
    _ = _ := by ring

/-- A number B/2^1075 of 0 .. 1 whose double is no integer is far from the cosine of (π/2)·q. -/
theorem cos_far (q : ℚ) (B : ℕ) (h1 : (B : ℝ) / 2 ^ 1075 ≤ 1) (hni : ∀ k : ℤ, 2 * ((B : ℝ) / 2 ^ 1075) ≠ k) :
    (1 : ℝ) / (2 ^ (1074 * (4 * q.den)) * (2 * ((4 * q.den : ℕ) : ℝ) ^ 2)) ≤
      |(B : ℝ) / 2 ^ 1075 - Real.cos (Real.pi / 2 * q)| := by
  have hcos : Real.cos (Real.arccos ((B : ℝ) / 2 ^ 1075)) = (B : ℝ) / 2 ^ 1075 :=
    Real.cos_arccos (le_trans (by norm_num) (by positivity : (0 : ℝ) ≤ (B : ℝ) / 2 ^ 1075)) h1
  have hdbl : 2 * Real.cos (Real.arccos ((B : ℝ) / 2 ^ 1075)) = ((B : ℤ) : ℝ) / 2 ^ 1074 := by
    rw [hcos, Int.cast_natCast, show (1075 : ℕ) = 1074 + 1 from rfl, pow_succ]
    field_simp
  have hden : 0 < q.den := q.den_pos
  have hone : Real.cos ((4 * q.den : ℕ) * (Real.pi / 2 * q)) = 1 := by
    have hq : (q : ℝ) = (q.num : ℝ) / q.den := by exact_mod_cast (Rat.num_div_den q).symm
    have hd : (q.den : ℝ) ≠ 0 := by exact_mod_cast hden.ne'
    have : ((4 * q.den : ℕ) : ℝ) * (Real.pi / 2 * q) = q.num * (2 * Real.pi) := by
      rw [hq]; push_cast; field_simp; ring
    rw [this, Real.cos_int_mul_two_pi]
  have hfar := two_cos_far _ _ 1074 (4 * q.den) hdbl (fun k => by rw [hcos]; exact hni k) (by omega)
  have hle := abs_cos_nat_mul_sub_le (Real.arccos ((B : ℝ) / 2 ^ 1075)) (Real.pi / 2 * q) (4 * q.den)
  rw [hone, hcos] at hle
  have h2 : |2 * Real.cos ((4 * q.den : ℕ) * Real.arccos ((B : ℝ) / 2 ^ 1075)) - 2| =
      2 * |Real.cos ((4 * q.den : ℕ) * Real.arccos ((B : ℝ) / 2 ^ 1075)) - 1| := by
    rw [show ∀ x : ℝ, 2 * x - 2 = 2 * (x - 1) from fun x => by ring, abs_mul, abs_two]
  rw [h2] at hfar
  have hn : (0 : ℝ) < 2 * ((4 * q.den : ℕ) : ℝ) ^ 2 := by positivity
  rw [← div_div, div_le_iff₀ hn]
  linarith

/-! ## Where a rounding changes -/

/-- Two quotients that round differently have between them the half-way point of two neighbouring encodings. -/
theorem roundMag_boundary {n1 n2 d : ℕ} (hd : 0 < d) (h : n1 ≤ n2) (f1 : roundMag n1 d < infMag)
    (f2 : roundMag n2 d < infMag) (hne : roundMag n1 d ≠ roundMag n2 d) :
    ∃ m, 2 * n1 ≤ (unitsOfMag m + unitsOfMag (m + 1)) * d ∧ (unitsOfMag m + unitsOfMag (m + 1)) * d ≤ 2 * n2 := by
  have s1 := fun m => (roundMag_spec hd f1 m).1
  have s2 := fun m => (roundMag_spec hd f2 m).1
  have split : ∀ u v n : ℤ, u < v → (|u * d - n| ≤ |v * d - n| → 2 * n ≤ (u + v) * d) ∧
      (|v * d - n| ≤ |u * d - n| → (u + v) * d ≤ 2 * n) := by
    intro u v n huv
    have : u * d < v * d := mul_lt_mul_of_pos_right huv (by exact_mod_cast hd)
    rw [add_mul]
    constructor <;> intro hle <;> rcases abs_cases (u * d - n) with ⟨e, _⟩ | ⟨e, _⟩ <;>
      rcases abs_cases (v * d - n) with ⟨e', _⟩ | ⟨e', _⟩ <;> omega
  rcases lt_or_gt_of_ne hne with hlt | hgt
  · refine ⟨roundMag n1 d, ?_, ?_⟩
    · have := (split _ _ _ (by exact_mod_cast unitsOfMag_lt_succ (roundMag n1 d))).1 (s1 (roundMag n1 d + 1))
      exact_mod_cast this
    · have h3 := (split _ _ _ (by exact_mod_cast unitsOfMag_strictMono hlt)).2 (s2 (roundMag n1 d))
      have h4 : unitsOfMag (roundMag n1 d + 1) ≤ unitsOfMag (roundMag n2 d) := unitsOfMag_strictMono.monotone hlt
      have h5 : (unitsOfMag (roundMag n1 d) + unitsOfMag (roundMag n1 d + 1)) * d ≤
        (unitsOfMag (roundMag n1 d) + unitsOfMag (roundMag n2 d)) * d := Nat.mul_le_mul_right _ (by omega)
      have h6 : (unitsOfMag (roundMag n1 d) + unitsOfMag (roundMag n2 d)) * d ≤ 2 * n2 := by exact_mod_cast h3
      omega
  · exfalso
    have hu : (unitsOfMag (roundMag n2 d) : ℤ) < unitsOfMag (roundMag n1 d) := by
      exact_mod_cast unitsOfMag_strictMono hgt
    have h3 := (split _ _ _ hu).2 (s1 (roundMag n2 d))
    have h4 := (split _ _ _ hu).1 (s2 (roundMag n1 d))
    have : n1 = n2 := by omega
    exact hne (by rw [this])

/-- No half-way point of two neighbouring encodings is itself a binary64 value. -/
theorem boundary_ne_value (m e : ℕ) : unitsOfMag m + unitsOfMag (m + 1) ≠ 2 * unitsOfMag e := by
  intro h
  have h1 := unitsOfMag_lt_succ m
  have h2 : m < e := unitsOfMag_strictMono.lt_iff_lt.mp (by omega)
  have h3 : e < m + 1 := unitsOfMag_strictMono.lt_iff_lt.mp (by omega)
  omega

/-- The encodings of 1/2 and 1. -/
theorem unitsOfMag_half_one : unitsOfMag (1021 * 2 ^ 52 + 2 ^ 52) = 2 ^ 52 * 2 ^ 1021 ∧
    unitsOfMag (1022 * 2 ^ 52 + 2 ^ 52) = 2 ^ 52 * 2 ^ 1022 :=
  ⟨unitsOfMag_step _ _ (by norm_num) (.inr le_rfl), unitsOfMag_step _ _ (by norm_num) (.inr le_rfl)⟩

/-- The double of a half-way point of 0 .. 1 is no integer. -/
theorem boundary_double (m : ℕ) (h1 : (((unitsOfMag m + unitsOfMag (m + 1) : ℕ)) : ℝ) / 2 ^ 1075 ≤ 1) (k : ℤ) :
    2 * ((((unitsOfMag m + unitsOfMag (m + 1) : ℕ)) : ℝ) / 2 ^ 1075) ≠ k := by
  intro hk
  have hB : 0 < unitsOfMag m + unitsOfMag (m + 1) := by have := unitsOfMag_lt_succ m; omega
  have half := boundary_ne_value m (1021 * 2 ^ 52 + 2 ^ 52)
  have one := boundary_ne_value m (1022 * 2 ^ 52 + 2 ^ 52)
  rw [unitsOfMag_half_one.1] at half
  rw [unitsOfMag_half_one.2] at one
  generalize unitsOfMag m + unitsOfMag (m + 1) = B at *
  have hB0 : (0 : ℝ) < B := by exact_mod_cast hB
  have hp : (0 : ℝ) < 2 ^ 1075 := by positivity
  have hlo : (0 : ℝ) < k := by rw [← hk]; positivity
  have hhi : (k : ℝ) ≤ 2 := by rw [← hk]; linarith
  have hlo' : 0 < k := by exact_mod_cast hlo
  have hhi' : k ≤ 2 := by exact_mod_cast hhi
  have e1 : (2 : ℕ) * (2 ^ 52 * 2 ^ 1021) = 2 ^ 1074 := by rw [← pow_add, ← pow_succ']
  have e2 : (2 : ℕ) * (2 ^ 52 * 2 ^ 1022) = 2 ^ 1075 := by rw [← pow_add, ← pow_succ']
  rw [e1] at half
  rw [e2] at one
  have e3 : (2 : ℝ) ^ 1075 = 2 * 2 ^ 1074 := by rw [← pow_succ']
  obtain rfl | rfl : k = 1 ∨ k = 2 := by omega
  · apply half
    have : (B : ℝ) = 2 ^ 1074 := by
      have h := hk
      rw [e3] at h
      have hp' : (0 : ℝ) < 2 ^ 1074 := by positivity
      generalize (2 : ℝ) ^ 1074 = u at *
      field_simp at h
      simpa using h
    exact_mod_cast this
  · apply one
    have : (B : ℝ) = 2 ^ 1075 := by
      have h := hk
      generalize (2 : ℝ) ^ 1075 = u at *
      field_simp at h
      push_cast at h
      linarith
    exact_mod_cast this

/-! ## The second bracket -/

/-- The second bracket's centre is within 2^-bits of the exact cosine. -/
theorem cosFine_near (p : ℕ) (q : ℚ) (h0 : 0 ≤ q) (h1 : q ≤ 1) :
    0 < (cosFine p q).2 ∧
    |((cosFine p q).1 : ℝ) / (cosFine p q).2 - Real.cos (Real.pi / 2 * q)| ≤ 1 / 2 ^ p := by
  obtain ⟨plo, phi⟩ := piBelow_bounds (p + 1)
  have hsm : (4 : ℝ) / 2 ^ (4 * (p + 1)) ≤ 2 * (1 / 2 ^ (p + 1)) := by
    have : (2 : ℝ) ^ (4 * (p + 1)) = 2 ^ (p + 1) * 2 ^ (3 * p + 2) * 2 := by
      rw [← pow_add, ← pow_succ]; congr 1; ring
    have h4 : (1 : ℝ) ≤ 2 ^ (3 * p + 2) := one_le_pow₀ (by norm_num)
    rw [this, div_le_iff₀ (by positivity)]
    have hp : (0 : ℝ) < 2 ^ (p + 1) := by positivity
    field_simp
    nlinarith
  have hle : (1 : ℝ) / 2 ^ (p + 1) ≤ 1 / 2 := by
    rw [pow_succ]
    have : (1 : ℝ) ≤ 2 ^ p := one_le_pow₀ (by norm_num)
    gcongr; linarith
  have hpos : (0 : ℝ) < piBelow (p + 1) := by linarith [Real.pi_gt_three]
  have hposq : 0 < piBelow (p + 1) := by exact_mod_cast hpos
  have hden : (0 : ℤ) < (piBelow (p + 1)).den := by exact_mod_cast (piBelow (p + 1)).den_pos
  have hr : ((piBelow (p + 1)).num : ℝ) / ((2 * (piBelow (p + 1)).den : ℤ) : ℝ) = (piBelow (p + 1) : ℝ) / 2 := by
    have hq : ((piBelow (p + 1) : ℚ) : ℝ) = ((piBelow (p + 1)).num : ℝ) / (piBelow (p + 1)).den := by
      exact_mod_cast (Rat.num_div_den (piBelow (p + 1))).symm
    rw [hq]; push_cast
    have hd : ((piBelow (p + 1)).den : ℝ) ≠ 0 := by exact_mod_cast (piBelow (p + 1)).den_ne_zero
    field_simp
  have hfac : ∀ m : ℕ, (5 : ℝ) ^ (m + 3) ≤ ((2 * (m + 3)).factorial : ℝ) := by
    intro m
    induction m with
    | zero => norm_num [Nat.factorial]
    | succ m ih =>
      rw [show 2 * (m + 1 + 3) = 2 * (m + 3) + 1 + 1 by ring, Nat.factorial_succ, Nat.factorial_succ,
        show m + 1 + 3 = m + 3 + 1 by ring, pow_succ]
      push_cast
      have : (0 : ℝ) ≤ m := by positivity
      have hF : (0 : ℝ) ≤ ((2 * (m + 3)).factorial : ℝ) := by positivity
      nlinarith [mul_nonneg this hF]
  have hlast : (1.58 : ℝ) ^ (2 * (p + 2 + 1)) / ((2 * (p + 2 + 1)).factorial : ℝ) * 2 ≤ 1 / 2 ^ (p + 1) := by
    have h5 := hfac p
    rw [show p + 2 + 1 = p + 3 by ring, pow_mul]
    have h25 : ((1.58 : ℝ) ^ 2) ^ (p + 3) ≤ 2.5 ^ (p + 3) := by gcongr; norm_num
    have h5' : (2.5 : ℝ) ^ (p + 3) * 2 ^ (p + 3) = 5 ^ (p + 3) := by rw [← mul_pow]; norm_num
    have h2 : (2 : ℝ) ^ (p + 3) = 2 ^ (p + 1) * 4 := by rw [show p + 3 = p + 1 + 2 by ring, pow_add]; norm_num
    rw [h2] at h5'
    have hF : (0 : ℝ) < ((2 * (p + 3)).factorial : ℝ) := by positivity
    rw [div_mul_eq_mul_div, div_le_div_iff₀ hF (by positivity)]
    have hp : (0 : ℝ) < 2 ^ (p + 1) := by positivity
    nlinarith
  obtain ⟨hb, h⟩ := cosPoly_near (piBelow (p + 1)).num (2 * (piBelow (p + 1)).den) (p + 2) (1 / 2 ^ (p + 1))
    (by omega) (Rat.num_nonneg.mpr hposq.le) (by positivity) (by rw [hr]; linarith) (by rw [hr]; linarith)
    hlast q h0 h1
  refine ⟨hb, h.trans (le_of_eq ?_)⟩
  rw [pow_succ]; field_simp

/-- The second bracket is narrower than the distance from the cosine to any half-way point. -/
theorem decidingBits_narrow (v : ℕ) (hv : 1 ≤ v) :
    (2 : ℝ) / 2 ^ decidingBits v < 1 / (2 ^ (1074 * (4 * v)) * (2 * ((4 * v : ℕ) : ℝ) ^ 2)) ∧
      (2 : ℝ) / 2 ^ decidingBits v < 1 / 2 ^ 1075 := by
  have hsplit : (2 : ℝ) ^ decidingBits v = 2 ^ (1074 * (4 * v)) * 2 ^ (8 * v) * 256 := by
    rw [← pow_add, show (256 : ℝ) = 2 ^ 8 by norm_num, ← pow_add]; congr 1; unfold decidingBits; ring
  have hv2 : (v : ℝ) ≤ 2 ^ v := by exact_mod_cast (Nat.lt_two_pow_self (n := v)).le
  have h8 : (2 : ℝ) ^ (8 * v) = (2 ^ v) ^ 8 := by rw [← pow_mul, mul_comm]
  have hu1 : (1 : ℝ) ≤ 2 ^ v := one_le_pow₀ (by norm_num)
  have hv0 : (1 : ℝ) ≤ v := by exact_mod_cast hv
  constructor
  · rw [hsplit, h8]
    have hA : (0 : ℝ) < 2 ^ (1074 * (4 * v)) := by positivity
    generalize (2 : ℝ) ^ (1074 * (4 * v)) = A at *
    generalize (2 : ℝ) ^ v = u at *
    push_cast
    rw [div_lt_div_iff₀ (by positivity) (by positivity)]
    have h1 : (v : ℝ) ^ 2 ≤ u ^ 8 := by
      calc (v : ℝ) ^ 2 ≤ u ^ 2 := by gcongr
        _ ≤ u ^ 8 := pow_le_pow_right₀ hu1 (by norm_num)
    have h2 := mul_le_mul_of_nonneg_left h1 hA.le
    have h3 : 0 < A * u ^ 8 := by positivity
    linarith
  · have : (2 : ℝ) ^ 1076 < 2 ^ decidingBits v :=
      pow_lt_pow_right₀ (by norm_num) (by unfold decidingBits; omega)
    rw [show (1076 : ℕ) = 1075 + 1 from rfl, pow_succ] at this
    have hp : (0 : ℝ) < 2 ^ 1075 := by positivity
    generalize (2 : ℝ) ^ 1075 = u at *
    rw [div_lt_div_iff₀ (by linarith) hp]
    linarith

/-- Both ends of the second bracket round alike. -/
theorem cosFine_ends (q : ℚ) (h0 : 0 ≤ q) (h1 : q ≤ 1) :
    (roundEnds (cosFine (decidingBits q.den) q).1 (cosFine (decidingBits q.den) q).2 (decidingBits q.den)).1 =
      (roundEnds (cosFine (decidingBits q.den) q).1 (cosFine (decidingBits q.den) q).2 (decidingBits q.den)).2 := by
  have q0 : (0 : ℝ) ≤ q := by exact_mod_cast h0
  have q1 : (q : ℝ) ≤ 1 := by exact_mod_cast h1
  have hc0 : 0 ≤ Real.cos (Real.pi / 2 * q) :=
    Real.cos_nonneg_of_neg_pi_div_two_le_of_le (by nlinarith [Real.pi_pos]) (by nlinarith [Real.pi_pos])
  have hc1 : Real.cos (Real.pi / 2 * q) ≤ 1 := Real.cos_le_one _
  obtain ⟨hb, herr⟩ := cosFine_near (decidingBits q.den) q h0 h1
  obtain ⟨narrow, narrow'⟩ := decidingBits_narrow q.den q.den_pos
  have far := fun m => cos_far q (unitsOfMag m + unitsOfMag (m + 1))
  generalize hcd : Real.cos (Real.pi / 2 * q) = c at *
  generalize hbits : decidingBits q.den = bits at *
  obtain ⟨n1, n2, d, hd, hr, l1, l2, hw, f1, f2⟩ := roundEnds_spec _ _ bits c hb hc0 hc1 herr
  rw [hr]
  by_contra hne
  have hdr : (0 : ℝ) < d := by exact_mod_cast hd
  have hle : n1 ≤ n2 := by
    have := l1.trans l2
    rw [div_le_div_iff_of_pos_right hdr] at this
    exact_mod_cast this
  have hle' : n1 * 2 ^ 1074 ≤ n2 * 2 ^ 1074 := Nat.mul_le_mul_right (2 ^ 1074) hle
  obtain ⟨m, b1, b2⟩ := roundMag_boundary hd hle' f1 f2 hne
  have dbl := boundary_double m
  have far := far m
  have hlt := unitsOfMag_lt_succ m
  generalize unitsOfMag m + unitsOfMag (m + 1) = B at *
  have hp : (0 : ℝ) < 2 ^ 1074 := by positivity
  have e3 : (2 : ℝ) ^ 1075 = 2 * 2 ^ 1074 := by rw [← pow_succ']
  have c1 : (n1 : ℝ) / d ≤ (B : ℝ) / 2 ^ 1075 := by
    have : (((2 * (n1 * 2 ^ 1074) : ℕ)) : ℝ) ≤ ((B * d : ℕ) : ℝ) := Nat.cast_le.mpr b1
    rw [Nat.cast_mul, Nat.cast_mul, Nat.cast_mul, Nat.cast_pow, Nat.cast_ofNat] at this
    rw [e3, div_le_div_iff₀ hdr (by positivity)]; linarith
  have c2 : (B : ℝ) / 2 ^ 1075 ≤ (n2 : ℝ) / d := by
    have : ((B * d : ℕ) : ℝ) ≤ (((2 * (n2 * 2 ^ 1074) : ℕ)) : ℝ) := Nat.cast_le.mpr b2
    rw [Nat.cast_mul, Nat.cast_mul, Nat.cast_mul, Nat.cast_pow, Nat.cast_ofNat] at this
    rw [e3, div_le_div_iff₀ (by positivity) hdr]; linarith
  have near : |(B : ℝ) / 2 ^ 1075 - c| ≤ 2 / 2 ^ bits := by
    rw [abs_le]; constructor <;> linarith
  rcases le_or_gt ((B : ℝ) / 2 ^ 1075) 1 with hB | hB
  · have := far hB (dbl hB)
    linarith
  · have hB' : (2 : ℝ) ^ 1075 < B := by rwa [lt_div_iff₀ (by positivity), one_mul] at hB
    have : (2 : ℝ) ^ 1075 + 1 ≤ B := by
      obtain ⟨K, hK⟩ : ∃ K : ℕ, (2 : ℝ) ^ 1075 = K := ⟨2 ^ 1075, by rw [Nat.cast_pow, Nat.cast_ofNat]⟩
      rw [hK] at hB' ⊢
      exact_mod_cast hB'
    have : 1 + 1 / 2 ^ 1075 ≤ (B : ℝ) / 2 ^ 1075 := by
      have hp5 : (0 : ℝ) < 2 ^ 1075 := by positivity
      rw [le_div_iff₀ hp5, add_mul, one_div, inv_mul_cancel₀ hp5.ne']; linarith
    have := (abs_le.mp near).2
    linarith

/-- The generator's cosine is RNE of the exact cosine (40_datapath.md R130). -/
theorem cosQuarter_isRNE (q : ℚ) (h0 : 0 ≤ q) (h1 : q ≤ 1) :
    IsRNE (Real.cos (Real.pi / 2 * q)) (cosQuarter q) := by
  by_cases hq : q = 1
  · subst hq
    have hz : cosQuarter 1 = packF64 false (roundMag 0 1) := by
      simp [cosQuarter, roundMag, rneDiv, zeroF, packF64]
    have hr : Real.cos (Real.pi / 2 * ((1 : ℚ) : ℝ)) = signedQuotient false 0 1 := by
      simp [signedQuotient]
    rw [hz, hr]
    exact isRNE_packF64 one_pos false (by norm_num [roundMag, rneDiv, infMag])
  · rw [cosQuarter, if_neg hq]
    cases hb : cosBracket q with
    | some m => exact cosBracket_isRNE q h0 h1 m hb
    | none =>
      have q0 : (0 : ℝ) ≤ q := by exact_mod_cast h0
      have q1 : (q : ℝ) ≤ 1 := by exact_mod_cast h1
      obtain ⟨hpos, herr⟩ := cosFine_near (decidingBits q.den) q h0 h1
      simp only [cosDecided]
      exact roundEnds_isRNE _ _ _ _ hpos
        (Real.cos_nonneg_of_neg_pi_div_two_le_of_le (by nlinarith [Real.pi_pos]) (by nlinarith [Real.pi_pos]))
        (Real.cos_le_one _) herr (cosFine_ends q h0 h1)

end Sys2Proof.Machine
end

