-- ==== Sys2Proof/Tests/Slice0.lean ====
section
/-!
SUPPORT. Tests of the model against the vectors of spec/95_test_vectors.md and the examples of the rules, and for
every statement that has hypotheses a concrete state and operands that meet them.
-/

namespace Sys2Proof.Tests

open Sys2Proof Sys2Proof.Machine

-- one theorem at a time: the kernel evaluates each before the next begins
set_option Elab.async false

/-! ## States and results -/

/-- A machine running command `i` with lengths n and m, operand A at 0x1000, operand B at 0x1100 and the result at
0x2000 (the addresses of 95_test_vectors.md L2.6). -/
def running (i : Instr) (n m : Word) (a b : List F64) : State :=
  { State.reset with
      seq := .busy, cmd := encode i, lenA := n, lenB := m, srcALo := 0x1000, srcBLo := 0x1100, dstLo := 0x2000
      mem := storeWords 0x1100 b (storeWords 0x1000 a []) }

/-- The first k words of region D after a step that reaches DONE. -/
def result (s : State) (k : Nat) : Option (List F64) :=
  match step s with
  | .next t =>
    if t.seq = .done then some ((List.range k).map fun j => BitVec.ofNat 64 (memReadBytes t.mem (0x2000 + 8 * j) 8))
    else none
  | _ => none

/-- The STATE after an outcome with a next state. -/
def seqOf : Host.Outcome State Fault Refusal → Option Seq
  | .next t => some t.seq
  | _       => none

/-- STATUS and err_addr after an outcome with a next state. -/
def statusOf : Host.Outcome State Fault Refusal → Option (Word × Addr)
  | .next t => some (readReg t 0x014, t.errAddr)
  | _       => none

theorem next_of_seqOf {o : Host.Outcome State Fault Refusal} {q : Seq} (h : seqOf o = some q) :
    ∃ t, o = .next t ∧ t.seq = q := by
  cases o with
  | next t => exact ⟨t, rfl, by simpa [seqOf] using h⟩
  | fault _ => simp [seqOf] at h
  | refused _ => simp [seqOf] at h

/-- An IDLE machine with the same registers. -/
def idle (i : Instr) (n m : Word) : State := { running i n m [] [] with seq := .idle }

/-- 1.0, 2.0, 3.0, 4.0. -/
def f1 : F64 := 0x3FF0000000000000
def f2 : F64 := 0x4000000000000000
def f3 : F64 := 0x4008000000000000
def f4 : F64 := 0x4010000000000000

/-! ## The well-formedness checks (30_encoding.md R96, 00_scope.md R7) -/

theorem test_illformed_op : (⟨3, 0, false, false, false, 0⟩ : CmdFields).illegal = some .reservedOp := by decide
theorem test_illformed_eng : (⟨1, 3, false, false, false, 0⟩ : CmdFields).illegal = some .reservedEng := by decide
theorem test_illformed_engOnConvolution :
    (⟨4, 1, false, false, false, 0⟩ : CmdFields).illegal = some .engOnConvolution := by decide
theorem test_illformed_fb : (⟨1, 0, false, true, false, 0⟩ : CmdFields).illegal = some .fbOnTransform := by decide
theorem test_illformed_herm : (⟨1, 0, false, false, true, 0⟩ : CmdFields).illegal = some .hermNotInverse := by decide
theorem test_illformed_res0 : (⟨1, 0, false, false, false, 1⟩ : CmdFields).illegal = some .reservedBits := by decide
theorem test_illformed_platform :
    ({ Platform.vectors with log2Lmax := 0 } : Platform).wf = false ∧
    ({ Platform.vectors with log2Lmax := 31 } : Platform).wf = false ∧
    ({ Platform.vectors with paBits := 31 } : Platform).wf = false ∧
    ({ Platform.vectors with paBits := 65 } : Platform).wf = false ∧
    ({ Platform.vectors with numInstances := 0 } : Platform).wf = false := by decide

/-! ## Decoding (95_test_vectors.md L2.2) -/

/-- The command a word decodes to. -/
def decodes (w : Word) : Option Instr :=
  match decode w with
  | .ok i => some i
  | .error _ => none

theorem test_decode_transforms :
    decodes 0x00000001 = some (.fft .real) ∧ decodes 0x00000041 = some (.fft .complex) ∧
    decodes 0x00000011 = some (.fftR2 .real) ∧ decodes 0x00000061 = some (.fftBl .complex) ∧
    decodes 0x00000002 = some (.ifft .real false) ∧ decodes 0x00000142 = some (.ifft .complex true) ∧
    decodes 0x00000112 = some (.ifftR2 .real true) ∧ decodes 0x00000162 = some (.ifftBl .complex true) := by decide

theorem test_decode_convolutions :
    decodes 0x00000004 = some (.conv .real .real) ∧ decodes 0x00000084 = some (.conv .real .complex) ∧
    decodes 0x00000045 = some (.cconv .complex .real) ∧ decodes 0x000000C6 = some (.nconv .complex .complex) := by
  decide

theorem test_decode_illegal :
    decodes 0x00000000 = none ∧ decodes 0x00000003 = none ∧ decodes 0x00000007 = none ∧
    decodes 0x0000000F = none ∧ decodes 0x00000031 = none ∧ decodes 0x00000014 = none ∧
    decodes 0x00000081 = none ∧ decodes 0x00000101 = none ∧ decodes 0x00000104 = none ∧
    decodes 0x00000201 = none ∧ decodes 0x80000001 = none := by decide

theorem test_encode : encode (.ifftBl .complex true) = 0x00000162 ∧ encode (.nconv .complex .complex) = 0x000000C6 ∧
    encode (.conv .real .complex) = 0x00000084 := by decide

/-! ## The datapath (95_test_vectors.md L2.1) -/

/-- U1, U2, U3, U4, U5, U7. -/
theorem test_complexUnit :
    cadd [] ⟨f1, negZeroF⟩ ⟨f2, negZeroF⟩ = ⟨f3, negZeroF⟩ ∧
    cadd [] ⟨negZeroF, negZeroF⟩ ⟨negZeroF, negZeroF⟩ = ⟨negZeroF, negZeroF⟩ ∧
    csub [] zeroC zeroC = zeroC ∧
    cmul [] ⟨f1, f2⟩ ⟨f3, f4⟩ = ⟨0xC014000000000000, 0x4024000000000000⟩ ∧
    cmul [] ⟨zeroF, negF f1⟩ ⟨negF f2, zeroF⟩ = ⟨zeroF, f2⟩ ∧
    cconj ⟨f1, zeroF⟩ = ⟨f1, negZeroF⟩ := by decide +kernel

/-- U6, U8, U9, U11. -/
theorem test_arithmetic :
    (cmul [] ⟨f1, zeroF⟩ ⟨0x7FF0000000000000, f1⟩).re = 0x7FF0000000000000 ∧
    cdivn [] ⟨f1, f3⟩ 3 = ⟨0x3FD5555555555555, f1⟩ ∧
    cdivn [] ⟨0x0000000000000001, f1⟩ 2 = ⟨zeroF, 0x3FE0000000000000⟩ ∧
    halfF [] f3 = 0x3FF8000000000000 := by decide +kernel

/-- G2, G4, G7, G9, G14, G15, G16. -/
theorem test_generator :
    gen 2 8 .forward = ⟨zeroF, negF f1⟩ ∧ gen 1 8 .forward = ⟨0x3FE6A09E667F3BCD, 0xBFE6A09E667F3BCD⟩ ∧
    gen 1 16 .forward = ⟨0x3FED906BCF328D46, 0xBFD87DE2A6AEA963⟩ ∧
    gen 1 3 .inverse = ⟨0xBFE0000000000000, 0x3FEBB67AE8584CAA⟩ ∧
    gen 1 10 .forward = ⟨0x3FE9E3779B97F4A8, 0xBFE2CF2304755A5E⟩ ∧
    chirp 2 3 .forward = ⟨0xBFE0000000000000, 0x3FEBB67AE8584CAA⟩ ∧
    twist 3 4 = ⟨0xBFE6A09E667F3BCD, 0x3FE6A09E667F3BCD⟩ := by decide +kernel

/-- B1, B3, K-BF1, K-BF2, K-R2, K-RR1. -/
theorem test_kernels :
    (List.range 8).map (bitrev 3) = [0, 4, 2, 6, 1, 5, 3, 7] ∧ (List.range 4).map (bitrev 2) = [0, 2, 1, 3] ∧
    butterfly [] ⟨negF f2, zeroF⟩ ⟨negF f2, zeroF⟩ 1 4 .forward = (⟨negF f2, f2⟩, ⟨negF f2, negF f2⟩) ∧
    butterfly [] ⟨f1, zeroF⟩ ⟨0x7FF0000000000000, f1⟩ 0 2 .forward =
      (⟨0x7FF0000000000000, f1⟩, ⟨0xFFF0000000000000, negF f1⟩) ∧
    real2 [] negZeroF negZeroF = (⟨negZeroF, zeroF⟩, ⟨zeroF, zeroF⟩) ∧
    rrec [] ⟨negF f2, negF f2⟩ ⟨negF f2, negF f2⟩ 1 4 .forward = (⟨negF f2, f2⟩, ⟨negF f2, negF f2⟩) := by
  decide +kernel

/-! ## One step of each instruction (95_test_vectors.md L2.3, L2.4) -/

/-- T1. -/
theorem test_fft_ramp :
    result (running (.fft .real) 4 0 [zeroF, f1, f2, f3] []) 8 =
      some [0x4018000000000000, 0, 0xC000000000000000, 0x4000000000000000, 0xC000000000000000, 0,
        0xC000000000000000, 0xC000000000000000] := by decide +kernel

/-- T17: the last imaginary part is -0. -/
theorem test_fft_ones :
    result (running (.fft .real) 4 0 [f1, f1, f1, f1] []) 8 =
      some [0x4010000000000000, 0, 0, 0, 0, 0, 0, 0x8000000000000000] := by decide +kernel

/-- T14, forced to the radix-2 engine. -/
theorem test_fftR2_two :
    result (running (.fftR2 .complex) 2 0 [f1, f2, f3, f4] []) 4 =
      some [0x4010000000000000, 0x4018000000000000, 0xC000000000000000, 0xC000000000000000] := by decide +kernel

/-- E7: N = 6 fails with NOT_POW2. -/
theorem test_fftR2_notPow2 :
    statusOf (.next (writeReg (idle (.fftR2 .real) 6 0) 0x010 1)) = some (0x00000203, 0) := by decide +kernel

/-- T15. -/
theorem test_fftBl_two :
    result (running (.fftBl .complex) 2 0 [f1, f2, f3, f4] []) 4 =
      some [0x4010000000000000, 0x4018000000000000, 0xC000000000000000, 0xC000000000000000] := by decide +kernel

/-- 95_test_vectors.md L1.5: the short circuit at N = 1. -/
theorem test_fftBl_one :
    result (running (.fftBl .real) 1 0 [0x401C000000000000] []) 2 = some [0x401C000000000000, 0] := by decide +kernel

/-- T4. -/
theorem test_ifft_spectrum :
    result (running (.ifft .complex false) 4 0
      [0x4018000000000000, 0, negF f2, f2, negF f2, 0, negF f2, negF f2] []) 8 =
      some [0, 0, f4, 0, 0x4020000000000000, 0, 0x4028000000000000, 0] := by decide +kernel

/-- T23: HERM keeps the real parts. -/
theorem test_ifft_herm :
    result (running (.ifft .complex true) 2 0 [0, f1, 0, 0] []) 4 = some [0, 0, 0, 0] := by decide +kernel

/-- T7. -/
theorem test_ifftR2_ramp :
    result (running (.ifftR2 .real false) 4 0 [f1, f2, f3, f4] []) 8 =
      some [0x4024000000000000, 0, negF f2, negF f2, negF f2, 0, negF f2, f2] := by decide +kernel

/-- T11. -/
theorem test_ifftBl_one :
    result (running (.ifftBl .complex false) 1 0 [f1, f1] []) 2 = some [f1, f1] := by decide +kernel

/-- K1. -/
theorem test_conv_real :
    result (running (.conv .real .real) 2 2 [f1, f2] [f3, f4]) 3 =
      some [f3, 0x4024000000000000, 0x4020000000000000] := by decide +kernel

/-- K6b. -/
theorem test_conv_mixed :
    result (running (.conv .real .complex) 2 1 [f1, f2] [0, f1]) 4 = some [0, f1, 0, f2] := by decide +kernel

/-- K7. -/
theorem test_cconv_real :
    result (running (.cconv .real .real) 2 2 [f1, f2] [f3, f4]) 2 =
      some [0x4026000000000000, 0x4024000000000000] := by decide +kernel

/-- E9: N = 3 and M = 4. -/
theorem test_cconv_mismatch :
    statusOf (.next (writeReg (idle (.cconv .real .real) 3 4) 0x010 1)) = some (0x00000303, 0) := by decide +kernel

/-- K10. -/
theorem test_nconv_real :
    result (running (.nconv .real .real) 2 2 [f1, f2] [f3, f4]) 2 =
      some [0xC014000000000000, 0x4024000000000000] := by decide +kernel

/-- K17. -/
theorem test_nconv_complex :
    result (running (.nconv .complex .complex) 2 2 [0, f1, 0, 0] [0, f1, 0, 0]) 4 = some [negF f1, 0, 0, 0] := by
  decide +kernel

/-! ## Errors and registers (95_test_vectors.md L2.6, L2.7) -/

/-- E35: FFT r with N = 2 whose third write fails. -/
theorem test_writePhase_busError :
    let s := { running (.fft .real) 2 0 [f1, f2] [] with
      platform := { Platform.vectors with busFail := [⟨0x2010, 8⟩] } }
    statusOf (step s) = some (0x00000703, 0x2010) := by decide +kernel

/-- LEN_RANGE has the code 0x04 (60_exceptions.md R231): N = 2048 with LMAX = 1024. -/
theorem test_lenRange_code :
    statusOf (.next (writeReg (idle (.fft .real) 2048 0) 0x010 1)) = some (0x00000403, 0) := by decide +kernel

/-- E25, E28, E29, E31: the address checks and their order. -/
theorem test_addressChecks :
    statusOf (.next (writeReg { idle (.fft .real) 4 0 with srcALo := 0x1004 } 0x010 1)) =
      some (0x00000503, 0x1004) ∧
    statusOf (.next (writeReg { idle (.fft .complex) 4 0 with srcALo := 0xFFFFFFF8, dstLo := 0x2003 } 0x010 1)) =
      some (0x00000503, 0x2003) ∧
    statusOf (.next (writeReg { idle (.fft .real) 1 0 with dstLo := 0xFFFFFFF8 } 0x010 1)) =
      some (0x00000603, 0xFFFFFFF8) ∧
    statusOf (.next (writeReg { idle (.fft .real) 1 0 with srcAHi := 1 } 0x010 1)) =
      some (0x00000603, 0x100001000) := by decide +kernel

/-- S1, S3, S10, S12. -/
theorem test_registers :
    readReg State.reset 0x000 = 0x444F4747 ∧ readReg State.reset 0x008 = 0x0000000A ∧
    readReg (writeReg State.reset 0x010 1) 0x014 = 0x00000103 ∧
    readReg (writeReg State.reset 0x040 0xFFFFFFFF) 0x040 = 3 ∧
    readReg (writeReg { State.reset with irqStat := 3 } 0x044 1) 0x044 = 2 := by decide +kernel

/-- A placed word runs as the first step after reset; every length there is 0, so the command is empty (R67). -/
theorem test_withFetchWord :
    seqOf (step (State.reset.withFetchWord 32 0x00000162)) = some .done ∧
    seqOf (step (State.reset.withFetchWord 32 0x000000C6)) = some .done ∧
    seqOf (step (State.reset.withFetchWord 32 0x00000003)) = some .error := by decide

/-- M1, M2: byte order. -/
theorem test_byteOrder :
    memRead (storeWords 0x2010 [0xC000000000000000] []) 0x2017 = 0xC0 ∧
    memReadBytes (storeWords 0x1000 [0x4018000000000000] []) 0x1004 4 = 0x40180000 := by decide +kernel

/-! ## Witnesses: for every statement with hypotheses, a state and operands that meet them -/

/-- A command whose start checks pass on the vectors' platform is runnable. -/
theorem runnable_of {i : Instr} {s : State} (h : startCheck i s = none) (hp : s.platform = Platform.vectors) :
    Runnable i s := by
  refine ⟨h, fun r _ d hd => ?_, fun k _ => ?_, fun k _ => ?_, fun k _ => ?_⟩
  · rw [hp] at hd; cases hd
  all_goals rw [hp]; rfl

/-- The FFT of one real element, running. -/
def one : State := running (.fft .real) 1 0 [f1] []

/-- Another instance, BUSY, whose regions lie beside those of `running`. -/
def aside : Peer := ⟨1, [⟨0x3000, 8⟩], ⟨0x4000, 16⟩, true⟩

/-- Another instance, BUSY, whose region D shares its first word with the last of `one`'s region D. -/
def astride : Peer := ⟨2, [], ⟨0x2008, 16⟩, true⟩

/-- The machine on a platform of three instances, with these others. -/
def beside (s : State) (ps : List Peer) : State :=
  { s with platform := { s.platform with numInstances := 3 }, peers := ps }

/-- The machine with one more host access to come. -/
def withEvent (s : State) (e : HostEvent) : State := { s with script := [e] }

theorem witness_PowersOfTwo : 1 ≤ 5 ∧ 5 ≤ 2 ^ 3 ∧ 1 ≤ 1 ∧ 1 ≤ 2 ^ 0 := by decide

theorem witness_OpcodeMap : ∃ r ∈ opcodeRows, (0x00000041 : Word) &&& r.mask = r.value := by decide

theorem witness_IllegalWords :
    (State.reset.seq = .idle ∧ ∃ e, decode State.reset.cmd = .error e) ∧
    ∃ s : State, s.seq = .done ∧ ∃ e, decode s.cmd = .error e :=
  ⟨⟨rfl, .reservedOp, by decide⟩, { State.reset with seq := .done, cmd := 0x80000001 }, rfl, .reservedBits, by decide⟩

theorem witness_ResetColumn : ∃ t : State, t ≠ State.reset ∧ ∃ s : State, t = s.hwReset :=
  ⟨State.hwReset { State.reset with draws := 1 }, by decide, _, rfl⟩

theorem witness_ResetAndMemory :
    (one.mem.wf = true ∧ one.running = some (.fft .real)) ∧
    (State.reset.mem.wf = true ∧ State.reset.running = none) ∧
    (regionD (.fft .real) one).has 0x200F = true ∧ (regionD (.fft .real) one).has 0x2010 = false := by decide

theorem witness_reset_inv : State.reset.Inv :=
  ⟨by decide, by decide, by simp [MemInRange, State.reset, State.resetOn], by simp [ErrCodeAgrees, State.reset, State.resetOn],
   by simp [ErrAddrAgrees, State.reset, State.resetOn], by simp [OutLenAgrees, State.reset, State.resetOn],
   by simp [BusyArmed, State.reset, State.resetOn], by simp [RaceOnlyBusy, State.reset, State.resetOn],
   fun _ => ⟨rfl, rfl⟩, by simp [CachesInRange, State.reset, State.resetOn, spansHave],
   by unfold PeersFit; decide⟩

/-- A state of the invariant in ERROR, and a read that targets STATUS. -/
theorem witness_StatusFields : (State.reset.enterError .illegalCmd 0).Inv ∧
    targetOf State.reset.platform 0x40000014 Width.w4.bytes = .register 0x014 :=
  ⟨⟨by decide, by decide, by simp [MemInRange, State.enterError, State.reset, State.resetOn],
   by simp [ErrCodeAgrees, State.enterError], by simp [ErrAddrAgrees, State.enterError],
   by simp [OutLenAgrees, State.enterError], by simp [BusyArmed, State.enterError],
   by simp [RaceOnlyBusy, State.enterError, State.reset, State.resetOn], fun _ => ⟨rfl, rfl⟩,
   by simp [CachesInRange, State.enterError, State.reset, State.resetOn, spansHave], by unfold PeersFit; decide⟩, by decide⟩

/-- The first and the last of the nine offsets, and one of each address register. -/
theorem witness_ArgumentRegistersStore : State.reset.seq ≠ .busy ∧
    ∀ off ∈ ([0x018, 0x01C, 0x020, 0x028, 0x02C, 0x030, 0x034, 0x038, 0x03C] : List Nat),
      off ∈ ([0x018, 0x01C, 0x020, 0x028, 0x02C, 0x030, 0x034, 0x038, 0x03C] : List Nat) := by decide

theorem witness_ReadOnlyAndReservedOffsets :
    (0x050 : Nat) ≤ 0x050 ∧ targetOf Platform.vectors 0x400000FC 4 = .register 0xFC ∧
    targetOf Platform.vectors 0x40000000 Width.w4.bytes = .register 0x000 := by decide

theorem witness_PendingBits :
    (∃ s t : State, step s = .next t ∧ s.seq ≠ .done ∧ t.seq = .done) ∧
    ∃ s t : State, step s = .next t ∧ s.seq ≠ .error ∧ t.seq = .error := by
  refine ⟨?_, ?_⟩
  · obtain ⟨t, h, ht⟩ := next_of_seqOf (o := step one) (q := .done) (by decide +kernel)
    exact ⟨one, t, h, by decide, ht⟩
  · obtain ⟨t, h, ht⟩ := next_of_seqOf (o := step (withEvent State.reset (.write 0x40000010 .w4 1))) (q := .error)
      (by decide +kernel)
    exact ⟨_, t, h, by decide, ht⟩

theorem witness_BusyKeepsArguments :
    one.seq = .busy ∧ ∃ t, step (withEvent one (.read 0x40000014 .w4)) = .next t ∧ t.seq = .busy :=
  ⟨rfl, next_of_seqOf (by decide +kernel)⟩

/-- The two branches, at the ends of the window. -/
theorem witness_NarrowRegisterAccessRefused :
    let p := Platform.vectors
    (p.mmioBase < p.mmioBase + 256 ∧ p.mmioBase < p.mmioBase + Width.w4.bytes) ∧
    (p.mmioBase + 252 < p.mmioBase + 256 ∧ p.mmioBase < p.mmioBase + 252 + Width.w4.bytes) ∧
    (p.mmioBase - 3 < p.mmioBase + 256 ∧ p.mmioBase < p.mmioBase - 3 + Width.w4.bytes) ∧
    (p.mmioBase + 255 < p.mmioBase + 256 ∧ p.mmioBase < p.mmioBase + 255 + Width.w1.bytes) := by decide

theorem witness_StartRule :
    (1 : Word).getLsbD 0 = true ∧ (1 : Word).getLsbD 1 = false ∧
    (decode (idle (.fft .real) 1 0).cmd = .ok (.fft .real) ∧ startCheck (.fft .real) (idle (.fft .real) 1 0) = none) ∧
    (decode (idle (.fftR2 .real) 3 0).cmd = .ok (.fftR2 .real) ∧
      startCheck (.fftR2 .real) (idle (.fftR2 .real) 3 0) = some ⟨.notPow2, 0⟩) ∧
    (∃ e, decode State.reset.cmd = .error e) ∧ (idle (.fft .real) 1 0).seq = .idle ∧ one.seq = .busy ∧
    (State.reset.enterError .align 0).seq = .error ∧ (State.reset.enterDone 0).seq = .done :=
  ⟨by decide, by decide, by decide +kernel, by decide +kernel, ⟨.reservedOp, by decide⟩, rfl, rfl, rfl, rfl⟩

theorem witness_ClearRule :
    (2 : Word).getLsbD 1 = true ∧ (2 : Word).getLsbD 0 = false ∧ (3 : Word).getLsbD 1 = true ∧
    (3 : Word).getLsbD 0 = true ∧ (State.reset.enterDone 0).seq = .done ∧ State.reset.seq = .idle ∧
    one.seq = .busy := by decide

/-- One step of each of the four transitions, and one that keeps STATE. -/
theorem witness_SequencerTransitions :
    (∃ t, step (withEvent (idle (.fft .real) 1 0) (.write 0x40000010 .w4 1)) = .next t ∧ t.seq = .busy) ∧
    (∃ t, step (withEvent State.reset (.write 0x40000010 .w4 1)) = .next t ∧ t.seq = .error) ∧
    (∃ t, step (withEvent (State.reset.enterDone 0) (.write 0x40000010 .w4 2)) = .next t ∧ t.seq = .idle) ∧
    (∃ t, step one = .next t ∧ t.seq = .done) ∧ (∃ t, step (withEvent one .reset) = .next t ∧ t.seq = .idle) ∧
    (∃ t, step State.reset = .next t ∧ t.seq = .idle) :=
  ⟨next_of_seqOf (by decide +kernel), next_of_seqOf (by decide +kernel), next_of_seqOf (by decide +kernel),
   next_of_seqOf (by decide +kernel), next_of_seqOf (by decide +kernel), next_of_seqOf (by decide +kernel)⟩

/-- A BUSY state whose command START accepted and whose step ends in ERROR (E35). -/
theorem witness_SequencerTransitions_busError :
    ∃ s t : State, s.seq = .busy ∧ BusyArmed s ∧ step s = .next t ∧ t.seq = .error := by
  obtain ⟨t, h, ht⟩ := next_of_seqOf (q := .error)
    (o := step { running (.fft .real) 2 0 [f1, f2] [] with
      platform := { Platform.vectors with busFail := [⟨0x2010, 8⟩] } }) (by decide +kernel)
  exact ⟨_, t, rfl, fun _ => ⟨.fft .real, by decide, by decide +kernel⟩, h, ht⟩

theorem witness_ResetMeetsInvariant :
    Platform.vectors.wf = true ∧ ({ Platform.vectors with log2Lmax := 30, paBits := 64 } : Platform).wf = true := by
  decide

/-- A BUSY state of the invariant, beside two instances of which one has ended, and the step that ends its command. -/
theorem witness_StepKeepsInvariant :
    let s := beside one [aside, { astride with busy := false }]
    s.Inv ∧ ∃ t, step s = .next t ∧ t.seq = .done :=
  ⟨⟨by decide, by decide, by unfold MemInRange; decide, by unfold ErrCodeAgrees; decide, by unfold ErrAddrAgrees; decide,
    by unfold OutLenAgrees; decide, fun _ => ⟨.fft .real, by decide, by decide +kernel⟩, by unfold RaceOnlyBusy; decide,
    fun _ => ⟨rfl, rfl⟩, by simp [CachesInRange, beside, one, running, State.reset, State.resetOn, spansHave], by unfold PeersFit; decide⟩,
   next_of_seqOf (by decide +kernel)⟩

theorem witness_PlatformIsConstant : ∃ t, step State.reset = .next t := ⟨State.reset, rfl⟩

theorem witness_StepRunsDecodedCommand :
    (decode one.cmd = .ok (.fft .real) ∧ one.seq = .busy ∧ one.script = []) ∧
    ((withEvent one .wait).seq = .busy ∧ (withEvent one .wait).script = [.wait]) ∧
    (decode (idle (.fft .real) 1 0).cmd = .ok (.fft .real) ∧ (idle (.fft .real) 1 0).seq ≠ .busy ∧
      (idle (.fft .real) 1 0).script = []) ∧
    (withEvent (idle (.fft .real) 1 0) .wait).script = [.wait] ∧
    ((∀ i, decode State.reset.cmd ≠ .ok i) ∧ State.reset.seq ≠ .busy ∧ State.reset.script = []) := by
  refine ⟨by decide, by decide, by decide, by decide, fun i h => ?_, by decide, rfl⟩
  have e : decode State.reset.cmd = .error .reservedOp := by decide
  rw [e] at h; cases h

/-- A POLL of STATUS that IDLE satisfies, one that it does not, and one that BUSY does not. -/
theorem witness_StepRunsDecodedCommand_poll :
    targetOf Platform.vectors 0x40000014 4 = .register 0x014 ∧
    (withEvent one (.poll 0x40000014 3 2)).script = [.poll 0x40000014 3 2] ∧
    readReg (withEvent (idle (.fft .real) 1 0) (.poll 0x40000014 3 0)) 0x014 &&& 3 = 0 ∧
    readReg (withEvent (idle (.fft .real) 1 0) (.poll 0x40000014 3 2)) 0x014 &&& 3 ≠ 2 ∧
    readReg (withEvent one (.poll 0x40000014 3 2)) 0x014 &&& 3 ≠ 2 := by decide

/-- A wait for the interrupt with irq high, by DONE and by an error alone; with irq low, outside BUSY and in it. -/
theorem witness_StepRunsDecodedCommand_irq :
    (∃ s : State, s.script = [.takeIrq] ∧ s.irq = true ∧ s.doneIp = true ∧ s.doneIe = true) ∧
    (∃ s : State, s.script = [.takeIrq] ∧ s.irq = true ∧ s.doneIp = false) ∧
    (∃ s : State, s.script = [.takeIrq] ∧ s.irq = false ∧ s.seq ≠ .busy) ∧
    ∃ s : State, s.script = [.takeIrq] ∧ decode s.cmd = .ok (.fft .real) ∧ s.irq = false ∧ s.seq = .busy :=
  ⟨⟨{ State.reset with script := [.takeIrq], irqEn := 1, irqStat := 1 }, by decide⟩,
   ⟨{ State.reset with script := [.takeIrq], irqEn := 2, irqStat := 2 }, by decide⟩,
   ⟨withEvent State.reset .takeIrq, by decide⟩, ⟨withEvent one .takeIrq, by decide⟩⟩

/-- The command over a platform that has one bus region of each kind. -/
def onBus (fail hang device : List Span) (i : Instr) (n : Word) : State :=
  { running i n n [f1, f2] [f3, f4] with
      platform := { Platform.vectors with busFail := fail, busHang := hang, device := device } }

theorem noDevice_of {i : Instr} {s : State} (h : s.platform.device = []) : ∀ r ∈ regionsOf i s, NoDevice s.platform r :=
  fun r _ d hd => by rw [h] at hd; cases hd

/-- A platform with an address that hangs, which no access of the command touches. -/
theorem witness_CommandsTerminate :
    ∃ s : State, s.platform.busHang ≠ [] ∧ (∀ r ∈ regionsOf (.fft .real) s, NoDevice s.platform r) ∧
      ∀ r ∈ regionsOf (.fft .real) s, ∀ k < r.size / 8, ∀ a, busAccess s.platform (r.base + 8 * k) ≠ some (.hang a) := by
  refine ⟨onBus [] [⟨0x3000, 8⟩] [] (.fft .real) 1, by decide, noDevice_of rfl, fun r hr k hk a => ?_⟩
  have h : ∀ r ∈ regionsOf (.fft .real) (onBus [] [⟨0x3000, 8⟩] [] (.fft .real) 1), ∀ k < r.size / 8,
      busAccess (onBus [] [⟨0x3000, 8⟩] [] (.fft .real) 1).platform (r.base + 8 * k) = none := by decide
  rw [h r hr k hk]; exact nofun

/-- A hang at the second word of region A, of region B and of region D. -/
theorem witness_CommandsTerminate_hang :
    let i : Instr := .cconv .real .real
    let onHang := fun a : Nat => onBus [] [⟨a, 8⟩] [] i 2
    let meets := fun (s : State) (r : Span) => 1 < r.size / 8 ∧
      (∀ j < 1, busAccess s.platform (r.base + 8 * j) = none) ∧ spansHave s.platform.busHang (r.base + 8 * 1) = true
    (∀ a, ∀ r ∈ regionsOf i (onHang a), NoDevice (onHang a).platform r) ∧
    (startCheck i (onHang 0x1008) = none ∧ meets (onHang 0x1008) (regionA i (onHang 0x1008))) ∧
    (startCheck i (onHang 0x1108) = none ∧ RegionOk (onHang 0x1108).platform (regionA i (onHang 0x1108)) ∧
      meets (onHang 0x1108) (regionB i (onHang 0x1108))) ∧
    (startCheck i (onHang 0x2008) = none ∧ RegionOk (onHang 0x2008).platform (regionA i (onHang 0x2008)) ∧
      RegionOk (onHang 0x2008).platform (regionB i (onHang 0x2008)) ∧
      meets (onHang 0x2008) (regionD i (onHang 0x2008))) :=
  ⟨fun _ => noDevice_of rfl, ⟨by decide +kernel, by decide⟩,
   ⟨by decide +kernel, by unfold RegionOk; decide, by decide⟩,
   ⟨by decide +kernel, by unfold RegionOk; decide, by unfold RegionOk; decide, by decide⟩⟩

theorem witness_RegionTable :
    0 < (running (.conv .real .real) 1 1 [f1] [f2]).lenN ∧ 0 < (running (.conv .real .real) 1 1 [f1] [f2]).lenM ∧
    (running (.conv .real .real) 0 1 [] [f2]).lenN = 0 ∧ (running (.conv .real .real) 1 0 [f1] []).lenM = 0 := by
  decide

theorem witness_OperandElements : one.unclean = [] ∧ 0 < 1 := by decide

theorem witness_HostStoreThenLoad :
    State.reset.mem.wf = true ∧ State.reset.running = none ∧
    targetOf State.reset.platform 0x1000 Width.w8.bytes = .memory ∧
    targetOf State.reset.platform 0xFFFFFFFF Width.w1.bytes = .memory ∧
    ∀ p ∈ [aside], p.busy = true → ∀ k < Width.w8.bytes, p.hides (0x1000 + k) = false := by decide

theorem witness_DeviceRegionRefused :
    ∃ s : State, startCheck (.fft .real) s = none ∧ ∃ r ∈ regionsOf (.fft .real) s, ¬ NoDevice s.platform r := by
  refine ⟨onBus [] [] [⟨0x2008, 1⟩] (.fft .real) 1, by decide +kernel, ⟨0x2000, 16⟩, by decide, fun h => ?_⟩
  exact absurd (h ⟨0x2008, 1⟩ (by decide)) (by decide)

/-- Region A at its second word, and region B at its first. -/
theorem witness_ReadPhaseBusError :
    (∃ s : State, s.platform.wf = true ∧ startCheck (.cconv .real .real) s = none ∧
      (∀ r ∈ regionsOf (.cconv .real .real) s, NoDevice s.platform r) ∧ 1 < (regionA (.cconv .real .real) s).size / 8 ∧
      (∀ j < 1, busAccess s.platform ((regionA (.cconv .real .real) s).base + 8 * j) = none) ∧
      busAccess s.platform ((regionA (.cconv .real .real) s).base + 8 * 1) =
        some (.fail ((regionA (.cconv .real .real) s).base + 8 * 1))) ∧
    ∃ s : State, s.platform.wf = true ∧ startCheck (.cconv .real .real) s = none ∧
      (∀ r ∈ regionsOf (.cconv .real .real) s, NoDevice s.platform r) ∧ 0 < (regionB (.cconv .real .real) s).size / 8 ∧
      RegionOk s.platform (regionA (.cconv .real .real) s) ∧
      (∀ j < 0, busAccess s.platform ((regionB (.cconv .real .real) s).base + 8 * j) = none) ∧
      busAccess s.platform ((regionB (.cconv .real .real) s).base + 8 * 0) =
        some (.fail ((regionB (.cconv .real .real) s).base + 8 * 0)) :=
  ⟨⟨onBus [⟨0x1008, 8⟩] [] [] (.cconv .real .real) 2, by decide, by decide +kernel, noDevice_of rfl, by decide, by decide,
    by decide⟩,
   ⟨onBus [⟨0x1100, 8⟩] [] [] (.cconv .real .real) 2, by decide, by decide +kernel, noDevice_of rfl, by decide,
    by unfold RegionOk; decide, by decide, by decide⟩⟩

/-- The third word of region D (E35), with IO_COHERENT false. -/
theorem witness_WritePhaseBusError :
    ∃ s : State, s.platform.ioCoherent = false ∧ s.platform.wf = true ∧ s.mem.wf = true ∧ s.raced = false ∧ startCheck (.fft .real) s = none ∧
      (∀ r ∈ regionsOf (.fft .real) s, NoDevice s.platform r) ∧ RegionOk s.platform (regionA (.fft .real) s) ∧
      RegionOk s.platform (regionB (.fft .real) s) ∧ 2 < (regionD (.fft .real) s).size / 8 ∧
      (∀ j < 2, busAccess s.platform ((regionD (.fft .real) s).base + 8 * j) = none) ∧
      busAccess s.platform ((regionD (.fft .real) s).base + 8 * 2) =
        some (.fail ((regionD (.fft .real) s).base + 8 * 2)) :=
  ⟨{ onBus [] [] [] (.fft .real) 2 with
      platform := { Platform.vectors with busFail := [⟨0x2010, 8⟩], ioCoherent := false } }, rfl, by decide, by decide, rfl, by decide +kernel, noDevice_of rfl,
   by unfold RegionOk; decide, by unfold RegionOk; decide, by decide, by decide, by decide⟩

/-- The spans that wait for an invalidate after an outcome with a next state. -/
def staleOf : Host.Outcome State Fault Refusal → Option (List Span)
  | .next t => some t.stale
  | _       => none

/-- Of region D only the words below the failing address come to wait for an invalidate (60_exceptions.md R239,
20_memory.md R73). -/
theorem test_writePhase_stale :
    staleOf (step { running (.fft .real) 2 0 [f1, f2] [] with
      platform := { Platform.vectors with busFail := [⟨0x2010, 8⟩], ioCoherent := false } }) =
      some [⟨0x2000, 16⟩] := by decide +kernel

/-- A run to DONE, a run to ERROR by a bus error, and one by a start check. -/
theorem witness_CommandFrame :
    (one.mem.wf = true ∧ ∃ t, exec (.fft .real) one = .next t ∧ t.seq = .done) ∧
    (∃ t, exec (.fft .real) (onBus [⟨0x2010, 8⟩] [] [] (.fft .real) 2) = .next t ∧ t.seq = .error) ∧
    (startCheck (.fftR2 .real) (running (.fftR2 .real) 3 0 [] []) ≠ none ∧
      ∃ t, exec (.fftR2 .real) (running (.fftR2 .real) 3 0 [] []) = .next t ∧ t.seq = .error) :=
  ⟨⟨by decide, next_of_seqOf (by decide +kernel)⟩, next_of_seqOf (by decide +kernel), by decide +kernel,
   next_of_seqOf (by decide +kernel)⟩

/-- The same command later, with another number of draws. -/
theorem witness_ResultIsPure_later :
    let s2 := { one with draws := 7 }
    one.draws ≠ s2.draws ∧ s2.mem.wf = true ∧ s2.raced = false ∧
    operandA (.fft .real) one = operandA (.fft .real) s2 ∧ operandB (.fft .real) one = operandB (.fft .real) s2 ∧
    ∃ t, exec (.fft .real) s2 = .next t ∧ t.seq = .done :=
  ⟨by decide, by decide, rfl, by decide +kernel, by decide +kernel, next_of_seqOf (by decide +kernel)⟩

/-- The same command with its result elsewhere and in place. -/
theorem witness_ResultIsPure :
    ∃ s1 s2 : State, s1 ≠ s2 ∧ s1.mem.wf = true ∧ s2.mem.wf = true ∧ s1.raced = false ∧ s2.raced = false ∧
      s1.lenA = s2.lenA ∧ s1.lenB = s2.lenB ∧ s1.draws = s2.draws ∧
      operandA (.fft .real) s1 = operandA (.fft .real) s2 ∧ operandB (.fft .real) s1 = operandB (.fft .real) s2 ∧
      (∃ t1, exec (.fft .real) s1 = .next t1 ∧ t1.seq = .done) ∧ ∃ t2, exec (.fft .real) s2 = .next t2 ∧ t2.seq = .done :=
  ⟨one, { one with dstLo := 0x1000 }, by decide, by decide, by decide, rfl, rfl, rfl, rfl, rfl, by decide +kernel,
   by decide +kernel, next_of_seqOf (by decide +kernel), next_of_seqOf (by decide +kernel)⟩

/-- A byte inside region D, one just above it, and a raced command that runs. -/
theorem witness_RaceMakesResultAny :
    one.running = some (.fft .real) ∧ one.mem.wf = true ∧
    targetOf one.platform 0x200F Width.w1.bytes = .memory ∧ targetOf one.platform 0x2010 Width.w1.bytes = .memory ∧
    (∃ r ∈ regionsOf (.fft .real) one, r.overlaps ⟨0x200F, Width.w1.bytes⟩ = true) ∧
    (∀ r ∈ regionsOf (.fft .real) one, r.overlaps ⟨0x2010, Width.w1.bytes⟩ = false) ∧
    ∃ s : State, s.running = some (.fft .real) ∧ s.mem.wf = true ∧ s.raced = true ∧ Runnable (.fft .real) s :=
  ⟨by decide, by decide, by decide, by decide, by decide, by decide, { one with raced := true }, by decide, by decide, rfl,
   runnable_of (by decide +kernel) rfl⟩

/-- A host read across the top of region D, whose first byte lies in the region and whose second lies in none, and one
of region A. -/
theorem witness_RaceMakesResultAny_read :
    one.running = some (.fft .real) ∧ targetOf one.platform 0x200F Width.w2.bytes = .memory ∧ 1 < Width.w2.bytes ∧
    (∃ r ∈ regionsOf (.fft .real) one, r.has (0x200F + 0) = true) ∧
    ((∀ r ∈ regionsOf (.fft .real) one, r.has (0x200F + 1) = false) ∧ spansHave one.stale (0x200F + 1) = false ∧
      spansHave one.unseen (0x200F + 1) = false ∧ peersHide [aside] (0x200F + 1) = false) ∧
    targetOf one.platform 0x1000 Width.w8.bytes = .memory ∧
    (∃ r ∈ regionsOf (.fft .real) one, r.has (0x1000 + 7) = true) := by decide

/-- The clauses on another instance: a write and a region D that touch the command, and some that do not; a START beside
an instance that races with the command and beside one that does not. -/
theorem witness_RaceMakesResultAny_peer :
    (∃ t, step (withEvent (beside one [astride]) (.peerWrite 0x2008 1)) = .next t ∧ t.raced = true) ∧
    (∃ t, step (withEvent (beside one [astride]) (.peerWrite 0x2010 1)) = .next t ∧ t.raced = false) ∧
    (∃ t, step (withEvent (beside one [aside]) (.peerWrite 0x2008 1)) = .next t ∧ t.raced = false) ∧
    (∃ t, step (withEvent (beside one []) (.peerStart 2 [] ⟨0x2008, 16⟩)) = .next t ∧ t.raced = true) ∧
    (∃ t, step (withEvent (beside one []) (.peerStart 1 [⟨0x1000, 8⟩] ⟨0x4000, 16⟩)) = .next t ∧ t.raced = false) ∧
    (∃ t, step (withEvent (beside one []) (.peerStart 3 [] ⟨0x2008, 16⟩)) = .next t ∧ t.raced = false) ∧
    (let u := { idle (.fft .real) 1 0 with peers := [astride] }
     u.seq = .idle ∧ decode u.cmd = .ok (.fft .real) ∧ startCheck (.fft .real) u = none ∧
       (writeReg u 0x010 1).raced = true) ∧
    (let u := { idle (.fft .real) 1 0 with peers := [aside, { astride with busy := false }] }
     u.seq = .idle ∧ decode u.cmd = .ok (.fft .real) ∧ startCheck (.fft .real) u = none ∧
       (writeReg u 0x010 1).raced = false) := by
  refine ⟨⟨_, rfl, ?_⟩, ⟨_, rfl, ?_⟩, ⟨_, rfl, ?_⟩, ⟨_, rfl, ?_⟩, ⟨_, rfl, ?_⟩, ⟨_, rfl, ?_⟩, ?_, ?_⟩ <;> decide +kernel

/-- What keeps an instance out of BUSY: no such instance, one that is BUSY, this engine's own number, a region off a
multiple of 8, one past the top (60_exceptions.md R237, R238, R250; 10_state.md R40). -/
theorem test_peerMayStart :
    let s := beside State.reset [aside]
    s.peerMayStart 2 [] ⟨0xFFFFFFF8, 8⟩ = true ∧ s.peerMayStart 3 [] ⟨0x2000, 8⟩ = false ∧
    s.peerMayStart 1 [] ⟨0x2000, 8⟩ = false ∧ s.peerMayStart 0 [] ⟨0x2000, 8⟩ = false ∧
    s.peerMayStart 2 [⟨0x1004, 8⟩] ⟨0x2000, 8⟩ = false ∧ s.peerMayStart 2 [] ⟨0xFFFFFFF8, 16⟩ = false ∧
    { State.reset with peers := [] }.peerMayStart 1 [] ⟨0x2000, 8⟩ = false := by decide

/-- Where no write of another instance completes: off a multiple of 8, outside its region D, where BUS_OK is false, and
once it has ended (20_memory.md R65, R68, R70). -/
theorem test_peerMayWrite :
    let s := beside State.reset [astride]
    s.peerMayWrite 0x2010 = true ∧ s.peerMayWrite 0x200C = false ∧ s.peerMayWrite 0x2018 = false ∧
    { s with platform := { s.platform with busFail := [⟨0x2010, 8⟩] } }.peerMayWrite 0x2010 = false ∧
    (peerEnd s 2).peerMayWrite 0x2010 = false := by decide

/-- A host read of region A while BUSY is a race too (70_reset_and_hazards.md R265). -/
theorem test_hostByte_regionA : hostByte one 0x1007 = Config.anyByte [0x1007, 2, 0] ∧ hostByte one 0x1008 = 0 :=
  ⟨rfl, by decide⟩

/-- A machine whose host has written bytes 0x2004 to 0x2007 and not cleaned them, in lines of 8 bytes, and whose engine
has written bytes 0x2000 to 0x200F since. -/
def dirtyD : State :=
  { State.reset with
      platform := { Platform.vectors with ioCoherent := false, log2Line := 3 }
      mem := memWriteBytes [] 0x2000 8 0x3FF0000000000000
      unclean := [⟨0x2004, 4⟩], stale := [⟨0x2000, 16⟩] }

/-- A clean of one byte writes its whole line back over the engine's word, and no other (20_memory.md R78). -/
theorem test_clean_writeBack :
    let t := hostClean dirtyD ⟨0x2000, 1⟩
    memRead t.mem 0x2003 = Config.anyByte [0x2003, 4, 0] ∧ t.unclean = [] ∧ memRead dirtyD.mem 0x2007 = 0x3F := by
  have hm : dirtyD.mem.wf = true := by decide
  have hs : spansHave ((dirtyD.dirtyIn ⟨0x2000, 1⟩).flatMap (spansInter dirtyD.stale)) 0x2003 = true := by decide
  exact ⟨(memRead_memFillSpans _ _ _ _ hm).trans (if_pos hs), by decide, by decide⟩

/-- An invalidate of region D leaves the engine's bytes (70_reset_and_hazards.md R269). -/
theorem test_invalidate_keepsResult :
    let t := hostInvalidate dirtyD ⟨0x2000, 16⟩
    memRead t.mem 0x2007 = 0x3F ∧ t.unclean = [] ∧ t.stale = [] := by decide

/-- The clause of the clean. -/
theorem witness_CacheMaintenance :
    dirtyD.mem.wf = true ∧ (one.running = some (.fft .real)) ∧
    (let L := (dirtyD.unclean.map fun u => u.inter ((⟨0x2000, 1⟩ : Span).lines 3)).map (Span.lines 3)
     spansHave L 0x2000 = true ∧ spansHave dirtyD.stale 0x2000 = true ∧ spansHave L 0x2008 = false) := by decide

/-- The clause of the invalidate: a byte the engine wrote since, and one it did not; no command running, and one running
over a dirty line. -/
theorem witness_CacheMaintenance_invalidate :
    dirtyD.mem.wf = true ∧ dirtyD.running = none ∧ ((⟨0x2000, 1⟩ : Span).lines 3).has 0x2007 = true ∧
    (∃ i, one.running = some i ∧ ∃ l ∈ ([⟨0x1004, 1⟩] : List Span).map (Span.lines 3),
      ∃ r ∈ regionsOf i one, r.overlaps l = true) ∧
    spansHave dirtyD.unclean 0x2004 = true ∧ spansHave dirtyD.stale 0x2004 = true ∧
    spansHave (hostStore dirtyD 0x2020 .w1 1).unclean 0x2020 = true ∧
    spansHave (hostStore dirtyD 0x2020 .w1 1).stale 0x2020 = false ∧ spansHave dirtyD.unseen 0x2007 = false ∧
    peersHide [aside] 0x2007 = false :=
  ⟨by decide, by decide, by decide, ⟨.fft .real, by decide, by decide⟩, by decide, by decide, by decide, by decide,
   by decide, by decide⟩

/-- A command whose host looks at the engine and then reads the second word of region D: each of the four looks, with
DONE_IE set; and one whose host reads it without a look. -/
theorem witness_ResultIsReadByHost :
    let readD : List HostEvent := [.read 0x2008 .w8]
    ∀ script ∈ [.read 0x40000014 .w4 :: readD, .poll 0x40000014 3 2 :: readD, .takeIrq :: readD,
        .poll 0x40000044 1 1 :: readD, readD],
      ∃ s : State, s.mem.wf = true ∧ s.raced = false ∧ s.platform.ioCoherent = true ∧ s.stale = [] ∧
        Runnable (.fft .real) s ∧ 1 < (regionD (.fft .real) s).size / 8 ∧ (regionD (.fft .real) s).base + 8 * 1 = 0x2008 ∧
        targetOf s.platform ((regionD (.fft .real) s).base + 8 * 1) 8 = .memory ∧ s.doneIe = true ∧ s.peers = [aside] ∧
        (∀ p ∈ s.peers, p.busy = true → ∀ j < 8, p.hides ((regionD (.fft .real) s).base + 8 * 1 + j) = false) ∧
        s.platform.mmioBase + 0x014 = 0x40000014 ∧ s.platform.mmioBase + 0x044 = 0x40000044 ∧ s.script = script := by
  intro readD script hs
  simp only [List.mem_cons, List.not_mem_nil, or_false] at hs
  rcases hs with rfl | rfl | rfl | rfl | rfl <;>
    exact ⟨{ one with irqEn := 1, peers := [aside], script := _ }, by decide, rfl, rfl, rfl,
      runnable_of (by decide +kernel) rfl, by decide, by decide, by decide, by decide, rfl, by decide, by decide, by decide,
      rfl⟩

/-- A machine in DONE whose host has not looked at it since. -/
def doneUnseen : State := { (State.reset.awaitSight ⟨0x2000, 16⟩).enterDone 1 with irqEn := 2 }

/-- The spans whose DONE the host has not observed, after an outcome with a next state. -/
def unseenOf : Host.Outcome State Fault Refusal → Option (List Span)
  | .next t => some t.unseen
  | _       => none

/-- A run to DONE leaves its region D unobserved (70_reset_and_hazards.md R269). -/
theorem test_done_unseen : unseenOf (step one) = some [⟨0x2000, 16⟩] := by decide +kernel

/-- What shows the host DONE and what does not: STATUS does; IRQ_STAT and the interrupt do only with DONE_IE, which is
clear here; OUT_LEN does not (70_reset_and_hazards.md R269). -/
theorem test_observation :
    unseenOf (step (withEvent doneUnseen (.read 0x40000014 .w4))) = some [] ∧
    unseenOf (step (withEvent doneUnseen (.poll 0x40000014 3 2))) = some [] ∧
    unseenOf (step (withEvent doneUnseen (.read 0x40000044 .w4))) = some [⟨0x2000, 16⟩] ∧
    unseenOf (step (withEvent { doneUnseen with irqEn := 1 } (.read 0x40000044 .w4))) = some [] ∧
    unseenOf (step (withEvent { doneUnseen with irqEn := 1 } .takeIrq)) = some [] ∧
    unseenOf (step (withEvent { doneUnseen with irqStat := 3 } .takeIrq)) = some [⟨0x2000, 16⟩] ∧
    unseenOf (step (withEvent doneUnseen (.read 0x40000024 .w4))) = some [⟨0x2000, 16⟩] := by decide

theorem witness_NonCoherentAccesses :
    ∃ s : State, s.mem.wf = true ∧ s.platform.ioCoherent = false ∧ 0 < Width.w8.bytes ∧ 7 < Width.w8.bytes ∧
      targetOf s.platform 0x1000 Width.w8.bytes = .memory ∧ (⟨0x1000, 8⟩ : Span).has (0x1000 + 0) = true ∧
      (⟨0x1000, 8⟩ : Span).has (0x1000 + 7) = true ∧
      (regionD (.fft .real) s).has 0x2000 = true ∧ (⟨0x2000, 1⟩ : Span).has 0x2000 = true ∧
      s.script = [.read (s.platform.mmioBase + 0x014) .w4, .invalidate ⟨0x2000, 1⟩] ∧
      s.peers = [aside, { astride with busy := false }] ∧ (∀ p ∈ s.peers, p.busy = true → p.hides 0x2000 = false) ∧
      ∃ t, exec (.fft .real) s = .next t ∧ t.seq = .done :=
  ⟨{ one with
      platform := { Platform.vectors with ioCoherent := false }
      peers := [aside, { astride with busy := false }]
      script := [.read 0x40000014 .w4, .invalidate ⟨0x2000, 1⟩] }, by decide, rfl, by decide, by decide,
   by decide, by decide, by decide, by decide, by decide, rfl, rfl, by decide, next_of_seqOf (by decide +kernel)⟩

/-- Another instance, BUSY, whose region D ends at the top of memory. -/
def atTop : Peer := ⟨1, [], ⟨0xFFFFFFF0, 16⟩, true⟩

/-- The clauses on another instance's write and end: at the top of memory, with no dirty line there, and an instance that
alone hides a byte. -/
theorem witness_NonCoherentAccesses_peer :
    dirtyD.mem.wf = true ∧
    (0xFFFFFFF8 % 8 = 0 ∧ 0xFFFFFFF8 + 8 ≤ 2 ^ dirtyD.platform.paBits ∧ busAccess dirtyD.platform 0xFFFFFFF8 = none ∧
      ∃ p ∈ [atTop], p.busy = true ∧ p.result.base ≤ 0xFFFFFFF8 ∧ 0xFFFFFFF8 + 8 ≤ p.result.base + p.result.size) ∧
    (∀ d ∈ dirtyD.platform.device, d.overlaps ⟨0xFFFFFFF8, 8⟩ = false) ∧ dirtyD.platform.ioCoherent = false ∧
    spansHave dirtyD.dirtyLines (0xFFFFFFF8 + 7) = false ∧
    (∀ p ∈ [aside, astride], p.inst ≠ 2 → p.hides 0x2008 = false) ∧ astride.hides 0x2008 = true := by decide

/-- With IO_COHERENT false another instance's write beside the engine's own bytes is no host cache line's: the engine
reads it, and its own byte of the same 64-byte line, as memory has them, and a host's invalidate leaves both
(20_memory.md R78, R81). -/
theorem test_peerWrite_disjoint :
    let s := { State.reset with
      platform := { Platform.vectors with ioCoherent := false }
      mem := memWriteBytes [] 0x2000 8 0x11, stale := [⟨0x2000, 8⟩] }
    let t := peerStore s 0x2008 0x22
    engineByte t 0 0x2008 = 0x22 ∧ engineByte t 0 0x2000 = 0x11 ∧
    (hostInvalidate t ⟨0x2000, 16⟩).mem = t.mem ∧ t.raced = false := by decide

/-- What an instance hides ends when the host observes its end, and not before (70_reset_and_hazards.md R269). -/
theorem test_peerSeen :
    let s := { State.reset with peers := [astride, aside] }
    (peerSeen s 2).peers = [astride, aside] ∧ (peerSeen (peerEnd s 2) 2).peers = [aside] ∧
    peersHide (peerEnd s 1).peers 0x4000 = true ∧ peersHide (peerEnd s 1).peers 0x3000 = false := by decide

/-- The two length errors, and a start check that fails. -/
theorem witness_LengthErrors :
    startCheck (.ifftR2 .real false) (running (.ifftR2 .real false) 6 0 [] []) = some ⟨.notPow2, 0⟩ ∧
    startCheck (.nconv .real .real) (running (.nconv .real .real) 2 1 [] []) = some ⟨.lenMismatch, 0⟩ := by
  decide +kernel

/-- Every clause, in its order: a state for each outcome. -/
theorem witness_StartChecksInOrder :
    startCheck (.fftR2 .real) (running (.fftR2 .real) 3 0 [] []) = some ⟨.notPow2, 0⟩ ∧
    startCheck (.cconv .real .real) (running (.cconv .real .real) 3 4 [] []) = some ⟨.lenMismatch, 0⟩ ∧
    startCheck (.fft .real) (running (.fft .real) 2048 0 [] []) = some ⟨.lenRange, 0⟩ ∧
    startCheck (.conv .real .real) { running (.conv .real .real) 1 1 [] [] with srcALo := 4 } = some ⟨.align, 4⟩ ∧
    startCheck (.conv .real .real) { running (.conv .real .real) 1 1 [] [] with srcBLo := 4 } = some ⟨.align, 4⟩ ∧
    startCheck (.conv .real .real) { running (.conv .real .real) 1 1 [] [] with dstLo := 4 } = some ⟨.align, 4⟩ ∧
    startCheck (.conv .real .real) { running (.conv .real .real) 1 1 [] [] with srcAHi := 1 } =
      some ⟨.addrRange, 0x100001000⟩ ∧
    startCheck (.conv .real .real) { running (.conv .real .real) 1 1 [] [] with srcBHi := 1 } =
      some ⟨.addrRange, 0x100001100⟩ ∧
    startCheck (.conv .real .real) { running (.conv .real .real) 1 1 [] [] with dstHi := 1 } =
      some ⟨.addrRange, 0x100002000⟩ ∧
    startCheck (.fft .complex) { running (.fft .complex) 1 0 [] [] with dstLo := 0xFFFFFFF0 } = none := by
  decide +kernel

theorem witness_OutLenFits : Platform.vectors.wf = true ∧ startCheck (.fft .real) one = none := by decide +kernel

/-! ### Arithmetic -/

theorem realOf_f1 : realOf f1 = 1 := by
  have h : intUnits f1 = 2 ^ 1074 := by decide +kernel
  unfold realOf
  rw [h, Int.cast_pow, Int.cast_ofNat]
  exact div_self (by positivity)

/-- The largest finite value. -/
theorem realOf_max : realOf 0x7FEFFFFFFFFFFFFF = 2 ^ 1024 - 2 ^ 971 := by
  have h : intUnits 0x7FEFFFFFFFFFFFFF = (2 ^ 53 - 1) * 2 ^ 971 * 2 ^ 1074 := by decide +kernel
  have h2 : (2 : ℝ) ^ 1024 = 2 ^ 53 * 2 ^ 971 := by rw [← pow_add]
  unfold realOf
  rw [h, Int.cast_mul, Int.cast_mul, Int.cast_sub, Int.cast_pow, Int.cast_pow, Int.cast_pow, Int.cast_ofNat,
    Int.cast_one, mul_div_assoc, div_self (by positivity), mul_one, h2]
  ring

/-- 1 + 1, 1 - 1, 1 · 1 and 1 / 1 are in range. -/
theorem witness_ArithmeticIsCorrectlyRounded :
    isFinite f1 = true ∧ InRange (realOf f1 + realOf f1) ∧ InRange (realOf f1 - realOf f1) ∧
    InRange (realOf f1 * realOf f1) ∧ realOf f1 ≠ 0 ∧ InRange (realOf f1 / realOf f1) := by
  have hb : ∀ r : ℝ, |r| ≤ 2 → InRange r := fun r hr => by
    have e : (2 : ℝ) ^ 1024 = 2 ^ 970 * 2 ^ 54 := by rw [← pow_add]
    have h1 : (1 : ℝ) ≤ 2 ^ 970 := one_le_pow₀ (by norm_num)
    unfold InRange
    rw [e]
    generalize (2 : ℝ) ^ 970 = x at h1
    linarith
  rw [realOf_f1]
  exact ⟨by decide +kernel, hb _ (by norm_num), hb _ (by norm_num), hb _ (by norm_num), by norm_num, hb _ (by norm_num)⟩

/-- The largest finite value doubled (by a sum, and by the difference from its negation), squared, and divided by the least subnormal, leaves the range. -/
theorem witness_OverflowGivesInfinity :
    isFinite 0x7FEFFFFFFFFFFFFF = true ∧ isFinite 1 = true ∧
    ¬ InRange (realOf 0x7FEFFFFFFFFFFFFF + realOf 0x7FEFFFFFFFFFFFFF) ∧
    isFinite 0xFFEFFFFFFFFFFFFF = true ∧ ¬ InRange (realOf 0x7FEFFFFFFFFFFFFF - realOf 0xFFEFFFFFFFFFFFFF) ∧
    ¬ InRange (realOf 0x7FEFFFFFFFFFFFFF * realOf 0x7FEFFFFFFFFFFFFF) ∧ realOf 1 ≠ 0 ∧
    ¬ InRange (realOf 0x7FEFFFFFFFFFFFFF / realOf 1) := by
  have hs : realOf 1 = 1 / 2 ^ 1074 := by
    have h : intUnits 1 = 1 := by decide +kernel
    unfold realOf
    rw [h, Int.cast_one]
  have h971 : (2 : ℝ) ^ 971 = 2 * 2 ^ 970 := by rw [← pow_succ']
  have e : (2 : ℝ) ^ 1024 = 2 ^ 970 * 2 ^ 54 := by rw [← pow_add]
  have h1 : (1 : ℝ) ≤ 2 ^ 970 := one_le_pow₀ (by norm_num)
  have h2 : (4 : ℝ) ≤ 2 ^ 1074 :=
    calc (4 : ℝ) = 2 ^ 2 := by norm_num
      _ ≤ 2 ^ 1074 := pow_le_pow_right₀ (by norm_num) (by norm_num)
  have hm : realOf 0x7FEFFFFFFFFFFFFF = 2 ^ 970 * (2 ^ 54 - 2) := by rw [realOf_max, h971, e]; ring
  have hout : ∀ r : ℝ, 2 ^ 1024 ≤ r → ¬ InRange r := fun r hr h => by
    have hlt : |r| < 2 ^ 1024 := lt_trans h (sub_lt_self _ (by positivity))
    exact absurd (hr.trans (le_abs_self r)) (not_le.mpr hlt)
  rw [e] at hout
  have hn : realOf 0xFFEFFFFFFFFFFFFF = -realOf 0x7FEFFFFFFFFFFFFF := by
    have h : intUnits 0xFFEFFFFFFFFFFFFF = -intUnits 0x7FEFFFFFFFFFFFFF := by decide +kernel
    unfold realOf
    rw [h, Int.cast_neg, neg_div]
  rw [hn, hm, hs]
  clear h971 e hn hm hs
  generalize (2 : ℝ) ^ 970 = x at *
  generalize (2 : ℝ) ^ 1074 = y at *
  have hbig : ∀ z : ℝ, 4 ≤ z → x * 2 ^ 54 ≤ x * (2 ^ 54 - 2) * z := fun z hz =>
    calc x * 2 ^ 54 ≤ x * (2 ^ 54 - 2) * 4 := by linarith
      _ ≤ x * (2 ^ 54 - 2) * z := mul_le_mul_of_nonneg_left hz (by linarith)
  refine ⟨by decide +kernel, by decide +kernel, hout _ (by linarith), by decide +kernel, hout _ (by linarith), hout _ (hbig _ (by linarith)), ?_, hout _ ?_⟩
  · exact one_div_ne_zero (by linarith)
  · rw [div_div_eq_mul_div, div_one]
    exact hbig y h2

theorem realOf_zero {x : F64} (hx : intUnits x = 0) : realOf x = 0 := by unfold realOf; rw [hx]; simp

/-- The clauses on infinite operands and on a zero divisor: both infinities, a finite value that is not 0, both zeros. -/
theorem witness_OverflowGivesInfinity_infinite :
    (isInf 0x7FF0000000000000 = true ∧ signBit 0x7FF0000000000000 = false) ∧
    (isInf 0xFFF0000000000000 = true ∧ signBit 0xFFF0000000000000 = true) ∧ isFinite f1 = true ∧ realOf f1 ≠ 0 ∧
    (isFinite zeroF = true ∧ realOf zeroF = 0) ∧ (isFinite negZeroF = true ∧ realOf negZeroF = 0) := by
  rw [realOf_f1]
  exact ⟨by decide, by decide, by decide +kernel, one_ne_zero, ⟨by decide +kernel, realOf_zero (by decide +kernel)⟩,
    by decide +kernel, realOf_zero (by decide +kernel)⟩

/-- IEEE 754's infinite and signed zero results (40_datapath.md R120, R121): ∞ + 1, 1 - ∞, ∞ · -2, -2 / ∞ and -2 / +0. -/
theorem test_infinities :
    addF [] 0x7FF0000000000000 f1 = 0x7FF0000000000000 ∧ subF [] f1 0x7FF0000000000000 = 0xFFF0000000000000 ∧
    mulF [] 0x7FF0000000000000 (negF f2) = 0xFFF0000000000000 ∧ divF [] (negF f2) 0x7FF0000000000000 = negZeroF ∧
    divF [] (negF f2) zeroF = 0xFFF0000000000000 := by decide +kernel

/-- (+0) - (-0) = +0 and (-0) - (+0) = -0 (40_datapath.md R120). -/
theorem test_zeroDifferences : subF [] zeroF negZeroF = zeroF ∧ subF [] negZeroF zeroF = negZeroF := by decide +kernel

/-- A sum and a difference of zeros, for each pair of signs that the clauses tell apart, and a nonzero divisor. -/
theorem witness_SignsOfZero :
    isFinite zeroF = true ∧ isFinite negZeroF = true ∧ realOf zeroF + realOf zeroF = 0 ∧
    realOf negZeroF + realOf negZeroF = 0 ∧ realOf negZeroF - realOf zeroF = 0 ∧ realOf zeroF - realOf negZeroF = 0 ∧
    isFinite f1 = true ∧ realOf f1 ≠ 0 := by
  rw [realOf_zero (x := zeroF) (by decide +kernel), realOf_zero (x := negZeroF) (by decide +kernel), realOf_f1]
  exact ⟨by decide +kernel, by decide +kernel, by norm_num, by norm_num, by norm_num, by norm_num, by decide +kernel,
    by norm_num⟩

/-- The ends of the range of a divisor. -/
theorem witness_ComplexUnitCommutes : (1 ≤ 1 ∧ 1 ≤ 2 ^ 31) ∧ (1 ≤ 2 ^ 31 ∧ 2 ^ 31 ≤ 2 ^ 31) := by decide

/-- Angles with r below D and above it. -/
theorem witness_GeneratorIsCorrectlyRounded : 0 < 1 ∧ (1 < 8 ∧ 0 < 8) ∧ (9 > 8 ∧ 0 < 8) := by decide

/-- One pair (r, D) for each clause: 0 of 1, 1 of 4, 1 of 2, 3 of 4, 1 of 6, 1 of 3. -/
theorem witness_GeneratorValuesAndSymmetries :
    (0 < 1 ∧ 0 < 1) ∧ (1 < 4 ∧ 4 * 1 = 4) ∧ (1 < 2 ∧ 2 * 1 = 2) ∧ (3 < 4 ∧ 4 * 3 = 3 * 4) ∧ (1 < 6 ∧ 6 * 1 = 6) ∧
    (1 < 3 ∧ 3 * 1 = 3) := by decide

theorem witness_RomEqualsGenerator : (2 ≤ 2 ∧ 1 ≤ 1 ∧ 1 ≤ 2 ∧ 2 * 0 < 2 ^ 1) ∧ 2 ≤ 10 ∧ 3 ≤ 10 ∧ 2 * 3 < 2 ^ 3 := by
  decide

theorem witness_BitReversalOfAnIndex : 0 < 2 ^ 0 ∧ 6 < 2 ^ 3 := by decide

theorem witness_RadixTwoSchedule :
    [zeroC].length = 2 ^ 0 ∧ [zeroC, zeroC].length = 2 ^ 1 ∧ (1 < 2 ∧ 0 < 2 ^ 2 / 2 ^ (1 + 1) ∧ 1 < 2 ^ 1) ∧ 0 < 1 ∧ 0 < 2 ^ 1 / 2 ^ (0 + 1) ∧ 0 < 2 ^ 0 := by decide

theorem witness_RealSpectrumIsConjugate :
    (1 ≤ 1 ∧ [f1, f2].length = 2 ^ 1) ∧ (1 ≤ 2 ∧ [f1, f1, f1, f1].length = 2 ^ 2) ∧
    (1 ≤ 1 ∧ 1 < 2 ^ 2 / 2) ∧ (1 ≤ 1 ∧ 1 < 2 ^ 2 ∧ 2 * 1 ≠ 2 ^ 2) ∧ (3 < 2 ^ 2 ∧ 2 * 3 ≠ 2 ^ 2) := by decide

/-- Each clause at its ends, for three chirps in a kernel of length 8. -/
theorem witness_BluesteinKernelLayout :
    1 ≤ [zeroC, zeroC, zeroC].length ∧ 2 * 3 - 1 ≤ 8 ∧ 0 < 3 ∧ 2 < 3 ∧ (1 ≤ 1 ∧ 1 < 3) ∧ (3 ≤ 3 ∧ 3 ≤ 8 - 3) ∧
    (3 ≤ 5 ∧ 5 ≤ 8 - 3) ∧ (0 < 3 ∧ 2 < 3) := by decide

theorem witness_BluesteinSchedule : 2 ≤ [zeroC, zeroC].length ∧ 2 ≤ [zeroC, zeroC, zeroC].length := by decide

theorem witness_DispatcherRule :
    (Operand.real []).length = 0 ∧ (Operand.real [f1, f1]).length = 2 ^ 1 ∧
    ((Operand.real [f1, f1, f1]).length ≠ 0 ∧ ∀ k, (Operand.real [f1, f1, f1]).length ≠ 2 ^ k) ∧
    (Operand.complex [zeroC]).length ≤ 1 := by
  refine ⟨rfl, rfl, ⟨by decide, fun k h => ?_⟩, by decide⟩
  have h3 : (3 : Nat) = 2 ^ k := h
  match k with
  | 0 => omega
  | 1 => omega
  | k + 2 => rw [pow_add] at h3; omega

/-! ### Completion -/

theorem witness_ForwardTransformsComplete :
    Runnable (.fft .real) (running (.fft .real) 4 0 [f1] []) ∧ Runnable (.fftR2 .complex) (running (.fftR2 .complex) 4 0 [f1] []) ∧
    Runnable (.fftBl .real) (running (.fftBl .real) 3 0 [f1] []) ∧
    (running (.fft .real) 4 0 [f1] []).mem.wf = true ∧ (running (.fft .real) 4 0 [f1] []).raced = false :=
  ⟨runnable_of (by decide +kernel) rfl, runnable_of (by decide +kernel) rfl, runnable_of (by decide +kernel) rfl,
   by decide, rfl⟩

theorem witness_InverseTransformsComplete :
    Runnable (.ifft .real true) (running (.ifft .real true) 5 0 [f1] []) ∧
    Runnable (.ifftR2 .complex false) (running (.ifftR2 .complex false) 2 0 [f1] []) ∧
    Runnable (.ifftBl .real true) (running (.ifftBl .real true) 1 0 [f1] []) ∧
    (running (.ifft .real true) 5 0 [f1] []).mem.wf = true ∧ (running (.ifft .real true) 5 0 [f1] []).raced = false :=
  ⟨runnable_of (by decide +kernel) rfl, runnable_of (by decide +kernel) rfl, runnable_of (by decide +kernel) rfl,
   by decide, rfl⟩

theorem witness_ConvolutionsComplete :
    Runnable (.conv .real .complex) (running (.conv .real .complex) 2 3 [f1] [f2]) ∧
    Runnable (.cconv .real .real) (running (.cconv .real .real) 3 3 [f1] [f2]) ∧
    Runnable (.nconv .complex .complex) (running (.nconv .complex .complex) 2 2 [f1] [f2]) ∧
    (running (.conv .real .complex) 2 3 [f1] [f2]).mem.wf = true ∧
    (running (.conv .real .complex) 2 3 [f1] [f2]).raced = false :=
  ⟨runnable_of (by decide +kernel) rfl, runnable_of (by decide +kernel) rfl, runnable_of (by decide +kernel) rfl,
   by decide, rfl⟩

/-- The clauses of CONV: an empty operand on either side, and none. -/
theorem witness_ConvolutionsComplete_conv :
    (Runnable (.conv .real .real) (running (.conv .real .real) 0 2 [] [f1]) ∧ (running (.conv .real .real) 0 2 [] [f1]).lenN = 0) ∧
    (Runnable (.conv .real .real) (running (.conv .real .real) 2 0 [f1] []) ∧ (running (.conv .real .real) 2 0 [f1] []).lenM = 0) ∧
    ((running (.conv .real .complex) 2 3 [f1] [f2]).lenN ≠ 0 ∧ (running (.conv .real .complex) 2 3 [f1] [f2]).lenM ≠ 0) :=
  ⟨⟨runnable_of (by decide +kernel) rfl, by decide⟩, ⟨runnable_of (by decide +kernel) rfl, by decide⟩, by decide⟩

/-- E33, E34 and K19: N = 0, CONV with one empty operand on either side, and CCONV with both. -/
theorem witness_EmptyOperandsComplete :
    (running (.fft .real) 0 0 [] []).lenN = 0 ∧ (running (.conv .real .real) 0 5 [] []).lenN = 0 ∧
    (running (.conv .real .real) 5 0 [] []).lenM = 0 ∧
    ((running (.cconv .real .real) 0 0 [] []).lenN = 0 ∧ (running (.cconv .real .real) 0 0 [] []).lenM = 0) := by
  decide

end Sys2Proof.Tests
end

section
/-!
PROOFS. is_pow2, nextpow2 and log2 (00_scope.md R12), the platform's constancy (R7, R23) and the invariant after reset.
-/

namespace Sys2Proof.Machine

/-! ## Powers of two -/

/-- is_pow2 holds of 0 and of the powers of two alone (00_scope.md R12). -/
theorem isPow2_iff (n : Nat) : isPow2 n = true ↔ n = 0 ∨ ∃ k, n = 2 ^ k := by
  constructor
  · intro h
    by_cases hn : n = 0
    · exact .inl hn
    · exact .inr ⟨n.log2, (isPow2_pos h hn).symm⟩
  · rintro (rfl | ⟨k, rfl⟩)
    · rfl
    · exact isPow2_two_pow k

/-- Settles O1: is_pow2 by its inverse log2, nextpow2 by its two bounds. -/
theorem powersOfTwo : Obligations.PowersOfTwo :=
  ⟨isPow2_iff, fun n _ => ⟨nextPow2_eq_two_pow n, le_nextPow2 n, fun _ => nextPow2_le⟩, fun _ => Nat.log2_two_pow⟩

/-! ## The platform -/

/-- CAPS shows the platform alone (10_state.md R23). -/
theorem readReg_caps (s : State) : readReg s 0x008 = 0#27 ++ BitVec.ofNat 5 s.platform.log2Lmax := rfl

/-- Every next state of a command keeps the platform. -/
theorem exec_platform {i : Instr} {s t : State} (h : exec i s = .next t) : t.platform = s.platform := by
  rcases exec_next h with ⟨e, -, rfl⟩ | ⟨-, k, span, a, -, -, rfl⟩ | ⟨-, rfl⟩
  · exact State.enterError_platform ..
  · simp only [State.enterError_platform, State.endRun_platform, State.withMem_platform]
  · exact doneWith_platform ..

/-- The engine's turn keeps the platform. -/
theorem engineTurn_platform {s t : State} (h : engineTurn s = .next t) : t.platform = s.platform := by
  rcases engineTurn_next h with ⟨-, rfl⟩ | ⟨-, -, rfl⟩ | ⟨-, i, -, he⟩
  · rfl
  · exact State.enterError_platform ..
  · exact exec_platform he

/-- START, CLEAR and both keep the platform. -/
@[simp] theorem writeCtrl_platform (s : State) (v : Word) : (s.writeCtrl v).platform = s.platform := by
  rcases writeCtrl_cases s v with e | ⟨-, -, -, e⟩ | ⟨-, u, hu, h⟩
  · rw [e]
  · rw [e, State.enterIdle_platform]
  · have hp : u.platform = s.platform := by rcases hu with ⟨rfl, -⟩ | ⟨rfl, -⟩ <;> rfl
    rcases h with ⟨_, -, e⟩ | ⟨_, _, -, -, e⟩ | ⟨_, -, -, e⟩
    · rw [e, State.enterError_platform, hp]
    · rw [e, State.enterError_platform, hp]
    · rw [e, State.enterBusy_platform, hp]

/-- No register write reaches the platform. -/
@[simp] theorem writeReg_platform (s : State) (off : Nat) (v : Word) : (writeReg s off v).platform = s.platform := by
  rcases writeReg_cases s off v with ⟨-, e⟩ | ⟨-, e⟩ | ⟨-, e⟩ | ⟨-, -, e⟩ | ⟨-, -, e⟩
  · rw [e, writeCtrl_platform]
  · rw [e]
  · rw [e]
  · rw [e]
  · rw [e, writeArg_frame]

/-- The reset input keeps the platform. -/
@[simp] theorem hwReset_platform (s : State) : s.hwReset.platform = s.platform := by
  obtain ⟨m, stale, unseen, peers, n, e, -⟩ := hwReset_eq s
  rw [e]
  rfl

/-- Every step keeps the platform (00_scope.md R7). -/
theorem step_platform {s t : State} (h : step s = .next t) : t.platform = s.platform := by
  rcases step_next h with ⟨rest, hd, u, -, -, he⟩ | ⟨rest, off, v, -, rfl⟩ | ⟨rest, hd, u, n, -, rfl⟩ |
    ⟨rest, a, w, v, -, rfl⟩ | ⟨rest, x, rfl⟩ | ⟨rest, x, rfl⟩ | ⟨rest, -, rfl⟩ | ⟨rest, a, v, -, rfl⟩ |
    ⟨rest, r, ps, -, -, rfl⟩
  case inl => exact (engineTurn_platform he :)
  case inr.inl => exact writeReg_platform ..
  case inr.inr.inr.inr.inr.inr.inl => exact hwReset_platform _
  all_goals rfl

/-- Settles O21: every step keeps the platform, and CAPS reads nothing else. -/
theorem platformIsConstant : Obligations.PlatformIsConstant := fun s t h =>
  ⟨step_platform h, by rw [readReg_caps, readReg_caps, step_platform h]⟩

/-! ## The invariant after reset -/

/-- The state after reset meets the invariant on every platform within R7's ranges. -/
theorem resetOn_inv {p : Platform} (hp : p.wf = true) : (State.resetOn p).Inv where
  platform := hp
  memory   := rfl
  inRange  := by simp [MemInRange]
  errCode  := by simp [ErrCodeAgrees]
  errAddr  := fun _ => rfl
  outLen   := fun _ => rfl
  armed    := by simp [BusyArmed]
  race     := by simp [RaceOnlyBusy]
  caches   := fun _ => ⟨rfl, rfl⟩
  waiting  := by simp [CachesInRange]
  peers    := by simp [PeersFit]

/-- Settles O19: no memory, no waiting byte and no other engine is listed after reset, and STATE is IDLE. -/
theorem resetMeetsInvariant : Obligations.ResetMeetsInvariant :=
  ⟨resetOn_inv (by decide), fun _ => resetOn_inv⟩

end Sys2Proof.Machine
end

section
/-!
PROOFS. The four operations of binary64 are correctly rounded (40_datapath.md R120): each exact result is a signed
quotient of units, and the operation is the signed rounding of that quotient.
-/

namespace Sys2Proof.Machine

/-- The signed rounding of a quotient in range is RNE of it (00_scope.md R10). -/
theorem isRNE_of_eq_signedQuotient {r : ℝ} {neg : Bool} {n d : Nat} (hd : 0 < d) (hr : r = signedQuotient neg n d)
    (h : InRange r) : IsRNE r (packF64 neg (roundMag n d)) := by
  subst hr
  exact isRNE_packF64 hd neg ((roundMag_lt_inf_iff_inRange hd neg).mpr h)

/-! ## The exact results as signed quotients -/

/-- The sign of a product is the exclusive or of the signs. -/
theorem sign_mul_sign (p q : Bool) :
    (if p then -1 else 1 : ℝ) * (if q then -1 else 1) = if p != q then -1 else 1 := by
  cases p <;> cases q <;> norm_num

/-- So is the sign of a quotient. -/
theorem sign_div_sign (p q : Bool) :
    (if p then -1 else 1 : ℝ) / (if q then -1 else 1) = if p != q then -1 else 1 := by
  cases p <;> cases q <;> norm_num

/-- A whole number of units as a signed quotient. -/
theorem signedQuotient_natAbs (x : ℤ) : signedQuotient (decide (x < 0)) x.natAbs 1 = (x : ℝ) / 2 ^ 1074 := by
  unfold signedQuotient
  rw [Nat.cast_natAbs, Int.cast_abs, Nat.cast_one, div_one]
  by_cases hx : x < 0
  · rw [abs_of_neg (by exact_mod_cast hx)]
    simp [hx]
  · rw [abs_of_nonneg (by exact_mod_cast not_lt.mp hx)]
    simp [hx]

/-- Zero as a signed quotient, of either sign. -/
theorem signedQuotient_zero (neg : Bool) (d : Nat) : signedQuotient neg 0 d = 0 := by
  simp [signedQuotient]

theorem realOf_add_realOf (a b : F64) : realOf a + realOf b = ((intUnits a + intUnits b : ℤ) : ℝ) / 2 ^ 1074 := by
  unfold realOf
  rw [Int.cast_add, add_div]

theorem realOf_mul_realOf (a b : F64) :
    realOf a * realOf b = signedQuotient (signBit a != signBit b) (unitsOf a * unitsOf b) (2 ^ 1074) := by
  unfold signedQuotient
  rw [realOf_eq, realOf_eq, ← sign_mul_sign, Nat.cast_mul, Nat.cast_pow, Nat.cast_ofNat, div_mul_div_comm,
    mul_mul_mul_comm, ← mul_div_assoc, div_div]

theorem realOf_div_realOf (a b : F64) :
    realOf a / realOf b = signedQuotient (signBit a != signBit b) (unitsOf a * 2 ^ 1074) (unitsOf b) := by
  have hp : (2 : ℝ) ^ 1074 ≠ 0 := by positivity
  unfold signedQuotient
  rw [realOf_eq, realOf_eq, ← sign_div_sign, Nat.cast_mul, Nat.cast_pow, Nat.cast_ofNat, div_div_div_cancel_right₀ hp,
    mul_div_mul_comm, mul_div_right_comm _ _ (unitsOf b : ℝ), mul_div_assoc, mul_div_cancel_right₀ _ hp]

/-- A finite value of no units is a zero. -/
theorem unitsOf_ne_zero {b : F64} (h : realOf b ≠ 0) : unitsOf b ≠ 0 := fun h0 => h (by rw [realOf_eq, h0]; simp)

/-! ## The operations -/

theorem roundMag_zero (d : Nat) : roundMag 0 d = 0 := by simp [roundMag, rneDiv]

theorem addF_isRNE (t : Site) {a b : F64} (ha : isFinite a = true) (hb : isFinite b = true)
    (h : InRange (realOf a + realOf b)) : IsRNE (realOf a + realOf b) (addF t a b) := by
  have hr := realOf_add_realOf a b
  rw [addF_finite t a b ha hb]
  split_ifs with hx
  · rw [← roundMag_zero 1]
    exact isRNE_of_eq_signedQuotient one_pos (by rw [hr, hx, signedQuotient_zero, Int.cast_zero, zero_div]) h
  · exact isRNE_of_eq_signedQuotient one_pos (by rw [hr, signedQuotient_natAbs]) h

theorem subF_isRNE (t : Site) {a b : F64} (ha : isFinite a = true) (hb : isFinite b = true)
    (h : InRange (realOf a - realOf b)) : IsRNE (realOf a - realOf b) (subF t a b) := by
  rw [sub_eq_add_neg, ← realOf_negF] at h ⊢
  exact addF_isRNE t ha (by rwa [isFinite_negF]) h

theorem mulF_isRNE (t : Site) {a b : F64} (ha : isFinite a = true) (hb : isFinite b = true)
    (h : InRange (realOf a * realOf b)) : IsRNE (realOf a * realOf b) (mulF t a b) := by
  rw [mulF_finite t a b ha hb]
  exact isRNE_of_eq_signedQuotient (by positivity) (realOf_mul_realOf a b) h

theorem divF_isRNE (t : Site) {a b : F64} (ha : isFinite a = true) (hb : isFinite b = true) (h0 : realOf b ≠ 0)
    (h : InRange (realOf a / realOf b)) : IsRNE (realOf a / realOf b) (divF t a b) := by
  have hu := unitsOf_ne_zero h0
  rw [divF_finite t a b ha hb hu]
  exact isRNE_of_eq_signedQuotient (Nat.pos_of_ne_zero hu) (realOf_div_realOf a b) h

/-- Settles O41: the exact result of each operation is a signed quotient of units, rounded once. -/
theorem arithmeticIsCorrectlyRounded : Obligations.ArithmeticIsCorrectlyRounded := fun t _ _ ha hb =>
  ⟨addF_isRNE t ha hb, subF_isRNE t ha hb, mulF_isRNE t ha hb, divF_isRNE t ha hb⟩

end Sys2Proof.Machine
end

section
/-!
PROOFS. Races with the running command and a host read of its regions (20_memory.md R75, R81,
70_reset_and_hazards.md R265): what each step that touches a region does to the race mark, to memory and to the
value read.
-/

namespace Sys2Proof.Machine

/-! ## The bytes of a value -/

/-- Memory after n bytes are written at a: the value's bytes, little-endian, and every other byte as before. -/
theorem memRead_memWriteBytes {m : Memory} (h : m.wf = true) (a n v x : Nat) :
    memRead (memWriteBytes m a n v) x =
      if a ≤ x ∧ x < a + n then BitVec.ofNat 8 (v / 256 ^ (x - a)) else memRead m x := by
  split_ifs with hx
  · have hk := memRead_memWriteBytes_inside n m a v (x - a) h (by omega)
    rwa [Nat.add_sub_cancel' hx.1] at hk
  · exact memRead_memWriteBytes_outside n m a v x h (by omega)

/-- Byte k of n assembled bytes is the byte at a + k. -/
theorem leBytes_digit (f : Nat → Byte) : ∀ (n a k : Nat), k < n → leBytes f a n / 256 ^ k % 256 = (f (a + k)).toNat
  | n + 1, a, 0, _ => by
    have hlt := (f a).isLt
    rw [leBytes, pow_zero, Nat.div_one, Nat.add_zero a]
    omega
  | n + 1, a, k + 1, hk => by
    have hlt := (f a).isLt
    rw [pow_succ', ← Nat.div_div_eq_div_mul, leBytes, show a + (k + 1) = a + 1 + k by omega,
      ← leBytes_digit f n (a + 1) k (by omega)]
    congr 2
    omega

theorem Width.bytes_le (w : Width) : w.bytes ≤ 8 := by cases w <;> decide

/-- The bytes of a host access fit the 64 bits of `hostData`. -/
theorem leBytes_width_lt (f : Nat → Byte) (a : Nat) (w : Width) : leBytes f a w.bytes < 2 ^ 64 :=
  calc leBytes f a w.bytes < 256 ^ w.bytes := leBytes_lt f _ a
    _ ≤ 256 ^ 8 := Nat.pow_le_pow_right (by norm_num) w.bytes_le
    _ = 2 ^ 64 := by norm_num

/-! ## What is hit -/

/-- A span hits the running command where it shares a byte with one of its regions (20_memory.md R75). -/
theorem hitsRunning_iff {s : State} {i : Instr} (h : s.running = some i) (x : Span) :
    s.hitsRunning x = true ↔ ∃ r ∈ regionsOf i s, r.overlaps x = true := by
  simp only [State.hitsRunning, h, List.any_eq_true]

theorem not_hitsRunning {s : State} {i : Instr} (h : s.running = some i) {x : Span}
    (hx : ∀ r ∈ regionsOf i s, r.overlaps x = false) : s.hitsRunning x = false := by
  simpa only [State.hitsRunning, h, List.any_eq_false, Bool.not_eq_true] using hx

@[simp] theorem hitsRunning_script (s : State) (rest : List HostEvent) (x : Span) :
    State.hitsRunning { s with script := rest } x = s.hitsRunning x := rfl

/-- A command is hit at its START by the result of another engine that is BUSY (20_memory.md R81). -/
theorem peersHit_iff (s : State) (i : Instr) :
    s.peersHit i = true ↔ ∃ p ∈ s.peers, p.busy = true ∧ ∃ r ∈ regionsOf i s, r.overlaps p.result = true := by
  simp only [State.peersHit, List.any_eq_true, Bool.and_eq_true]

/-! ## Host accesses of memory -/

theorem step_write_memory {s : State} {a : Nat} {w : Width} (v : BitVec 64) (rest : List HostEvent)
    (ht : targetOf s.platform a w.bytes = .memory) :
    step { s with script := .write a w v :: rest } = .next (hostStore { s with script := rest } a w v) := by
  show hostWrite { s with script := rest } a w v = _
  simp only [hostWrite, ht]

theorem step_read_memory {s : State} {a : Nat} {w : Width} (rest : List HostEvent)
    (ht : targetOf s.platform a w.bytes = .memory) :
    step { s with script := .read a w :: rest } =
      .next { s with
        script := rest, hostData := BitVec.ofNat 64 (leBytes (hostByte s) a w.bytes), draws := s.draws + 1 } := by
  show hostRead { s with script := rest } a w = _
  simp only [hostRead, ht]
  rfl

/-- The race mark after a host write (20_memory.md R75). -/
theorem hostStore_raced (s : State) (a : Nat) (w : Width) (v : BitVec 64) :
    (hostStore s a w v).raced = (s.raced || s.hitsRunning ⟨a, w.bytes⟩) := rfl

theorem hostStore_mem (s : State) (a : Nat) (w : Width) (v : BitVec 64) :
    (hostStore s a w v).mem = memWriteBytes s.mem a w.bytes v.toNat := rfl

/-- Byte k of what a host read of memory returns is the byte the host sees there. -/
theorem hostData_digit (s : State) (a k : Nat) (w : Width) (hk : k < w.bytes) :
    (BitVec.ofNat 64 (leBytes (hostByte s) a w.bytes)).toNat / 256 ^ k % 256 = (hostByte s (a + k)).toNat := by
  rw [BitVec.toNat_ofNat, Nat.mod_eq_of_lt (leBytes_width_lt _ _ _), leBytes_digit _ _ _ _ hk]

/-- A byte of the running command's regions reads as a free value (70_reset_and_hazards.md R265). -/
theorem hostByte_region {s : State} {i : Instr} (h : s.running = some i) {a : Nat}
    (ha : ∃ r ∈ regionsOf i s, r.has a = true) : hostByte s a = Config.anyByte [a, 2, s.draws] := by
  have hit : s.hitsRunning ⟨a, 1⟩ = true := by
    simpa only [hitsRunning_iff h, span_overlaps_one] using ha
  simp [hostByte, hit]

/-- A byte that no run, list or peer hides from the host reads as memory's. -/
theorem hostByte_clear {s : State} {i : Instr} (h : s.running = some i) {a : Nat}
    (ha : ∀ r ∈ regionsOf i s, r.has a = false) (hst : spansHave s.stale a = false)
    (hu : spansHave s.unseen a = false) (hp : peersHide s.peers a = false) : hostByte s a = memRead s.mem a := by
  have miss : s.hitsRunning ⟨a, 1⟩ = false :=
    not_hitsRunning h (by simpa only [span_overlaps_one] using ha)
  simp [hostByte, miss, hst, hu, hp]

/-! ## The result of a raced command -/

/-- Word k of a raced result is a free value (20_memory.md R75). -/
theorem resultWords_raced {s : State} (h : s.raced = true) (r : Operand) (k : Nat)
    (hk : k < (resultWords s r).length) : (resultWords s r)[k] = Config.anyWord [k, s.draws] := by
  simp [resultWords, h]

/-- Every word of region D after a raced run is a free value. -/
theorem doneWith_raced_word {i : Instr} {s : State} (hw : s.mem.wf = true) (hr : s.raced = true)
    (hc : startCheck i s = none) {k : Nat} (hk : k < (regionD i s).size / 8) :
    memReadBytes (doneWith i s (resultOf i s)).mem ((regionD i s).base + 8 * k) 8 =
      (Config.anyWord [k, s.draws]).toNat := by
  have hlen := resultOf_words_length hc
  have hk' : k < (resultWords s (resultOf i s)).length := by rw [resultWords_length]; omega
  rw [doneWith_mem, memReadBytes_storeWords _ _ _ _ hk' hw, resultWords_raced hr]

/-! ## The other engines -/

/-- Another engine's write marks the race where it completes and shares a byte with a region (20_memory.md R81). -/
theorem step_peerWrite_raced {s t : State} {a : Nat} {v : BitVec 64} {rest : List HostEvent}
    (h : step { s with script := .peerWrite a v :: rest } = .next t) :
    t.raced = (s.raced || (s.peerMayWrite a && s.hitsRunning ⟨a, 8⟩)) := by
  change peerWrite { s with script := rest } a v = .next t at h
  have hm : State.peerMayWrite { s with script := rest } a = s.peerMayWrite a := rfl
  unfold peerWrite at h
  cases hw : s.peerMayWrite a with
  | false =>
    rw [hm, hw, if_neg Bool.false_ne_true] at h
    cases h
    simp
  | true =>
    rw [hm, hw, if_pos rfl] at h
    split_ifs at h
    cases h
    rfl

/-- An accepted START of another engine lists it as BUSY, and its result may hit the running command
(20_memory.md R81). -/
theorem step_peerStart_accepted {s : State} {n : Nat} {inputs : List Span} {d : Span} (rest : List HostEvent)
    (h : s.peerMayStart n inputs d = true) :
    step { s with script := .peerStart n inputs d :: rest } =
      .next { s with
        script := rest, raced := s.raced || s.hitsRunning d, peers := ⟨n, inputs, d, true⟩ :: s.peers } :=
  congrArg Host.Outcome.next (if_pos h)

theorem step_peerStart_rejected {s : State} {n : Nat} {inputs : List Span} {d : Span} (rest : List HostEvent)
    (h : ¬ s.peerMayStart n inputs d = true) :
    step { s with script := .peerStart n inputs d :: rest } = .next { s with script := rest } :=
  congrArg Host.Outcome.next (if_neg h)

/-! ## This engine's START -/

/-- A START that passes its checks enters BUSY, raced where another engine's result hits it (20_memory.md R81). -/
theorem start_accepted {s : State} {i : Instr} (hs : s.seq = .idle ∨ s.seq = .done) (hd : decode s.cmd = .ok i)
    (hc : startCheck i s = none) : s.start = s.enterBusy (s.peersHit i) := by
  rcases hs with hs | hs <;> simp only [State.start, hs, hd, hc]

/-- Writing 1 to CTRL is START alone (10_state.md R24). -/
theorem writeReg_ctrl_one (s : State) : writeReg s 0x010 1 = s.start := rfl

/-! ## The obligation -/

/-- Settles O32, clause by clause: host writes, the raced result, host reads, other engines' writes and starts, and
this engine's START. -/
theorem raceMakesResultAny : Obligations.RaceMakesResultAny := by
  intro i s a w v h
  refine ⟨fun rest ht => ⟨_, step_write_memory v rest ht, rfl, fun hx => ?_, fun hx => ?_, fun hm x => ?_⟩,
    fun hw hr hR => ⟨_, exec_runnable hR, rfl, rfl, fun k hk => doneWith_raced_word hw hr hR.checks hk⟩,
    fun rest ht => ⟨_, step_read_memory rest ht, rfl, fun k hk => ?_⟩,
    fun rest x y t ht => ?_,
    fun rest n inputs d => ?_,
    fun u hs hd hc => ?_⟩
  · rw [hostStore_raced, hitsRunning_script, (hitsRunning_iff h _).mpr hx, Bool.or_true]
  · rw [hostStore_raced, hitsRunning_script, not_hitsRunning h hx, Bool.or_false]
  · rw [hostStore_mem, memRead_memWriteBytes hm]
  · rw [hostData_digit s a k w hk]
    exact ⟨fun hr => by rw [hostByte_region h hr], fun hr hst hu hp => by rw [hostByte_clear h hr hst hu hp]⟩
  · rw [step_peerWrite_raced ht, Bool.or_eq_true, Bool.and_eq_true, hitsRunning_iff h]
  · have hok := peerMayStart_iff (s := s) (n := n) (inputs := inputs) (d := d)
    refine ⟨fun ok => ⟨_, step_peerStart_accepted rest (hok.mpr ok), rfl, ?_⟩,
      fun nok => step_peerStart_rejected rest fun hm => nok (hok.mp hm)⟩
    rw [Bool.or_eq_true, hitsRunning_iff h]
  · rw [writeReg_ctrl_one, start_accepted hs hd hc, State.enterBusy_raced, peersHit_iff]

end Sys2Proof.Machine
end

section
/-!
PROOFS. The transitions of the sequencer (10_state.md R39): a step is the engine's turn, a register write, the reset
input, or it leaves every register alone; each of the four says what it does to STATE.
-/

namespace Sys2Proof.Machine

/-! ## Steps that leave the registers alone -/

/-- From s to t the platform and every register stay: memory, the caches, the other engines and the host's side are
all that may change. -/
def KeepsRegisters (s t : State) : Prop :=
  t = { s with
    mem := t.mem, raced := t.raced, unclean := t.unclean, stale := t.stale, unseen := t.unseen, peers := t.peers,
    script := t.script, hostData := t.hostData, draws := t.draws }

section
variable {s t : State} (h : KeepsRegisters s t)
include h

theorem KeepsRegisters.platform : t.platform = s.platform := by rw [h]
theorem KeepsRegisters.seq : t.seq = s.seq := by rw [h]
theorem KeepsRegisters.err : t.err = s.err := by rw [h]
theorem KeepsRegisters.cmd : t.cmd = s.cmd := by rw [h]
theorem KeepsRegisters.outLen : t.outLen = s.outLen := by rw [h]
theorem KeepsRegisters.irqStat : t.irqStat = s.irqStat := by rw [h]
theorem KeepsRegisters.errAddr : t.errAddr = s.errAddr := by rw [h]

/-- The start checks read registers and the platform alone. -/
theorem KeepsRegisters.startCheck (i : Instr) : startCheck i t = startCheck i s := by rw [h]; rfl

end

/-- Everything a step can do to the registers. -/
theorem step_registers {s t : State} (h : step s = .next t) :
    (∃ rest hd u, ctrlWrite s = none ∧ engineTurn { s with script := rest, hostData := hd, unseen := u } = .next t) ∨
    (∃ rest off v, (off = 0x010 → ctrlWrite s = some v) ∧ t = writeReg { s with script := rest } off v) ∨
    (∃ rest, s.script.head? = some .reset ∧ t = State.hwReset { s with script := rest }) ∨
    KeepsRegisters s t := by
  rcases step_next h with ⟨rest, hd, u, -, hw, he⟩ | ⟨rest, off, v, hw, he⟩ | ⟨rest, hd, u, n, -, rfl⟩ |
    ⟨rest, a, w, v, -, rfl⟩ | ⟨rest, x, rfl⟩ | ⟨rest, x, rfl⟩ | ⟨rest, hr, he⟩ | ⟨rest, a, v, -, rfl⟩ |
    ⟨rest, r, ps, -, -, rfl⟩
  case inl => exact .inl ⟨rest, hd, u, hw, he⟩
  case inr.inl => exact .inr (.inl ⟨rest, off, v, hw, he⟩)
  case inr.inr.inr.inr.inr.inr.inl => exact .inr (.inr (.inl ⟨rest, hr, he⟩))
  all_goals exact .inr (.inr (.inr rfl))

/-! ## The end of a command -/

/-- A run that stops has a next state at a bus error alone (60_exceptions.md R239). -/
theorem stopRun_next {s t : State} {written : Span} {stop : BusStop} (h : stopRun s written stop = .next t) :
    ∃ a, stop = .fail a ∧ t = (s.endRun written).enterError .busError (BitVec.ofNat 64 a) := by
  cases stop with
  | fail a => cases h; exact ⟨a, rfl, rfl⟩
  | hang a => cases h

/-- Command i ends with the error entry of a bus error at a word of one of its regions (20_memory.md R70,
60_exceptions.md R236, R239). -/
def EndsInBusError (i : Instr) (s t : State) : Prop :=
  t.seq = .error ∧ t.irqStat = s.irqStat ||| 2 ∧ t.err = .busError ∧ ∃ r ∈ regionsOf i s, ∃ k < r.size / 8,
    busAccess s.platform (r.base + 8 * k) = some (.fail (r.base + 8 * k)) ∧
      t.errAddr = BitVec.ofNat 64 (r.base + 8 * k)

theorem endsInBusError_of_stopRun {i : Instr} {s t : State} {m : Memory} {written r : Span} {k : Nat} {stop : BusStop}
    (hr : r ∈ regionsOf i s) (hk : k < r.size / 8) (hs : busAccess s.platform (r.base + 8 * k) = some stop)
    (h : stopRun (s.withMem m) written stop = .next t) : EndsInBusError i s t := by
  obtain ⟨a, rfl, rfl⟩ := stopRun_next h
  obtain rfl := busAccess_fail hs
  exact ⟨rfl, rfl, rfl, r, hr, k, hk, hs, rfl⟩

/-- Every next state of a command, by how it ends: a start check, completion, or a bus error. -/
theorem exec_ends {i : Instr} {s t : State} (h : exec i s = .next t) :
    (∃ e, startCheck i s = some e ∧ t = s.enterError e.code e.addr) ∨
    (Runnable i s ∧ t = doneWith i s (resultOf i s)) ∨ EndsInBusError i s t := by
  rcases exec_cases i s with ⟨e, hc, he⟩ | ⟨-, -, he⟩ | ⟨-, -, region, r, k, stop, hreg, hk, -, hs, he⟩ |
    ⟨-, -, -, -, k, stop, hk, -, hs, he⟩ | ⟨hR, he⟩ <;> rw [he] at h
  · cases h; exact .inl ⟨e, hc, rfl⟩
  · cases h
  · have hr : r ∈ regionsOf i s := by rcases hreg with ⟨-, rfl⟩ | ⟨-, rfl, -⟩ <;> simp [regionsOf]
    exact .inr (.inr (endsInBusError_of_stopRun (m := s.mem) hr hk hs h))
  · exact .inr (.inr (endsInBusError_of_stopRun (by simp [regionsOf]) hk hs h))
  · cases h; exact .inr (.inl ⟨hR, rfl⟩)

/-- Where the command runs depends on the registers and the platform, not on the host's side. -/
theorem Runnable.of_host {i : Instr} {s : State} {rest : List HostEvent} {hd : BitVec 64} {u : List Span}
    (h : Runnable i { s with script := rest, hostData := hd, unseen := u }) : Runnable i s :=
  ⟨h.checks, h.noDevice, h.okA, h.okB, h.okD⟩

/-! ## Register writes -/

/-- Only a CTRL write reaches STATE (10_state.md R39). -/
theorem writeReg_seq {off : Nat} (h : off ≠ 0x010) (s : State) (v : Word) : (writeReg s off v).seq = s.seq := by
  rcases writeReg_cases s off v with ⟨h0, -⟩ | ⟨-, e⟩ | ⟨-, e⟩ | ⟨-, -, e⟩ | ⟨-, -, e⟩
  · exact absurd h0 h
  · rw [e]
  · rw [e]
  · rw [e]
  · rw [e, writeArg_frame]

/-- A CTRL write with START that is not ignored: from IDLE or DONE, or with CLEAR from ERROR (10_state.md R40, R42). -/
def StartTaken (s : State) (v : Word) : Prop :=
  v.getLsbD 0 = true ∧ (s.seq = .idle ∨ s.seq = .done ∨ (s.seq = .error ∧ v.getLsbD 1 = true))

/-- The command in CMD is legal and passes its start checks. -/
def Startable (s : State) : Prop := ∃ i, decode s.cmd = .ok i ∧ startCheck i s = none

theorem not_startable_of_illegal {s : State} {e : DecodeError} (h : decode s.cmd = .error e) : ¬ Startable s := by
  rintro ⟨i, hi, -⟩
  rw [h] at hi
  cases hi

theorem not_startable_of_check {s : State} {i : Instr} {e : StartError} (hi : decode s.cmd = .ok i)
    (hc : startCheck i s = some e) : ¬ Startable s := by
  rintro ⟨j, hj, hn⟩
  rw [hi] at hj
  cases hj
  rw [hc] at hn
  cases hn

/-- Everything a CTRL write can do to STATE and the pending bits. -/
theorem writeCtrl_ends (s : State) (v : Word) :
    s.writeCtrl v = s ∨
    (v.getLsbD 0 = false ∧ v.getLsbD 1 = true ∧ (s.seq = .done ∨ s.seq = .error) ∧ s.writeCtrl v = s.enterIdle) ∨
    (StartTaken s v ∧
      ((Startable s ∧ (s.writeCtrl v).seq = .busy) ∨
       (¬ Startable s ∧ (s.writeCtrl v).seq = .error ∧ (s.writeCtrl v).irqStat = s.irqStat ||| 2))) := by
  rcases writeCtrl_cases s v with e | ⟨h1, h0, hs, e⟩ | ⟨h0, u, hu, h⟩
  · exact .inl e
  · exact .inr (.inl ⟨h0, h1, hs, e⟩)
  · have hi : u.irqStat = s.irqStat := by rcases hu with ⟨rfl, -⟩ | ⟨rfl, -⟩ <;> rfl
    refine .inr (.inr ⟨⟨h0, ?_⟩, ?_⟩)
    · rcases hu with ⟨-, hs⟩ | ⟨-, h1, hs⟩
      · exact hs.imp_right .inl
      · exact .inr (hs.imp_right (⟨·, h1⟩))
    · rcases h with ⟨e, hd, he⟩ | ⟨i, e, hd, hc, he⟩ | ⟨i, hd, hc, he⟩
      · exact .inr ⟨not_startable_of_illegal hd, by rw [he]; rfl, by rw [he, ← hi]; rfl⟩
      · exact .inr ⟨not_startable_of_check hd hc, by rw [he]; rfl, by rw [he, ← hi]; rfl⟩
      · exact .inl ⟨⟨i, hd, hc⟩, by rw [he]; rfl⟩

/-! ## The obligation -/

/-- Settles O18, by what a step can do to the registers: the engine's turn, a CTRL write, the reset input. -/
theorem sequencerTransitions : Obligations.SequencerTransitions := by
  intro s t h
  rcases step_registers h with ⟨rest, hd, u, hw, he⟩ | ⟨rest, off, v, hw, rfl⟩ | ⟨rest, hr, rfl⟩ | hk
  · rcases engineTurn_next he with ⟨-, rfl⟩ | ⟨hb, ⟨e, hd⟩, rfl⟩ | ⟨hb, i, hi, hx⟩
    · exact .inl rfl
    · exact .inr (.inr (.inr (.inl ⟨hb, hw, .inr ⟨rfl, fun ha => absurd (ha hb) (not_startable_of_illegal hd)⟩⟩)))
    · refine .inr (.inr (.inr (.inl ⟨hb, hw, ?_⟩)))
      rcases exec_ends hx with ⟨e, hc, rfl⟩ | ⟨hR, rfl⟩ | ⟨hs, -, hc, hr⟩
      · exact .inr ⟨rfl, fun ha => absurd (ha hb) (not_startable_of_check hi hc)⟩
      · exact .inl ⟨rfl, i, hi, hR.of_host⟩
      · exact .inr ⟨hs, fun _ => ⟨hc, i, hi, hr⟩⟩
  · by_cases h0 : off = 0x010
    · subst h0
      rcases writeCtrl_ends { s with script := rest } v with e | ⟨v0, v1, hs, e⟩ | ⟨⟨v0, hs⟩, hc⟩
      · exact .inl (congrArg State.seq e :)
      · exact .inr (.inr (.inl ⟨v, hw rfl, v0, v1, hs, (congrArg State.seq e :)⟩))
      · exact .inr (.inl ⟨v, hw rfl, v0, hs, hc.imp (fun ⟨hok, hb⟩ => ⟨hb, hok⟩) fun ⟨hno, he, _⟩ => ⟨he, hno⟩⟩)
    · exact .inl (writeReg_seq h0 _ v)
  · obtain ⟨m, stale, unseen, peers, n, e, -⟩ := hwReset_eq { s with script := rest }
    exact .inr (.inr (.inr (.inr ⟨hr, by rw [e]; rfl⟩)))
  · exact .inl hk.seq

end Sys2Proof.Machine
end

section
/-!
PROOFS. The invariant of the machine is kept by every named update of State, by a command, by a register write, by what
the host and the other engines do, and so by every step.
-/

namespace Sys2Proof.Machine

/-! ## The start checks -/

/-- A failed start check has a code of its own (60_exceptions.md R231, R240). -/
theorem startCheck_code {i : Instr} {s : State} {e : StartError} (h : startCheck i s = some e) : e.code ≠ .none := by
  unfold startCheck at h
  split_ifs at h
  · cases h; decide
  · cases h; decide
  · cases h; decide
  · split at h
    · cases h; simp
    · split at h <;> cases h; simp

/-- The regions of a command that passes its start checks lie in system memory (20_memory.md R66). -/
theorem region_inRange {i : Instr} {s : State} (h : startCheck i s = none) {r : Span} (hr : r ∈ regionsOf i s)
    (h0 : 0 < r.size) : r.base + r.size ≤ 2 ^ s.platform.paBits := by
  obtain ⟨-, -, -, -, hrange⟩ := startCheck_none h
  have := hrange r hr
  rw [outOfRange, decide_eq_false_iff_not] at this
  omega

theorem regionD_mem (i : Instr) (s : State) : regionD i s ∈ regionsOf i s := by simp [regionsOf]

/-- A part of region D that starts at its base lies in system memory. -/
theorem regionD_has_lt {i : Instr} {s : State} (h : startCheck i s = none) {n a : Nat} (hn : n ≤ (regionD i s).size)
    (ha : (⟨(regionD i s).base, n⟩ : Span).has a = true) : a < 2 ^ s.platform.paBits := by
  simp only [Span.has, decide_eq_true_eq] at ha
  have := region_inRange h (regionD_mem i s) (by omega)
  omega

/-- The write phase, complete or stopped, writes system memory alone. -/
theorem storeWords_regionD_below {i : Instr} {s : State} (h : startCheck i s = none) (hm : MemInRange s) {ws : List F64}
    (hl : 8 * ws.length ≤ (regionD i s).size) :
    memBelow (2 ^ s.platform.paBits) (storeWords (regionD i s).base ws s.mem) := by
  rcases Nat.eq_zero_or_pos ws.length with h0 | h0
  · rw [List.length_eq_zero_iff.mp h0]
    exact hm
  · have := region_inRange h (regionD_mem i s) (by omega)
    exact storeWords_below ws _ _ hm (by omega)

/-! ## The named updates of State -/

namespace State.Inv

variable {s : State} (h : s.Inv)
include h

/-- The invariant, where memory and the host's side alone have changed, needs its clauses on these alone. -/
theorem of_keepsRegisters {t : State} (hk : KeepsRegisters s t) (memory : t.mem.wf = true) (inRange : MemInRange t)
    (race : RaceOnlyBusy t) (caches : CoherentCaches t) (waiting : CachesInRange t)
    (peers : PeersFit s.platform.numInstances t.peers) : t.Inv where
  platform := by rw [hk.platform]; exact h.platform
  memory   := memory
  inRange  := inRange
  errCode  := by unfold ErrCodeAgrees; rw [hk.err, hk.seq]; exact h.errCode
  errAddr  := by unfold ErrAddrAgrees; rw [hk.errAddr, hk.seq]; exact h.errAddr
  outLen   := by unfold OutLenAgrees; rw [hk.outLen, hk.seq]; exact h.outLen
  armed    := by unfold BusyArmed; simp only [hk.seq, hk.cmd, hk.startCheck]; exact h.armed
  race     := race
  caches   := caches
  waiting  := waiting
  peers    := by rw [hk.platform]; exact peers

theorem withMem {m : Memory} (hm : m.wf = true) (hb : memBelow (2 ^ s.platform.paBits) m) : (s.withMem m).Inv :=
  h.of_keepsRegisters rfl hm hb h.race h.caches h.waiting h.peers

/-- A read, or a look at the engine that may end what is unseen (70_reset_and_hazards.md R269). -/
theorem hostSide {u : List Span} (hu : u = s.unseen ∨ u = []) (rest : List HostEvent) (hd : BitVec 64) (n : Nat) :
    State.Inv { s with script := rest, hostData := hd, unseen := u, draws := n } := by
  refine h.of_keepsRegisters rfl h.memory h.inRange h.race h.caches (fun b hb => h.waiting b ?_) h.peers
  rcases hu with rfl | rfl
  · exact hb
  · exact hb.imp_right (.imp_right nofun)

/-- Bytes written anew are seen by nobody yet, and wait for nobody. -/
theorem rewritten (x : Span) : (s.rewritten x).Inv := by
  refine h.of_keepsRegisters rfl h.memory h.inRange h.race h.caches (fun a ha => h.waiting a ?_) (h.peers.rewritten x)
  simp only [State.rewritten_unclean, State.rewritten_stale, State.rewritten_unseen, spansHave_spansDrop,
    Bool.and_eq_true] at ha
  exact ha.imp_right (.imp_right And.left)

/-- The end of a run that wrote a span of system memory. -/
theorem endRun {x : Span} (hx : ∀ a, x.has a = true → a < 2 ^ s.platform.paBits) : (s.endRun x).Inv := by
  unfold State.endRun
  refine State.Inv.rewritten ?_ x
  refine h.of_keepsRegisters rfl h.memory h.inRange (fun hr => by cases hr) (fun hc => ?_) (fun a ha => ?_) h.peers
  · obtain ⟨hu, hs⟩ := h.caches hc
    exact ⟨hu, (if_pos hc).trans hs⟩
  · have old := h.waiting a
    simp only at ha
    split_ifs at ha
    · exact old ha
    · rw [spansHave_cons, Bool.or_eq_true] at ha
      rcases ha with ha | (ha | ha) | ha
      · exact old (.inl ha)
      · exact hx a ha
      · exact old (.inr (.inl ha))
      · exact old (.inr (.inr ha))

theorem awaitSight {x : Span} (hx : ∀ a, x.has a = true → a < 2 ^ s.platform.paBits) : (s.awaitSight x).Inv := by
  refine h.of_keepsRegisters rfl h.memory h.inRange h.race h.caches (fun a ha => ?_) h.peers
  rw [State.awaitSight_unseen, spansHave_cons, Bool.or_eq_true] at ha
  rcases ha with ha | ha | ha | ha
  · exact h.waiting a (.inl ha)
  · exact h.waiting a (.inr (.inl ha))
  · exact hx a ha
  · exact h.waiting a (.inr (.inr ha))

/-- The error entry of a run that is not raced, or not begun (60_exceptions.md R236). -/
theorem enterError (hr : s.raced = false) {e : ErrCode} (he : e ≠ .none) (a : Addr) : (s.enterError e a).Inv :=
  { h with
    errCode := iff_of_false he (not_not_intro rfl)
    errAddr := fun hs => absurd rfl hs
    outLen  := fun _ => rfl
    armed   := fun hs => by cases hs
    race    := fun hc => absurd (hr.symm.trans hc) Bool.false_ne_true }

theorem enterDone (hr : s.raced = false) (hs : s.seq ≠ .error) (n : Word) : (s.enterDone n).Inv :=
  { h with
    errCode := iff_of_true (h.errCode.mpr hs) (fun hc => by cases hc)
    errAddr := fun _ => h.errAddr hs
    outLen  := fun hc => by cases hc
    armed   := fun hc => by cases hc
    race    := fun hc => absurd (hr.symm.trans hc) Bool.false_ne_true }

/-- START of a command that passes its checks (10_state.md R40). -/
theorem enterBusy (hs : s.seq ≠ .error) (ha : Startable s) (r : Bool) : (s.enterBusy r).Inv :=
  { h with
    errCode := iff_of_true (h.errCode.mpr hs) (fun hc => by cases hc)
    errAddr := fun _ => h.errAddr hs
    outLen  := fun hc => by cases hc
    armed   := fun _ => ha
    race    := fun _ => rfl }

/-- Outside BUSY nothing is raced. -/
theorem raced_eq_false (hs : s.seq ≠ .busy) : s.raced = false :=
  Bool.eq_false_iff.mpr fun hr => hs (h.race hr)

theorem enterIdle (hs : s.seq ≠ .busy) : s.enterIdle.Inv :=
  { h with
    errCode := iff_of_true rfl (fun hc => by cases hc)
    errAddr := fun _ => rfl
    outLen  := fun hc => by cases hc
    armed   := fun hc => by cases hc
    race    := fun hc => absurd ((h.raced_eq_false hs).symm.trans hc) Bool.false_ne_true }

/-! ## Commands and the engine's turn -/

/-- A BUSY engine's command ends in a state of the invariant. -/
theorem exec {i : Instr} {t : State} (hb : s.seq = .busy) (hc : startCheck i s = none) (he : exec i s = .next t) :
    t.Inv := by
  have hlen : 8 * (resultWords s (resultOf i s)).length = (regionD i s).size := by
    rw [resultWords_length]
    exact resultOf_words_length hc
  rcases exec_next he with ⟨e, hs, -⟩ | ⟨-, k, span, a, hk, hspan, rfl⟩ | ⟨-, rfl⟩
  · rw [hc] at hs; cases hs
  · refine enterError (endRun (h.withMem (storeWords_wf _ _ _ h.memory) (storeWords_regionD_below hc h.inRange ?_))
      fun b hx => ?_) rfl (by decide) a
    · rw [List.length_take]; omega
    · rcases hspan with rfl | rfl
      · simp [Span.has] at hx
      · exact regionD_has_lt hc hk hx
  · have hD : ∀ b, (regionD i s).has b = true → b < 2 ^ s.platform.paBits := fun b => regionD_has_lt hc le_rfl
    have hm := h.withMem (storeWords_wf _ _ _ h.memory) (storeWords_regionD_below hc h.inRange hlen.le)
    exact enterDone (awaitSight (hm.endRun hD) hD) rfl (by simp [hb]) _

theorem engineTurn {t : State} (he : engineTurn s = .next t) : t.Inv := by
  rcases engineTurn_next he with ⟨-, rfl⟩ | ⟨hb, ⟨e, hd⟩, -⟩ | ⟨hb, i, hi, hx⟩
  · exact h
  · exact absurd (h.armed hb) (not_startable_of_illegal hd)
  · obtain ⟨j, hj, hc⟩ := h.armed hb
    obtain rfl : i = j := Except.ok.inj (hi.symm.trans hj)
    exact h.exec hb hc hx

/-! ## Register writes -/

theorem writeCtrl (v : Word) : (s.writeCtrl v).Inv := by
  have idle : s.seq = .done ∨ s.seq = .error → s.enterIdle.Inv := fun hs =>
    h.enterIdle (by rcases hs with hs | hs <;> simp [hs])
  rcases writeCtrl_cases s v with e | ⟨-, -, hs, e⟩ | ⟨-, u, hu, hc⟩
  · rw [e]; exact h
  · rw [e]; exact idle hs
  · obtain ⟨hU, hn, hq⟩ : u.Inv ∧ (u.seq ≠ .busy ∧ u.seq ≠ .error) ∧ (Startable s → Startable u) := by
      rcases hu with ⟨rfl, hs⟩ | ⟨rfl, -, hs⟩
      · exact ⟨h, by rcases hs with hs | hs <;> simp [hs], id⟩
      · exact ⟨idle hs, by simp, id⟩
    have hr := hU.raced_eq_false hn.1
    rcases hc with ⟨e, -, he⟩ | ⟨i, e, -, hf, he⟩ | ⟨i, hi, hf, he⟩ <;> rw [he]
    · exact hU.enterError hr (by decide) 0
    · exact hU.enterError hr (startCheck_code hf) _
    · exact hU.enterBusy hn.2 (hq ⟨i, hi, hf⟩) _

theorem writeReg (off : Nat) (v : Word) : (writeReg s off v).Inv := by
  rcases writeReg_cases s off v with ⟨-, e⟩ | ⟨-, e⟩ | ⟨-, e⟩ | ⟨-, -, e⟩ | ⟨-, hb, e⟩ <;> rw [e]
  · exact h.writeCtrl v
  · exact { h with }
  · exact { h with }
  · exact h
  · rw [writeArg_frame]
    exact { h with armed := fun hs => absurd hs hb }

/-! ## The host, the reset input and the other engines -/

/-- A store of n bytes in system memory, marked as a race where it hits the running command, after which no bytes wait
but its own and some that waited before. -/
theorem store {a n v : Nat} {rest : List HostEvent} {uc st : List Span} (ha : a + n ≤ 2 ^ s.platform.paBits)
    (hc : s.platform.ioCoherent = true → uc = [] ∧ st = [])
    (hw : ∀ b, spansHave uc b = true ∨ spansHave st b = true →
      spansHave s.unclean b = true ∨ spansHave s.stale b = true ∨ (⟨a, n⟩ : Span).has b = true) :
    (State.rewritten { s with
      script := rest, mem := memWriteBytes s.mem a n v, raced := s.raced || s.hitsRunning ⟨a, n⟩,
      unclean := uc, stale := st } ⟨a, n⟩).Inv := by
  refine State.Inv.rewritten ?_ _
  refine h.of_keepsRegisters rfl (memWriteBytes_wf n _ _ _ h.memory) (memWriteBytes_below n _ _ _ h.inRange ha)
    (fun hr => ?_) hc (fun b hb => ?_) h.peers
  · exact (Bool.or_eq_true _ _ ▸ hr).elim h.race hitsRunning_busy
  · have old := h.waiting b
    rcases or_assoc.mpr hb with hb | hb
    · rcases hw b hb with hb | hb | hb
      · exact old (.inl hb)
      · exact old (.inr (.inl hb))
      · exact (of_decide_eq_true hb).2.trans_le ha
    · exact old (.inr (.inr hb))

theorem hostStore {a : Nat} {w : Width} (ha : a + w.bytes ≤ 2 ^ s.platform.paBits) (v : BitVec 64)
    (rest : List HostEvent) : (hostStore { s with script := rest } a w v).Inv := by
  refine h.store ha (fun hc => ?_) (fun b hb => ?_)
  · obtain ⟨hu, hs⟩ := h.caches hc
    exact ⟨(if_pos hc).trans hu, by simp [hs, spansDrop]⟩
  · simp only [spansHave_spansDrop, Bool.and_eq_true] at hb
    rcases hb with hb | ⟨hb, -⟩
    · split_ifs at hb
      · exact .inl hb
      · rw [spansHave_cons, Bool.or_eq_true] at hb
        exact hb.elim (fun hb => .inr (.inr hb)) .inl
    · exact .inr (.inl hb)

theorem peerStore {a : Nat} (ha : a + 8 ≤ 2 ^ s.platform.paBits) (v : BitVec 64) (rest : List HostEvent) :
    (peerStore { s with script := rest } a v).Inv := by
  refine h.store ha (fun hc => ?_) (fun b hb => ?_)
  · obtain ⟨hu, hs⟩ := h.caches hc
    exact ⟨hu, (if_pos hc).trans hs⟩
  · rcases hb with hb | hb
    · exact .inl hb
    · split_ifs at hb
      · exact .inr (.inl hb)
      · rw [spansHave_cons, Bool.or_eq_true] at hb
        exact .inr hb.symm

/-- Cache maintenance frees bytes that were waiting, and leaves some of them waiting. -/
theorem maintenance {t : Site} {xs ys uc st : List Span} {rest : List HostEvent} {n : Nat}
    (hx : ∀ b, spansHave xs b = true → spansHave s.unclean b = true ∨ spansHave s.stale b = true)
    (hc : s.platform.ioCoherent = true → uc = [] ∧ st = [])
    (hu : ∀ b, spansHave uc b = true → spansHave s.unclean b = true)
    (hs : ∀ b, spansHave st b = true → spansHave s.stale b = true) :
    State.Inv { s with
      script := rest, mem := memFillSpans t xs s.mem, raced := s.raced || ys.any s.hitsRunning,
      unclean := uc, stale := st, draws := n } := by
  refine h.of_keepsRegisters rfl (memFillSpans_wf t xs _ h.memory) (memFillSpans_below t xs _ h.inRange fun b hb => ?_)
    (fun hr => ?_) hc (fun b hb => h.waiting b ?_) h.peers
  · exact h.waiting b ((hx b hb).imp_right .inl)
  · rcases (Bool.or_eq_true _ _ ▸ hr : _ ∨ _) with hr | hr
    · exact h.race hr
    · obtain ⟨y, -, hy⟩ := List.any_eq_true.mp hr
      exact hitsRunning_busy hy
  · exact hb.imp (hu b) (.imp_left (hs b))

theorem hostClean (x : Span) (rest : List HostEvent) : (hostClean { s with script := rest } x).Inv := by
  refine h.maintenance (fun b hb => ?_) (fun hc => ?_) (fun b hb => ?_) (fun b => id)
  · rw [spansHave_flatMap] at hb
    obtain ⟨y, -, hy⟩ := List.any_eq_true.mp hb
    rw [spansHave_spansInter, Bool.and_eq_true] at hy
    exact .inr hy.1
  · obtain ⟨hu, hs⟩ := h.caches hc
    exact ⟨by simp [hu, spansDrop], hs⟩
  · rw [spansHave_spansDrop, Bool.and_eq_true] at hb
    exact hb.1

theorem hostInvalidate (x : Span) (rest : List HostEvent) : (hostInvalidate { s with script := rest } x).Inv := by
  refine h.maintenance (fun b hb => ?_) (fun hc => ?_) (fun b hb => ?_) (fun b hb => ?_)
  · rw [spansHave_spansDropAll, spansHave_spansInter, Bool.and_eq_true, Bool.and_eq_true] at hb
    obtain ⟨⟨hu, -⟩, -⟩ := hb
    exact .inl hu
  · obtain ⟨hu, hs⟩ := h.caches hc
    exact ⟨by simp [hu, spansDrop], by simp [hs, spansDrop]⟩
  · rw [spansHave_spansDrop, Bool.and_eq_true] at hb
    exact hb.1
  · rw [spansHave_spansDrop, Bool.and_eq_true] at hb
    exact hb.1

/-- A running command passed its start checks. -/
theorem startCheck_running {i : Instr} (hr : s.running = some i) : startCheck i s = none := by
  obtain ⟨hb, hd⟩ := running_some hr
  obtain ⟨j, hj, hc⟩ := h.armed hb
  rwa [Except.ok.inj (hd.symm.trans hj)]

/-- The reset input writes at most region D of the running command (70_reset_and_hazards.md R261). -/
theorem hwReset : s.hwReset.Inv := by
  obtain ⟨m, stale, unseen, peers, n, e, hm, hc, hs, hu, hp⟩ := hwReset_eq s
  have hD : ∀ i, s.running = some i → ∀ b, (regionD i s).has b = true → b < 2 ^ s.platform.paBits := fun i hr b =>
    regionD_has_lt (h.startCheck_running hr) le_rfl
  have hmem : m.wf = true ∧ memBelow (2 ^ s.platform.paBits) m := by
    rcases hm with rfl | ⟨i, hr, rfl⟩
    · exact ⟨h.memory, h.inRange⟩
    · exact ⟨memFillSpans_wf _ [regionD i s] _ h.memory,
        memFillSpans_below _ [regionD i s] _ h.inRange fun b hb => hD i hr b (by simpa using hb)⟩
  rw [e]
  refine { resetOn_inv h.platform with
    memory := hmem.1, inRange := hmem.2, peers := hp _ h.peers, caches := fun hi => ?_, waiting := fun b hb => ?_ }
  · rw [hc hi]
    exact h.caches hi
  · rcases hb with hb | hb | hb
    · exact h.waiting b (.inl hb)
    · rcases hs b hb with hb | ⟨i, hr, hb⟩
      · exact h.waiting b (.inr (.inl hb))
      · exact hD i hr b hb
    · exact h.waiting b (.inr (.inr (hu b hb)))

end State.Inv

/-! ## The obligation -/

/-- An access of system memory lies below its top (20_memory.md R60). -/
theorem targetOf_memory {p : Platform} {a n : Nat} (h : targetOf p a n = .memory) : a + n ≤ 2 ^ p.paBits := by
  unfold targetOf at h
  split_ifs at h with _ _ ht
  exact Nat.le_of_not_lt ht

/-- Settles O20, step by step over everything a step can do. -/
theorem stepKeepsInvariant : Obligations.StepKeepsInvariant := by
  intro s t h hn
  have turn : ∀ rest, State.Inv { s with script := rest } := fun rest => h.hostSide (.inl rfl) rest s.hostData s.draws
  rcases step_next hn with ⟨rest, hd, u, hu, -, he⟩ | ⟨rest, off, v, -, rfl⟩ | ⟨rest, hd, u, n, hu, rfl⟩ |
    ⟨rest, a, w, v, ha, rfl⟩ | ⟨rest, x, rfl⟩ | ⟨rest, x, rfl⟩ | ⟨rest, -, rfl⟩ | ⟨rest, a, v, ha, rfl⟩ |
    ⟨rest, r, ps, hr, hp, rfl⟩
  · exact (h.hostSide hu rest hd s.draws).engineTurn he
  · exact (turn rest).writeReg off v
  · exact h.hostSide hu rest hd n
  · exact h.hostStore (targetOf_memory ha) v rest
  · exact h.hostClean x rest
  · exact h.hostInvalidate x rest
  · exact (turn rest).hwReset
  · exact h.peerStore ha v rest
  · exact h.of_keepsRegisters rfl h.memory h.inRange (fun hc => (hr hc).elim h.race id) h.caches h.waiting (hp h.peers)

end Sys2Proof.Machine
end

section
/-!
PROOFS. Completion of the nine commands (41_transforms.md R172, 42_convolution.md R200): a runnable command that no
write races leaves its result word for word, the result of each is what its rule says, and it depends on the operands
alone.
-/

namespace Sys2Proof.Machine

/-! ## Completion -/

/-- A command that no write has raced writes its result (20_memory.md R75). -/
theorem resultWords_of_not_raced {s : State} (h : s.raced = false) (r : Operand) : resultWords s r = r.words := by
  simp [resultWords, h]

/-- Every word of region D after a run that is not raced is the result's. -/
theorem doneWith_word {i : Instr} {s : State} (hm : s.mem.wf = true) (hr : s.raced = false) {r : Operand} {k : Nat}
    (hk : k < r.words.length) :
    memReadBytes (doneWith i s r).mem ((regionD i s).base + 8 * k) 8 = (r.words[k]).toNat := by
  rw [doneWith_mem, resultWords_of_not_raced hr]
  exact memReadBytes_storeWords _ _ _ _ hk hm

/-- A runnable command that is not raced completes with its result, OUT_LEN being the result's length
(10_state.md R28). -/
theorem Runnable.completesWith {i : Instr} {s : State} (hR : Runnable i s) (hm : s.mem.wf = true)
    (hr : s.raced = false) : CompletesWith i s (BitVec.ofNat 32 (outLength i s.lenN s.lenM)) (resultOf i s) :=
  ⟨_, exec_runnable hR, rfl, rfl, rfl, rfl, resultOf_words_length hR.checks, fun _ => doneWith_word hm hr⟩

/-- The commands whose result is as long as operand A. -/
theorem Runnable.completesWith_lenA {i : Instr} {s : State} (hR : Runnable i s) (hm : s.mem.wf = true)
    (hr : s.raced = false) (hn : outLength i s.lenN s.lenM = s.lenN) : CompletesWith i s s.lenA (resultOf i s) := by
  have := hR.completesWith hm hr
  rwa [hn, State.lenN, BitVec.ofNat_toNat, BitVec.setWidth_eq] at this

/-! ## The transforms -/

/-- Settles O57: the result of a forward transform is XFORM of operand A by definition. -/
theorem forwardTransformsComplete : Obligations.ForwardTransformsComplete := fun _ _ hm hr =>
  ⟨fun hR => hR.completesWith_lenA hm hr rfl, fun hR => hR.completesWith_lenA hm hr rfl,
    fun hR => hR.completesWith_lenA hm hr rfl⟩

/-- Settles O58: so is that of an inverse transform, before HERM. -/
theorem inverseTransformsComplete : Obligations.InverseTransformsComplete := fun _ _ _ hm hr =>
  ⟨fun hR => hR.completesWith_lenA hm hr rfl, fun hR => hR.completesWith_lenA hm hr rfl,
    fun hR => hR.completesWith_lenA hm hr rfl⟩

/-! ## The convolutions -/

/-- The output is real exactly where both operands are (42_convolution.md R201). -/
theorem convResult_operands (i : Instr) (s : State) (r : List C64) :
    convResult (operandA i s) (operandB i s) r =
      if i.fmtA = .real ∧ i.fmtB = .real then .real (r.map fun z => z.re) else .complex r := by
  unfold operandA operandB
  cases i.fmtA <;> cases i.fmtB <;> rfl

/-- With one operand empty, both regions of CONV are (20_memory.md R64), and its result is (42_convolution.md R203). -/
theorem convLinear_empty {fa fb : Fmt} {s : State} (h : s.lenN = 0 ∨ s.lenM = 0) (t : Site) :
    convLinear t (operandA (.conv fa fb) s) (operandB (.conv fa fb) s) =
      convResult (operandA (.conv fa fb) s) (operandB (.conv fa fb) s) [] := by
  have hA : (operandA (.conv fa fb) s).length = 0 :=
    operandOf_length _ _ 0 (by simp [regionA, regionSizes, h])
  rw [convLinear, if_pos (.inl hA)]

/-- The steps of a linear convolution of operands that are not empty (42_convolution.md R202). -/
theorem convLinear_steps (t : Site) {a b : Operand} (ha : a.length ≠ 0) (hb : b.length ≠ 0) :
    ∃ (u v w : Site) (Q r : List C64), convLinear t a b = convResult a b r ∧
      IsProduct (xform u (a.pad (nextPow2 (a.length + b.length - 1))) .forward .auto)
        (xform v (b.pad (nextPow2 (a.length + b.length - 1))) .forward .auto) Q ∧
      IsQuotient (xform w (.complex Q) .inverse .auto) r (a.length + b.length - 1)
        (nextPow2 (a.length + b.length - 1)) := by
  have hle := le_nextPow2 (a.length + b.length - 1)
  refine ⟨0 :: t, 1 :: t, 3 :: t, _, _, by rw [convLinear, if_neg (by simp [ha, hb])],
    pmul_isProduct (2 :: t) _ _ ?_, divAll_isQuotient (4 :: t) _ _ _ ?_⟩
  · simp only [xform_auto_length, Operand.pad_length]
    omega
  · simp only [xform_auto_length, Operand.pad_length, Operand.length_complex, pmul_length]
    omega

/-- The steps of a negacyclic convolution of operands of one length (42_convolution.md R208). -/
theorem convNegacyclic_steps (t : Site) {a b : Operand} (h : b.length = a.length) :
    ∃ ta tb c r, convNegacyclic t a b = convResult a b r ∧
      IsProduct a.toComplex (twists a.length) ta ∧ IsProduct b.toComplex (twists a.length) tb ∧
      IsCircular (.complex ta) (.complex tb) c ∧ IsProduct c ((twists a.length).map cconj) r := by
  have hc : (Operand.complex (pmul (1 :: t) b.toComplex (twists a.length))).length =
      (Operand.complex (pmul (0 :: t) a.toComplex (twists a.length))).length := by simp [h]
  refine ⟨_, _, _, _, rfl, pmul_isProduct (0 :: t) _ _ (by simp), pmul_isProduct (1 :: t) _ _ (by simp [h]),
    circular_isCircular (2 :: t) _ _ hc, pmul_isProduct (3 :: t) _ _ ?_⟩
  rw [circular_length _ _ _ hc]
  simp

/-- Settles O59: each convolution's result is its rule's steps, in the output format. -/
theorem convolutionsComplete : Obligations.ConvolutionsComplete := by
  intro fa fb s hm hr
  refine ⟨fun hR => ⟨fun h0 => ?_, fun hN hM => ?_⟩, fun hR => ?_, fun hR => ?_⟩
  · have hc := hR.completesWith hm hr
    rwa [outLength, if_pos h0, resultOf, commandResult, convLinear_empty h0, convResult_operands] at hc
  · have h0 : ¬ (s.lenN = 0 ∨ s.lenM = 0) := by simp [hN, hM]
    have hA : (operandA (.conv fa fb) s).length = s.lenN := operandA_length _ s (by simp [regionSizes, h0, Instr.fmtA])
    have hB : (operandB (.conv fa fb) s).length = s.lenM :=
      operandB_length _ s _ (by simp [regionSizes, h0, Instr.fmtB])
    obtain ⟨u, v, w, Q, r, e, hQ, hr'⟩ := convLinear_steps [s.draws] (hA.trans_ne hN) (hB.trans_ne hM)
    have hc := hR.completesWith hm hr
    rw [outLength, if_neg h0, resultOf, commandResult, e, convResult_operands] at hc
    rw [hA, hB] at hQ hr'
    exact ⟨hA, hB, u, v, w, Q, r, hc, hQ, hr'⟩
  · have hA : (operandA (.cconv fa fb) s).length = s.lenN := operandA_length _ s rfl
    have hB : (operandB (.cconv fa fb) s).length = s.lenN := operandB_length _ s _ rfl
    have hc := hR.completesWith_lenA hm hr rfl
    rw [resultOf, commandResult, convCircular, convResult_operands] at hc
    exact ⟨hA, hB, _, hc, circular_isCircular _ _ _ (hB.trans hA.symm)⟩
  · have hA : (operandA (.nconv fa fb) s).length = s.lenN := operandA_length _ s rfl
    have hB : (operandB (.nconv fa fb) s).length = s.lenN := operandB_length _ s _ rfl
    obtain ⟨ta, tb, c, r, e, hta, htb, hc', hr'⟩ := convNegacyclic_steps [s.draws] (hB.trans hA.symm)
    have hc := hR.completesWith_lenA hm hr rfl
    rw [resultOf, commandResult, e, convResult_operands] at hc
    rw [hA] at hta htb hr'
    exact ⟨hA, hB, ta, tb, c, r, hc, hta, htb, hc', hr'⟩

/-! ## The result is a function of the operands -/

/-- The size of region D depends on the lengths alone (20_memory.md R64). -/
theorem regionD_size_congr (i : Instr) {s1 s2 : State} (hA : s1.lenA = s2.lenA) (hB : s1.lenB = s2.lenB) :
    (regionD i s1).size = (regionD i s2).size := by
  simp only [regionD, State.lenN, State.lenM, hA, hB]

/-- The result depends on the operands alone but for NaN bits, which depend on the number of the run's set of draws as
well (40_datapath.md R121). -/
theorem resultOf_same {i : Instr} {s1 s2 : State} (hA : operandA i s1 = operandA i s2)
    (hB : operandB i s1 = operandB i s2) :
    List.Forall₂ SameButNaN (resultOf i s1).words (resultOf i s2).words ∧
      (s1.draws = s2.draws → resultOf i s1 = resultOf i s2) := by
  unfold resultOf
  rw [hA, hB]
  exact ⟨commandResult_same i _ _ _ _, fun hd => by rw [hd]⟩

/-- The word that reads back from region D after a run that is not raced. -/
theorem doneWith_readWord {i : Instr} {s : State} (hm : s.mem.wf = true) (hr : s.raced = false) {r : Operand} {k : Nat}
    (hk : k < r.words.length) :
    (BitVec.ofNat 64 (memReadBytes (doneWith i s r).mem ((regionD i s).base + 8 * k) 8) : F64) = r.words[k] := by
  rw [doneWith_word hm hr hk, BitVec.ofNat_toNat, BitVec.setWidth_eq]

/-- Settles O31: both runs reach DONE with their results in region D, and the results are the same. -/
theorem resultIsPure : Obligations.ResultIsPure := by
  intro i s1 s2 t1 t2 hm1 hm2 hr1 hr2 hA hB hoA hoB he1 he2 hd1 hd2
  obtain ⟨hR1, rfl⟩ := exec_done he1 hd1
  obtain ⟨hR2, rfl⟩ := exec_done he2 hd2
  obtain ⟨hsame, heq⟩ := resultOf_same hoA hoB
  have hl1 := resultOf_words_length hR1.checks
  have hl2 := resultOf_words_length hR2.checks
  have hsize := regionD_size_congr i hA hB
  refine ⟨by simp only [doneWith_outLen, State.lenN, State.lenM, hA, hB], hsize, fun k hk => ?_⟩
  have hk1 : k < (resultOf i s1).words.length := by omega
  have hk2 : k < (resultOf i s2).words.length := by omega
  simp only [doneWith_readWord hm1 hr1 hk1, doneWith_readWord hm2 hr2 hk2]
  exact ⟨hsame.get hk1 hk2, fun hd => by simp only [heq hd]⟩

end Sys2Proof.Machine
end

section
/-!
PROOFS. The register window (10_state.md R20-R42): what a write stores and what a read returns, offset by offset.
-/

namespace Sys2Proof.Machine

/-! ## Two-bit registers read in a word -/

/-- A field below thirty bits of 0 is the field extended to a word. -/
theorem zeros_append (x : BitVec 2) : (0#30 ++ x : Word) = x.setWidth 32 :=
  (BitVec.setWidth_eq_append (by omega)).symm

theorem readReg_irqEn (s : State) : readReg s 0x040 = s.irqEn.setWidth 32 := zeros_append s.irqEn

theorem readReg_irqStat (s : State) : readReg s 0x044 = s.irqStat.setWidth 32 := zeros_append s.irqStat

/-- Storing bits 1:0 of a word and reading them back masks it (10_state.md R30). -/
theorem setWidth_lowBits (v : Word) : (v.extractLsb' 0 2).setWidth 32 = v &&& 3 := by
  have h : (v &&& 3).toNat = v.toNat % 4 := (BitVec.toNat_and ..).trans (Nat.and_two_pow_sub_one_eq_mod v.toNat 2)
  apply BitVec.eq_of_toNat_eq
  rw [h, BitVec.toNat_setWidth, BitVec.extractLsb'_toNat, Nat.shiftRight_zero]
  omega

/-- Write 1 to clear, seen in the word (10_state.md R31). -/
theorem setWidth_clearPending (p : BitVec 2) (v : Word) :
    (clearPending p v).setWidth 32 = p.setWidth 32 &&& ~~~ v := by
  apply BitVec.eq_of_getLsbD_eq
  intro i hi
  by_cases h2 : i < 2
  · simp [clearPending, hi, h2]
  · simp [clearPending, hi, BitVec.getLsbD_of_ge p i (not_lt.mp h2)]

/-- Settles O11: IRQ_EN holds the two bits, in every STATE. -/
theorem interruptEnableWrite : Obligations.InterruptEnableWrite := fun _ v =>
  ⟨(readReg_irqEn _).trans (setWidth_lowBits v), rfl⟩

/-- A source is pending and enabled exactly where the two words share a set bit (10_state.md R45). -/
theorem pending_and_enabled (p e : BitVec 2) :
    ((p.getLsbD 0 && e.getLsbD 0) || (p.getLsbD 1 && e.getLsbD 1)) = true ↔
      (p.setWidth 32 &&& e.setWidth 32 : Word) ≠ 0 := by
  revert p e
  decide

/-- Settles O13, by the two bits of each register. -/
theorem interruptLevel : Obligations.InterruptLevel := fun s => by
  rw [readReg_irqEn, readReg_irqStat]
  exact pending_and_enabled s.irqStat s.irqEn

/-! ## The argument registers -/

section
variable (s : State) (off : Nat) (v : Word)

@[simp] theorem writeArg_cmd : (writeArg s off v).cmd = if off = 0x018 then v else s.cmd := by
  unfold writeArg; split <;> simp_all
@[simp] theorem writeArg_lenA : (writeArg s off v).lenA = if off = 0x01C then v else s.lenA := by
  unfold writeArg; split <;> simp_all
@[simp] theorem writeArg_lenB : (writeArg s off v).lenB = if off = 0x020 then v else s.lenB := by
  unfold writeArg; split <;> simp_all
@[simp] theorem writeArg_srcALo : (writeArg s off v).srcALo = if off = 0x028 then v else s.srcALo := by
  unfold writeArg; split <;> simp_all
@[simp] theorem writeArg_srcAHi : (writeArg s off v).srcAHi = if off = 0x02C then v else s.srcAHi := by
  unfold writeArg; split <;> simp_all
@[simp] theorem writeArg_srcBLo : (writeArg s off v).srcBLo = if off = 0x030 then v else s.srcBLo := by
  unfold writeArg; split <;> simp_all
@[simp] theorem writeArg_srcBHi : (writeArg s off v).srcBHi = if off = 0x034 then v else s.srcBHi := by
  unfold writeArg; split <;> simp_all
@[simp] theorem writeArg_dstLo : (writeArg s off v).dstLo = if off = 0x038 then v else s.dstLo := by
  unfold writeArg; split <;> simp_all
@[simp] theorem writeArg_dstHi : (writeArg s off v).dstHi = if off = 0x03C then v else s.dstHi := by
  unfold writeArg; split <;> simp_all

end

/-- The offsets of the registers that hold a command's arguments (10_state.md R26, R27, R29). -/
def argumentOffsets : List Nat := [0x018, 0x01C, 0x020, 0x028, 0x02C, 0x030, 0x034, 0x038, 0x03C]

theorem writeArg_of_notMem {off : Nat} (h : off ∉ argumentOffsets) (s : State) (v : Word) : writeArg s off v = s := by
  unfold writeArg
  split
  case h_10 => rfl
  all_goals exact absurd (by decide) h

theorem readReg_writeArg_same {off : Nat} (h : off ∈ argumentOffsets) (s : State) (v : Word) :
    readReg (writeArg s off v) off = v := by
  simp only [argumentOffsets, List.mem_cons, List.not_mem_nil, or_false] at h
  rcases h with rfl | rfl | rfl | rfl | rfl | rfl | rfl | rfl | rfl <;> rfl

theorem readReg_writeArg_ne {off off' : Nat} (h : off' ≠ off) (s : State) (v : Word) :
    readReg (writeArg s off v) off' = readReg s off' := by
  rw [writeArg_frame]
  unfold readReg
  split <;> simp [h.symm, State.statusWord]

/-- Outside CTRL, IRQ_EN and IRQ_STAT a write stores an argument, and nothing while BUSY (10_state.md R35). -/
theorem writeReg_argument {off : Nat} (h1 : off ≠ 0x010) (h2 : off ≠ 0x040) (h3 : off ≠ 0x044) (s : State) (v : Word) :
    writeReg s off v = if s.seq = .busy then s else writeArg s off v := by
  rcases writeReg_cases s off v with ⟨h, -⟩ | ⟨h, -⟩ | ⟨h, -⟩ | ⟨-, hb, e⟩ | ⟨-, hb, e⟩
  · exact absurd h h1
  · exact absurd h h2
  · exact absurd h h3
  · rw [e, if_pos hb]
  · rw [e, if_neg hb]

/-- A register pair as a number (10_state.md R29). -/
theorem toNat_pair (hi lo : Word) : (hi ++ lo).toNat = hi.toNat * 2 ^ 32 + lo.toNat := by
  rw [BitVec.toNat_append, ← Nat.shiftLeft_add_eq_or_of_lt lo.isLt, Nat.shiftLeft_eq]

/-- An address with a half written anew, the low one at offset l or the high one at offset h. -/
theorem toNat_pair_write (hi lo v : Word) {off l h : Nat} (hne : l ≠ h) :
    ((if off = h then v else hi) ++ (if off = l then v else lo)).toNat =
      if off = l then (hi ++ lo).toNat / 2 ^ 32 * 2 ^ 32 + v.toNat
      else if off = h then v.toNat * 2 ^ 32 + (hi ++ lo).toNat % 2 ^ 32 else (hi ++ lo).toNat := by
  have hlo := lo.isLt
  simp only [toNat_pair]
  split_ifs <;> omega

/-- Settles O9: outside BUSY the write is `writeArg`, whose nine fields are known. -/
theorem argumentRegistersStore : Obligations.ArgumentRegistersStore := by
  intro s off v hb hoff
  have hne : off ≠ 0x010 ∧ off ≠ 0x040 ∧ off ≠ 0x044 := by
    refine ⟨?_, ?_, ?_⟩ <;> rintro rfl <;> exact absurd hoff (by decide)
  obtain ⟨h1, h2, h3⟩ := hne
  simp only [writeReg_argument h1 h2 h3, if_neg hb]
  refine ⟨readReg_writeArg_same hoff s v, fun off' h => readReg_writeArg_ne h s v, by rw [writeArg_frame],
    writeArg_cmd .., ?_, ?_, ?_, ?_, ?_⟩
  · rw [State.lenN, writeArg_lenA, apply_ite BitVec.toNat]; rfl
  · rw [State.lenM, writeArg_lenB, apply_ite BitVec.toNat]; rfl
  · rw [State.srcA, writeArg_srcAHi, writeArg_srcALo, toNat_pair_write _ _ _ (by decide)]; rfl
  · rw [State.srcB, writeArg_srcBHi, writeArg_srcBLo, toNat_pair_write _ _ _ (by decide)]; rfl
  · rw [State.dst, writeArg_dstHi, writeArg_dstLo, toNat_pair_write _ _ _ (by decide)]; rfl

/-! ## Read-only and reserved offsets -/

/-- A write outside CTRL, IRQ_EN, IRQ_STAT and the arguments is ignored (10_state.md R33, R34). -/
theorem writeReg_ignored {off : Nat} (h : off ∉ 0x010 :: 0x040 :: 0x044 :: argumentOffsets) (s : State) (v : Word) :
    writeReg s off v = s := by
  simp only [List.mem_cons, not_or] at h
  obtain ⟨h1, h2, h3, ha⟩ := h
  rw [writeReg_argument h1 h2 h3, writeArg_of_notMem ha, ite_self]

/-- No register stands at 0x00C or from 0x050 up (10_state.md R33). -/
theorem readReg_reserved {off : Nat} (h : off = 0x00C ∨ 0x050 ≤ off) (s : State) : readReg s off = 0 := by
  unfold readReg
  split
  case h_19 => rfl
  all_goals omega

/-- A register access lies in the window, at its offset (10_state.md R20). -/
theorem targetOf_register_off {p : Platform} {a n off : Nat} (h : targetOf p a n = .register off) :
    n = 4 ∧ off < 0x100 ∧ a = p.mmioBase + off := by
  unfold targetOf at h
  split_ifs at h with ho hw
  cases h
  simp only [Span.overlaps, decide_eq_true_eq] at ho
  omega

/-- A read of a register returns its value, and may show the host DONE (10_state.md R37, 70_reset_and_hazards.md
R269). -/
theorem step_read_register {s : State} {a off : Nat} {w : Width} (rest : List HostEvent)
    (h : targetOf s.platform a w.bytes = .register off) :
    step { s with script := .read a w :: rest } =
      .next { s.observe (s.showsDone off) with script := rest, hostData := (readReg s off).setWidth 64 } := by
  show hostRead { s with script := rest } a w = _
  simp only [hostRead, h, readReg_script]
  rfl

/-- Reads of STATUS and IRQ_STAT alone show DONE (70_reset_and_hazards.md R269). -/
theorem showsDone_other {off : Nat} (h1 : off ≠ 0x014) (h2 : off ≠ 0x044) (s : State) : s.showsDone off = false := by
  simp [State.showsDone, h1, h2]

/-- Settles O10, offset by offset. -/
theorem readOnlyAndReservedOffsets : Obligations.ReadOnlyAndReservedOffsets := by
  refine ⟨fun s => ⟨rfl, rfl, rfl, ?_, ?_⟩, fun s off v h => writeReg_ignored ?_ s v,
    fun s off h => readReg_reserved h s, fun s off a w rest h1 h2 ht => ?_, fun p a off h => (targetOf_register_off h).2⟩
  · exact BitVec.extractLsb'_append_eq_right
  · exact BitVec.extractLsb'_append_eq_left
  · rcases h with h | rfl | h
    · simp only [List.mem_cons, List.not_mem_nil, or_false] at h
      rcases h with rfl | rfl | rfl | rfl | rfl | rfl | rfl <;> decide
    · decide
    · simp only [argumentOffsets, List.mem_cons, List.not_mem_nil, or_false]
      omega
  · rw [step_read_register rest ht, showsDone_other h1 h2]
    rfl

/-! ## STATUS -/

/-- The fields of STATUS (10_state.md R25). -/
theorem statusWord_fields (s : State) :
    s.statusWord.extractLsb' 0 2 = s.seq.bits ∧ s.statusWord.extractLsb' 2 6 = 0 ∧
      s.statusWord.extractLsb' 8 8 = s.err.bits ∧ s.statusWord.extractLsb' 16 16 = 0 := by
  unfold State.statusWord
  refine ⟨?_, ?_, ?_, ?_⟩
  · rw [BitVec.extractLsb'_append_eq_right]
  · rw [BitVec.extractLsb'_append_eq_of_le (by omega), BitVec.extractLsb'_append_eq_of_add_le (by omega)]
    exact BitVec.extractLsb'_eq_self
  · rw [BitVec.extractLsb'_append_eq_of_le (by omega), BitVec.extractLsb'_append_eq_of_le (by omega),
      BitVec.extractLsb'_append_eq_of_add_le (by omega)]
    exact BitVec.extractLsb'_eq_self
  · rw [BitVec.extractLsb'_append_eq_of_le (by omega), BitVec.extractLsb'_append_eq_of_le (by omega),
      BitVec.extractLsb'_append_eq_of_le (by omega)]
    exact BitVec.extractLsb'_eq_self

/-- The code 0 is that of no error (60_exceptions.md R231). -/
theorem errCode_bits_eq_zero (e : ErrCode) : e.bits = 0 ↔ e = .none := by cases e <;> decide

/-- Settles O8: the fields one by one, the invariant's clause on ERRCODE, a write and a read. -/
theorem statusFields : Obligations.StatusFields := by
  intro s
  obtain ⟨hseq, hlow, herr, hhigh⟩ := statusWord_fields s
  refine ⟨hseq.trans ?_, hlow, herr.trans ?_, hhigh, fun h => ?_, writeReg_ignored (by decide) s, fun a w rest ht => ?_⟩
  · cases s.seq <;> rfl
  · cases s.err <;> rfl
  · exact (iff_of_eq (congrArg (· = 0) herr)).trans ((errCode_bits_eq_zero s.err).trans h.errCode)
  · exact ⟨_, step_read_register rest ht⟩

/-! ## Reset -/

/-- The reset column of the register map (10_state.md R20). -/
theorem readReg_resetOn (p : Platform) (off : Nat) (h0 : off ≠ 0x000) (h4 : off ≠ 0x004) (h8 : off ≠ 0x008) :
    readReg (State.resetOn p) off = 0 := by
  unfold readReg
  split <;> simp_all [State.statusWord, Seq.bits, ErrCode.bits]

/-- After reset, whatever memory and the host's side hold, the registers are those of `State.resetOn`. -/
theorem hwReset_keepsRegisters (s : State) : KeepsRegisters (State.resetOn s.platform) s.hwReset := by
  obtain ⟨m, stale, unseen, peers, n, e, -⟩ := hwReset_eq s
  rw [e]
  rfl

/-- A register read sees the registers and the platform alone. -/
theorem KeepsRegisters.readReg {s t : State} (h : KeepsRegisters s t) (off : Nat) : readReg t off = readReg s off := by
  rw [h]
  unfold Machine.readReg
  split <;> rfl

/-- Settles O6: both kinds of reset give the registers of `State.resetOn`. -/
theorem resetColumn : Obligations.ResetColumn := by
  intro t h
  obtain ⟨p, hk⟩ : ∃ p, KeepsRegisters (State.resetOn p) t := by
    rcases h with rfl | ⟨s, rfl⟩
    · exact ⟨_, rfl⟩
    · exact ⟨_, hwReset_keepsRegisters s⟩
  refine ⟨rfl, rfl, ?_, fun off h0 h4 h8 => (hk.readReg off).trans (readReg_resetOn p off h0 h4 h8), ?_, hk.seq, hk.err⟩
  · exact (BitVec.setWidth_eq_append (by omega)).symm
  · simp [State.irq, State.doneIp, State.errIp, hk.irqStat]

/-! ## CTRL -/

theorem writeReg_ctrl (s : State) (v : Word) : writeReg s 0x010 v = s.writeCtrl v := rfl

theorem start_ignored {s : State} (h : s.seq = .busy ∨ s.seq = .error) : s.start = s := by
  rcases h with h | h <;> simp only [State.start, h]

theorem clear_ignored {s : State} (h : s.seq = .idle ∨ s.seq = .busy) : s.clear = s := by
  rcases h with h | h <;> simp only [State.clear, h]

theorem clear_taken {s : State} (h : s.seq = .done ∨ s.seq = .error) : s.clear = s.enterIdle := by
  rcases h with h | h <;> simp only [State.clear, h]

/-- BUSY ignores CTRL (10_state.md R40, R41). -/
theorem writeCtrl_busy {s : State} (h : s.seq = .busy) (v : Word) : s.writeCtrl v = s := by
  simp [State.writeCtrl, clear_ignored (.inr h), start_ignored (.inl h)]

theorem start_illegal {s : State} {e : DecodeError} (hs : s.seq = .idle ∨ s.seq = .done)
    (hd : decode s.cmd = .error e) : s.start = s.enterError .illegalCmd 0 := by
  rcases hs with hs | hs <;> simp only [State.start, hs, hd]

theorem start_failed {s : State} {i : Instr} {e : StartError} (hs : s.seq = .idle ∨ s.seq = .done)
    (hd : decode s.cmd = .ok i) (hc : startCheck i s = some e) : s.start = s.enterError e.code e.addr := by
  rcases hs with hs | hs <;> simp only [State.start, hs, hd, hc]

/-- Settles O16: START alone, by STATE and by the start checks. -/
theorem startRule : Obligations.StartRule := by
  intro s v h0 h1
  have e : writeReg s 0x010 v = s.start := by
    simp only [writeReg_ctrl, State.writeCtrl, h0, h1, Bool.false_eq_true, if_false, if_true]
  rw [e]
  exact ⟨start_ignored, fun hs => ⟨fun _ => start_illegal hs, fun _ _ => start_failed hs, fun _ => start_accepted hs⟩⟩

/-- Settles O17: CLEAR alone, by STATE, and before START. -/
theorem clearRule : Obligations.ClearRule := by
  intro s v h1
  refine ⟨fun h0 => ?_, fun h0 => ⟨fun _ => ?_, fun hb => writeCtrl_busy hb v⟩⟩
  · have e : writeReg s 0x010 v = s.clear := by
      simp only [writeReg_ctrl, State.writeCtrl, h0, h1, Bool.false_eq_true, if_false, if_true]
    rw [e]
    exact ⟨clear_taken, clear_ignored⟩
  · simp [writeReg_ctrl, State.writeCtrl, h0, h1]

end Sys2Proof.Machine
end

section
/-!
PROOFS. What a step keeps and sets of the registers (10_state.md R31, R35, R36, R243), host accesses of the window
(R38), the engine's turn (R39), and the bound on OUT_LEN (R28).
-/

namespace Sys2Proof.Machine

/-! ## The pending bits -/

/-- A STATE reached from another one: DONE comes with DONE_IP, ERROR with ERR_IP, and the other bit stays
(10_state.md R31, 60_exceptions.md R243). -/
def PendingAgrees (s t : State) : Prop :=
  t.seq = s.seq ∨ t.seq = .idle ∨ t.seq = .busy ∨ (t.seq = .done ∧ t.irqStat = s.irqStat ||| 1) ∨
    (t.seq = .error ∧ t.irqStat = s.irqStat ||| 2)

theorem engineTurn_pending {s t : State} (h : engineTurn s = .next t) : PendingAgrees s t := by
  have error : t.seq = .error ∧ t.irqStat = s.irqStat ||| 2 → PendingAgrees s t := fun h => .inr (.inr (.inr (.inr h)))
  rcases engineTurn_next h with ⟨-, rfl⟩ | ⟨-, -, rfl⟩ | ⟨-, i, -, hx⟩
  · exact .inl rfl
  · exact error ⟨rfl, rfl⟩
  · rcases exec_ends hx with ⟨e, -, rfl⟩ | ⟨-, rfl⟩ | ⟨hs, hi, -⟩
    · exact error ⟨rfl, rfl⟩
    · exact .inr (.inr (.inr (.inl ⟨rfl, rfl⟩)))
    · exact error ⟨hs, hi⟩

theorem writeReg_pending (s : State) (off : Nat) (v : Word) : PendingAgrees s (writeReg s off v) := by
  by_cases h0 : off = 0x010
  · subst h0
    rw [writeReg_ctrl]
    rcases writeCtrl_ends s v with e | ⟨-, -, -, e⟩ | ⟨-, ⟨-, hb⟩ | ⟨-, he⟩⟩
    · exact .inl (by rw [e])
    · exact .inr (.inl (by rw [e]; rfl))
    · exact .inr (.inr (.inl hb))
    · exact .inr (.inr (.inr (.inr he)))
  · exact .inl (writeReg_seq h0 s v)

theorem step_pending {s t : State} (h : step s = .next t) : PendingAgrees s t := by
  rcases step_registers h with ⟨rest, hd, u, -, he⟩ | ⟨rest, off, v, -, rfl⟩ | ⟨rest, -, rfl⟩ | hk
  · exact (engineTurn_pending he :)
  · exact writeReg_pending { s with script := rest } off v
  · exact .inr (.inl (hwReset_keepsRegisters _).seq)
  · exact .inl hk.seq

/-- Settles O12: the two bits of IRQ_STAT under a write, and under every step. -/
theorem pendingBits : Obligations.PendingBits := by
  refine ⟨fun s v => ⟨?_, BitVec.extractLsb'_append_eq_left, rfl⟩, fun s t h => ⟨fun hs ht => ?_, fun hs ht => ?_⟩⟩
  · rw [readReg_irqStat, readReg_irqStat]
    exact setWidth_clearPending s.irqStat v
  all_goals
    rcases step_pending h with e | e | e | ⟨e, hi⟩ | ⟨e, hi⟩ <;> simp_all

/-! ## The arguments of a running command -/

/-- A command ends in its own turn, in DONE or ERROR (10_state.md R39; log 2). -/
theorem engineTurn_leaves_busy {s t : State} (h : engineTurn s = .next t) (hb : s.seq = .busy) : t.seq ≠ .busy := by
  rcases engineTurn_next h with ⟨hn, -⟩ | ⟨-, -, rfl⟩ | ⟨-, i, -, hx⟩
  · exact absurd hb hn
  · simp
  · rcases exec_ends hx with ⟨e, -, rfl⟩ | ⟨-, rfl⟩ | ⟨hs, -⟩
    · simp
    · simp
    · simp [hs]

/-- While BUSY all writes but those of IRQ_EN and IRQ_STAT are ignored (10_state.md R35, R36). -/
theorem writeReg_busy {s : State} (h : s.seq = .busy) {off : Nat} (h2 : off ≠ 0x040) (h3 : off ≠ 0x044) (v : Word) :
    writeReg s off v = s := by
  by_cases h1 : off = 0x010
  · rw [h1, writeReg_ctrl, writeCtrl_busy h]
  · rw [writeReg_argument h1 h2 h3, if_pos h]

/-- The nine registers that hold a command's arguments are the same. -/
def SameArguments (s t : State) : Prop :=
  t.cmd = s.cmd ∧ t.lenA = s.lenA ∧ t.lenB = s.lenB ∧ t.srcA = s.srcA ∧ t.srcB = s.srcB ∧ t.dst = s.dst

theorem KeepsRegisters.sameArguments {s t : State} (h : KeepsRegisters s t) : SameArguments s t := by
  rw [h]
  exact ⟨rfl, rfl, rfl, rfl, rfl, rfl⟩

theorem writeReg_busy_sameArguments {s : State} (h : s.seq = .busy) (off : Nat) (v : Word) :
    SameArguments s (writeReg s off v) := by
  by_cases h2 : off = 0x040
  · subst h2; exact ⟨rfl, rfl, rfl, rfl, rfl, rfl⟩
  · by_cases h3 : off = 0x044
    · subst h3; exact ⟨rfl, rfl, rfl, rfl, rfl, rfl⟩
    · rw [writeReg_busy h h2 h3]
      exact ⟨rfl, rfl, rfl, rfl, rfl, rfl⟩

/-- Settles O14: a step from BUSY to BUSY is a register write or leaves the registers alone. -/
theorem busyKeepsArguments : Obligations.BusyKeepsArguments := by
  refine ⟨fun s off v hb h2 h3 => writeReg_busy hb h2 h3 v, fun s t hb h ht => ?_⟩
  rcases step_registers h with ⟨rest, hd, u, -, he⟩ | ⟨rest, off, v, -, rfl⟩ | ⟨rest, -, rfl⟩ | hk
  · exact absurd ht (engineTurn_leaves_busy he hb)
  · exact writeReg_busy_sameArguments (s := { s with script := rest }) hb off v
  · rw [(hwReset_keepsRegisters _).seq] at ht
    cases ht
  · exact hk.sameArguments

/-! ## Host accesses of the window -/

/-- A write of a register is the register write (10_state.md R38). -/
theorem step_write_register {s : State} {a off : Nat} {w : Width} (v : BitVec 64) (rest : List HostEvent)
    (h : targetOf s.platform a w.bytes = .register off) :
    step { s with script := .write a w v :: rest } =
      .next (writeReg { s with script := rest } off (v.extractLsb' 0 32)) := by
  show hostWrite { s with script := rest } a w v = _
  simp only [hostWrite, h]

theorem step_badRegister {s : State} {a : Nat} {w : Width} (v : BitVec 64) (rest : List HostEvent)
    (h : targetOf s.platform a w.bytes = .badRegister) :
    step { s with script := .read a w :: rest } = .refused (.registerAccess a) ∧
      step { s with script := .write a w v :: rest } = .refused (.registerAccess a) := by
  constructor
  · show hostRead { s with script := rest } a w = _
    simp only [hostRead, h]
  · show hostWrite { s with script := rest } a w v = _
    simp only [hostWrite, h]

/-- An access that touches the window goes to a register or is a bad one (10_state.md R38). -/
theorem targetOf_window {p : Platform} {a n : Nat} (h1 : a < p.mmioBase + 256) (h2 : p.mmioBase < a + n) (hn : 0 < n) :
    targetOf p a n =
      if n = 4 ∧ p.mmioBase ≤ a ∧ (a - p.mmioBase) % 4 = 0 then .register (a - p.mmioBase) else .badRegister := by
  have ho : (⟨p.mmioBase, 256⟩ : Span).overlaps ⟨a, n⟩ = true := by
    simp only [Span.overlaps, decide_eq_true_eq]
    omega
  rw [targetOf, if_pos ho]

theorem Width.bytes_pos (w : Width) : 0 < w.bytes := by cases w <;> decide

theorem Width.bytes_eq_four (w : Width) : w.bytes = 4 ↔ w = .w4 := by cases w <;> decide

/-- Settles O15, by where the access goes. -/
theorem narrowRegisterAccessRefused : Obligations.NarrowRegisterAccessRefused := by
  intro s a w v rest h1 h2
  have ht := targetOf_window h1 h2 w.bytes_pos
  simp only [w.bytes_eq_four] at ht
  split_ifs with hw
  · rw [if_pos hw] at ht
    exact ⟨step_read_register rest ht, step_write_register v rest ht⟩
  · rw [if_neg hw] at ht
    exact step_badRegister v rest ht

/-! ## The engine's turn -/

theorem engineTurn_busy {s : State} {i : Instr} (hd : decode s.cmd = .ok i) (hb : s.seq = .busy) :
    engineTurn s = exec i s := by
  simp only [engineTurn, hb, hd]

/-- Outside BUSY the engine does nothing (60_exceptions.md R252). -/
theorem engineTurn_idle {s : State} (h : s.seq ≠ .busy) : engineTurn s = .next s := by
  cases hs : s.seq <;> simp_all [engineTurn]

theorem step_engine {s : State} (h : s.script = []) : step s = engineTurn s := by
  simp only [step, machineStep, h]

theorem step_wait {s : State} {rest : List HostEvent} (h : s.script = .wait :: rest) :
    step s = engineTurn { s with script := rest } := by
  simp only [step, machineStep, h]

/-- A POLL reads its register once (30_encoding.md R102). -/
theorem step_poll {s : State} {a off : Nat} {mask value : Word} {rest : List HostEvent}
    (h : s.script = .poll a mask value :: rest) (ht : targetOf s.platform a 4 = .register off) :
    step s =
      if readReg s off &&& mask = value then
        .next { s.observe (s.showsDone off) with hostData := (readReg s off).setWidth 64, script := rest }
      else engineTurn { s.observe (s.showsDone off) with hostData := (readReg s off).setWidth 64 } := by
  simp only [step, machineStep, h, pollTurn, ht]

theorem step_takeIrq {s : State} {rest : List HostEvent} (h : s.script = .takeIrq :: rest) :
    step s = if s.irq = true then .next { s.observe s.doneIrq with script := rest } else engineTurn s := by
  simp only [step, machineStep, h, irqTurn]

/-- Settles O22, by the head of the script. -/
theorem stepRunsDecodedCommand : Obligations.StepRunsDecodedCommand := by
  intro s rest
  refine ⟨fun i hd hb => ⟨fun h => ?_, fun h => ?_⟩, fun hb => ⟨fun h => ?_, fun h => ?_⟩,
    fun a off mask value h ht => ⟨fun hv => ?_, fun hv => ?_⟩,
    fun h => ⟨fun hi => ?_, fun hi hb => ?_, fun i hd hi hb => ?_⟩⟩
  · rw [step_engine h, engineTurn_busy hd hb]
  · rw [step_wait h]
    exact engineTurn_busy hd hb
  · rw [step_engine h, engineTurn_idle hb]
  · rw [step_wait h]
    exact engineTurn_idle hb
  · rw [step_poll h ht, if_pos hv]
  · rw [step_poll h ht, if_neg hv]
    exact ⟨fun hb => engineTurn_idle hb, fun i hd hb => engineTurn_busy hd hb⟩
  · rw [step_takeIrq h, if_pos hi]
    simp only [State.observe, State.doneIrq, Bool.and_eq_true]
  · rw [step_takeIrq h, if_neg (by simp [hi]), engineTurn_idle hb]
  · rw [step_takeIrq h, if_neg (by simp [hi]), engineTurn_busy hd hb]

/-! ## The length of a result -/

/-- A transform that fits is no longer than LMAX (41_transforms.md R176). -/
theorem le_of_transformFits {lmax n : Nat} {e : Engine} (h1 : 1 ≤ lmax) (h : transformFits lmax e n = true) :
    n ≤ lmax := by
  have hle := le_nextPow2 (2 * n - 1)
  unfold transformFits at h
  split_ifs at h
  · exact of_decide_eq_true h
  · have := of_decide_eq_true h
    omega
  · omega

/-- So is a circular convolution (42_convolution.md R207, R209). -/
theorem le_of_circularFits {lmax n : Nat} (h1 : 1 ≤ lmax) (h : circularFits lmax n = true) : n ≤ lmax := by
  have hle := le_nextPow2 (2 * n - 1)
  unfold circularFits at h
  split_ifs at h
  · exact of_decide_eq_true h
  · have := of_decide_eq_true h
    omega
  · omega

/-- The result of a command that fits is no longer than LMAX (60_exceptions.md R235). -/
theorem outLength_le {lmax : Nat} {i : Instr} {n m : Nat} (h1 : 1 ≤ lmax) (h : capacityOk lmax i n m = true) :
    outLength i n m ≤ lmax := by
  cases i with
  | fft | fftR2 | fftBl | ifft | ifftR2 | ifftBl => exact le_of_transformFits h1 h
  | cconv | nconv => exact le_of_circularFits h1 h
  | conv =>
    have hle := le_nextPow2 (n + m - 1)
    unfold capacityOk linearFits at h
    unfold outLength
    split_ifs at h ⊢
    · exact Nat.zero_le _
    · exact hle.trans (of_decide_eq_true h)

/-- Settles O40: LMAX is at most 2^30 on every platform (10_state.md R23). -/
theorem outLenFits : Obligations.OutLenFits := by
  intro i s hp hc
  obtain ⟨-, -, hcap, -, -⟩ := startCheck_none hc
  obtain ⟨-, hlog, -⟩ := of_decide_eq_true hp
  have hle : outLength i s.lenN s.lenM ≤ 2 ^ 30 :=
    (outLength_le Nat.one_le_two_pow hcap).trans (Nat.pow_le_pow_right (by norm_num) hlog)
  refine ⟨hle, ?_⟩
  rw [BitVec.toNat_ofNat, Nat.mod_eq_of_lt (by omega)]

end Sys2Proof.Machine
end

section
/-!
PROOFS. A command's regions and its end (20_memory.md R61-R73, 60_exceptions.md R236, R239, 70_reset_and_hazards.md
R274): where the regions lie and what the engine reads of them, the access that stops a run, and what every command
leaves unchanged.
-/

namespace Sys2Proof.Machine

/-! ## The regions and the elements read -/

/-- Settles O24: the table of R64 is `regionSizes`, whose one condition is CONV's on its lengths. -/
theorem regionTable : Obligations.RegionTable := by
  intro s fa fb herm
  refine ⟨fun i hi => ?_, fun hN hM => ?_, fun h0 r hr => ?_, fun i hi => ?_⟩
  · simp only [List.mem_cons, List.not_mem_nil, or_false] at hi
    rcases hi with rfl | rfl | rfl | rfl | rfl | rfl <;> exact ⟨rfl, rfl, rfl⟩
  · have h0 : ¬ (s.lenN = 0 ∨ s.lenM = 0) := by omega
    simp only [regionA, regionB, regionD, regionSizes, if_neg h0, and_self]
  · simp only [regionsOf, regionA, regionB, regionD, regionSizes, if_pos h0, List.mem_cons, List.not_mem_nil, or_false] at hr
    rcases hr with rfl | rfl | rfl <;> rfl
  · simp only [List.mem_cons, List.not_mem_nil, or_false] at hi
    rcases hi with rfl | rfl <;> exact ⟨rfl, rfl, rfl⟩

/-- Word k of a region of n words is the engine's read at base + 8k (20_memory.md R61). -/
theorem regionWords_getElem? (s : State) (region : Nat) {r : Span} {n k : Nat} (hn : r.size = 8 * n) (hk : k < n) :
    (regionWords s region r)[k]? = some (engineWord s region (r.base + 8 * k)) := by
  have hk' : k < r.size / 8 := by omega
  simp [regionWords, hk']

/-- Settles O25: the words of the region, taken one by one or in pairs. -/
theorem operandElements : Obligations.OperandElements := by
  intro s region b n k hu hk
  have word : ∀ {size m j : Nat}, size = 8 * m → j < m → (regionWords s region ⟨b, size⟩)[j]? =
      some (BitVec.ofNat 64 (memReadBytes s.mem (b + 8 * j) 8)) := fun hm hj => by
    rw [regionWords_getElem? s region hm hj, engineWord_clean s hu]
  constructor
  · simp only [operandOf, Operand.toComplex, List.getElem?_map, word (Nat.mul_comm n 8) hk, Option.map_some, promote]
  · have hlen : n * 16 = 8 * (2 * n) := by omega
    have hl : 2 * k + 1 < (regionWords s region ⟨b, n * 16⟩).length := by
      rw [regionWords_length]
      show 2 * k + 1 < n * 16 / 8
      omega
    simp only [operandOf, Operand.toComplex, pairUp_get _ _ hl, List.getD_eq_getElem?_getD,
      word hlen (show 2 * k < 2 * n by omega), word hlen (show 2 * k + 1 < 2 * n by omega), Option.getD_some,
      show b + 8 * (2 * k) = b + 16 * k by omega, show b + 8 * (2 * k + 1) = b + 16 * k + 8 by omega]

/-! ## A run that its start checks let begin -/

/-- Once its start checks hold, a command is its run. -/
theorem exec_of_checks {i : Instr} {s : State} (h : startCheck i s = none) :
    exec i s = runPhases i (commandResult i) s := by
  rw [exec_eq_runCommand, runCommand, h]

/-- The run's own test for a device (20_memory.md R69). -/
theorem overDevice_iff (i : Instr) (s : State) :
    ((regionsOf i s).any fun r => s.platform.device.any fun d => d.overlaps r) = true ↔
      ∃ r ∈ regionsOf i s, ¬ NoDevice s.platform r := by
  simp only [NoDevice, List.any_eq_true, not_forall, Bool.not_eq_false, exists_prop]

theorem not_overDevice {i : Instr} {s : State} (hn : ∀ r ∈ regionsOf i s, NoDevice s.platform r) :
    ¬ ((regionsOf i s).any fun r => s.platform.device.any fun d => d.overlaps r) = true := fun h => by
  obtain ⟨r, hr, hd⟩ := (overDevice_iff i s).mp h
  exact hd (hn r hr)

/-- Settles O27: the test for a device is the first thing a run does. -/
theorem deviceRegionRefused : Obligations.DeviceRegionRefused := fun i s hc hd => by
  rw [exec_of_checks hc, runPhases, if_pos ((overDevice_iff i s).mpr hd)]

/-! ## The access that stops a run -/

/-- Word k of the region is the first whose access does not complete, and `stop` is how it ends (20_memory.md R70). -/
structure StopsAt (p : Platform) (r : Span) (k : Nat) (stop : BusStop) : Prop where
  inside : k < r.size / 8
  before : ∀ j < k, busAccess p (r.base + 8 * j) = none
  access : busAccess p (r.base + 8 * k) = some stop

section
variable {i : Instr} {s : State} {k : Nat} {stop : BusStop} (hc : startCheck i s = none)
  (hn : ∀ r ∈ regionsOf i s, NoDevice s.platform r)
include hc hn

/-- A stop in region A ends the command with nothing written (20_memory.md R71). -/
theorem exec_stopsA (h : StopsAt s.platform (regionA i s) k stop) : exec i s = stopRun s ⟨0, 0⟩ stop := by
  rw [exec_of_checks hc, runPhases, if_neg (not_overDevice hn),
    readWords_stop s 0 _ _ k h.inside h.before h.access]

/-- So does one in region B, once region A is read. -/
theorem exec_stopsB (okA : RegionOk s.platform (regionA i s)) (h : StopsAt s.platform (regionB i s) k stop) :
    exec i s = stopRun s ⟨0, 0⟩ stop := by
  rw [exec_of_checks hc, runPhases, if_neg (not_overDevice hn), readWords_ok s 0 _ _ okA]
  simp only [readWords_stop s 1 _ _ k h.inside h.before h.access]

/-- A stop in region D leaves the words below it written (20_memory.md R73). -/
theorem exec_stopsD (okA : RegionOk s.platform (regionA i s)) (okB : RegionOk s.platform (regionB i s))
    (h : StopsAt s.platform (regionD i s) k stop) :
    exec i s = stopRun (s.withMem (storeWords (regionD i s).base ((resultWords s (resultOf i s)).take k) s.mem))
      ⟨(regionD i s).base, 8 * k⟩ stop := by
  have hlen := resultOf_words_length hc
  have hk : k < (resultWords s (resultOf i s)).length := by
    have := h.inside
    rw [resultWords_length]
    omega
  rw [exec_of_checks hc, runPhases, if_neg (not_overDevice hn), readWords_ok s 0 _ _ okA,
    readWords_ok s 1 _ _ okB]
  show finishRun i s (resultOf i s) = _
  rw [finishRun, writeWords_stop s.platform _ _ k _ hk h.before h.access]
  simp only [writtenBelow, busAccess_addr h.access, Nat.add_sub_cancel_left]

end

/-- An access that the bus never answers. -/
theorem busAccess_hang {p : Platform} {a : Nat} (h : spansHave p.busHang a = true) : busAccess p a = some (.hang a) := by
  rw [busAccess, if_pos h]

/-- A stop that is no hang has a next state, in ERROR (60_exceptions.md R239). -/
theorem stopRun_error (s : State) (written : Span) {stop : BusStop} (h : ∀ a, stop ≠ .hang a) :
    ∃ t, stopRun s written stop = .next t ∧ (t.seq = .done ∨ t.seq = .error) := by
  cases stop with
  | fail a => exact ⟨_, rfl, .inr rfl⟩
  | hang a => exact absurd rfl (h a)

/-- Settles O23, by everything a command can do, and by the region that its first hang lies in. -/
theorem commandsTerminate : Obligations.CommandsTerminate := by
  refine ⟨fun i s hn hh => ?_, fun i s k hc hn => ⟨fun ⟨hk, hj, hs⟩ => ?_, fun okA ⟨hk, hj, hs⟩ => ?_,
    fun okA okB ⟨hk, hj, hs⟩ => ?_⟩⟩
  · rcases exec_cases i s with ⟨e, -, he⟩ | ⟨-, ⟨r, hr, hd⟩, -⟩ | ⟨-, -, region, r, k, stop, hreg, hk, -, hs, he⟩ |
      ⟨-, -, -, -, k, stop, hk, -, hs, he⟩ | ⟨-, he⟩
    · exact ⟨_, he, .inr rfl⟩
    · exact absurd (hn r hr) hd
    · have hr : r ∈ regionsOf i s := by rcases hreg with ⟨-, rfl⟩ | ⟨-, rfl, -⟩ <;> simp [regionsOf]
      rw [he]
      exact stopRun_error _ _ fun a ha => hh r hr k hk a (ha ▸ hs)
    · rw [he]
      exact stopRun_error _ _ fun a ha => hh _ (regionD_mem i s) k hk a (ha ▸ hs)
    · exact ⟨_, he, .inl rfl⟩
  · exact exec_stopsA hc hn ⟨hk, hj, busAccess_hang hs⟩
  · exact exec_stopsB hc hn okA ⟨hk, hj, busAccess_hang hs⟩
  · exact exec_stopsD hc hn okA okB ⟨hk, hj, busAccess_hang hs⟩

/-! ## Bus errors -/

/-- err_addr holds the address of a region's word whole: it lies in system memory (20_memory.md R66). -/
theorem errAddr_region {i : Instr} {s : State} (hp : s.platform.wf = true) (hc : startCheck i s = none) {r : Span}
    (hr : r ∈ regionsOf i s) {k : Nat} (hk : k < r.size / 8) :
    (BitVec.ofNat 64 (r.base + 8 * k)).toNat = r.base + 8 * k := by
  obtain ⟨-, -, -, hbits, -⟩ := of_decide_eq_true hp
  have hle := region_inRange hc hr (by omega)
  have htop : 2 ^ s.platform.paBits ≤ 2 ^ 64 := Nat.pow_le_pow_right (by norm_num) hbits
  rw [BitVec.toNat_ofNat, Nat.mod_eq_of_lt (by omega)]

/-- Settles O28: the run stops before it has written anything. -/
theorem readPhaseBusError : Obligations.ReadPhaseBusError := by
  intro i s k hp hc hn
  refine ⟨fun hk hj hs => ?_, fun hk okA hj hs => ?_⟩
  · exact ⟨_, exec_stopsA hc hn ⟨hk, hj, hs⟩, rfl, rfl, errAddr_region hp hc (by simp [regionsOf]) hk, rfl, rfl, rfl⟩
  · exact ⟨_, exec_stopsB hc hn okA ⟨hk, hj, hs⟩, rfl, rfl, errAddr_region hp hc (by simp [regionsOf]) hk, rfl, rfl, rfl⟩

/-! ## What lies outside the bytes written -/

theorem span_has_eq_false (x : Span) (a : Nat) : x.has a = false ↔ a < x.base ∨ x.base + x.size ≤ a := by
  rw [Span.has, decide_eq_false_iff_not]
  omega

/-- Bytes written anew end nothing of what another engine hides elsewhere. -/
theorem peersHide_rewritten_outside (ps : List Peer) {x : Span} {a : Nat} (h : x.has a = false) :
    peersHide (ps.flatMap (Peer.rewritten x)) a = peersHide ps a := by
  simp only [peersHide_rewritten, h, Bool.not_false, Bool.or_true, Bool.and_true]
  rfl

/-- The end of a run changes the three lists of waiting bytes inside the span written alone. -/
theorem endRun_outside (s : State) {x : Span} {a : Nat} (h : x.has a = false) :
    spansHave (s.endRun x).stale a = spansHave s.stale a ∧ spansHave (s.endRun x).unseen a = spansHave s.unseen a ∧
      peersHide (s.endRun x).peers a = peersHide s.peers a := by
  refine ⟨?_, by simp [h], peersHide_rewritten_outside s.peers h⟩
  rw [State.endRun_stale]
  split_ifs <;> simp [h]

/-- The write phase, complete or stopped, leaves every byte outside the words written alone. -/
theorem memRead_storeWords_take {m : Memory} (hm : m.wf = true) (ws : List F64) (a k : Nat) {x : Nat}
    (hx : x < a ∨ a + 8 * k ≤ x) : memRead (storeWords a (ws.take k) m) x = memRead m x :=
  memRead_storeWords_outside _ _ _ _ hm (by rw [List.length_take]; omega)

/-- The words stored before a stop are the first of all. -/
theorem memReadBytes_storeWords_take {m : Memory} (hm : m.wf = true) {ws : List F64} (a : Nat) {j k : Nat} (hj : j < k)
    (hk : k ≤ ws.length) : memReadBytes (storeWords a (ws.take k) m) (a + 8 * j) 8 = (ws.getD j 0).toNat := by
  have hl : j < (ws.take k).length := by rw [List.length_take]; omega
  rw [memReadBytes_storeWords _ _ _ _ hl hm, List.getElem_take, List.getD_eq_getElem ws 0 (by omega)]

/-- Settles O29: below the failing word the result is stored, and nothing else is written or comes to wait. -/
theorem writePhaseBusError : Obligations.WritePhaseBusError := by
  intro i s k hp hm hr hc hn okA okB hk hj hs
  have hlen := resultOf_words_length hc
  refine ⟨_, exec_stopsD hc hn okA okB ⟨hk, hj, hs⟩, rfl, rfl, errAddr_region hp hc (regionD_mem i s) hk, rfl, rfl,
    fun j hj => ?_, fun x hx => ⟨memRead_storeWords_take hm _ _ _ hx, ?_⟩, fun hi x h1 h2 => ?_⟩
  · rw [State.enterError_mem, State.endRun_mem, State.withMem_mem, resultWords_of_not_raced hr]
    exact memReadBytes_storeWords_take hm _ hj (by omega)
  · exact (endRun_outside _ ((span_has_eq_false _ _).mpr hx)).1
  · simp [hi, Span.has, h1, h2]

/-! ## The frame of a command -/

/-- The registers and the host's side that no command changes (41_transforms.md R172, 42_convolution.md R200). -/
theorem exec_keeps {i : Instr} {s t : State} (h : exec i s = .next t) :
    t = { s with
      seq := t.seq, err := t.err, outLen := t.outLen, irqStat := t.irqStat, errAddr := t.errAddr, mem := t.mem,
      raced := t.raced, stale := t.stale, unseen := t.unseen, peers := t.peers, draws := t.draws } := by
  rcases exec_next h with ⟨e, -, rfl⟩ | ⟨-, k, span, a, -, -, rfl⟩ | ⟨-, rfl⟩ <;> rfl

/-- A command starts and ends no other engine (60_exceptions.md R250). -/
theorem exec_busy_peers {i : Instr} {s t : State} (h : exec i s = .next t) :
    t.peers.filter (fun p => p.busy) = s.peers.filter (fun p => p.busy) := by
  rcases exec_next h with ⟨e, -, rfl⟩ | ⟨-, k, span, a, -, -, rfl⟩ | ⟨-, rfl⟩
  · rfl
  · exact filter_busy_rewritten s.peers span
  · exact filter_busy_rewritten s.peers (regionD i s)

/-- What a command sets of STATE, IRQ_STAT and the error registers (10_state.md R31, 60_exceptions.md R236). -/
theorem exec_status {i : Instr} {s t : State} (h : exec i s = .next t) :
    (t.seq = .done ∧ t.irqStat = s.irqStat ||| 1 ∧ t.err = s.err ∧ t.errAddr = s.errAddr) ∨
      (t.seq = .error ∧ t.irqStat = s.irqStat ||| 2) := by
  rcases exec_ends h with ⟨e, -, rfl⟩ | ⟨-, rfl⟩ | ⟨hs, hi, -⟩
  · exact .inr ⟨rfl, rfl⟩
  · exact .inl ⟨rfl, rfl, rfl, rfl⟩
  · exact .inr ⟨hs, hi⟩

/-- A failed start check writes nothing (60_exceptions.md R236; log 5). -/
theorem exec_failed_check {i : Instr} {s t : State} (h : exec i s = .next t) (hc : startCheck i s ≠ none) :
    t.mem = s.mem := by
  rcases exec_next h with ⟨e, -, rfl⟩ | ⟨hn, -⟩ | ⟨hR, -⟩
  · rfl
  · exact absurd hn hc
  · exact absurd hR.checks hc

/-- A byte outside region D keeps its value, and all that decides whether the host may read it (20_memory.md R68). -/
theorem exec_outside {i : Instr} {s t : State} (hm : s.mem.wf = true) (h : exec i s = .next t) {a : Nat}
    (ha : a < (regionD i s).base ∨ (regionD i s).base + (regionD i s).size ≤ a) :
    memRead t.mem a = memRead s.mem a ∧ spansHave t.stale a = spansHave s.stale a ∧
      spansHave t.unseen a = spansHave s.unseen a ∧ peersHide t.peers a = peersHide s.peers a := by
  have hD := (span_has_eq_false _ _).mpr ha
  rcases exec_next h with ⟨e, -, rfl⟩ | ⟨-, k, span, b, hk, hspan, rfl⟩ | ⟨hR, rfl⟩
  · exact ⟨rfl, rfl, rfl, rfl⟩
  · have hx : span.has a = false := by
      rcases hspan with rfl | rfl <;> rw [span_has_eq_false]
      · exact .inr (Nat.zero_le a)
      · exact ha.imp_right (Nat.add_le_add_left hk _).trans
    exact ⟨memRead_storeWords_take hm _ _ _ (by omega), endRun_outside _ hx⟩
  · obtain ⟨hstale, hunseen, hpeers⟩ := endRun_outside s hD
    have hlen := resultOf_words_length hR.checks
    refine ⟨memRead_storeWords_outside _ _ _ _ hm (by rw [resultWords_length]; omega), hstale, ?_, hpeers⟩
    rw [← hunseen]
    simp [hD]

/-- Settles O30, over everything a command can do. -/
theorem commandFrame : Obligations.CommandFrame := by
  intro i s t hm h
  refine ⟨?_, ?_, ?_, ?_, ?_, ?_, ?_, ?_, ?_, ?_, ?_, ?_, ?_, ?_, exec_busy_peers h, exec_status h, exec_failed_check h,
    fun a ha => exec_outside hm h ha⟩
  all_goals rw [exec_keeps h]

/-! ## Empty operands -/

section
variable {i : Instr} {s : State}
  (h : s.lenN = 0 ∧ (i.needsEqualLengths = true → s.lenM = 0) ∨ ∃ fa fb, i = .conv fa fb ∧ s.lenM = 0)
include h

/-- A command with an empty operand has no byte in any region, and no element in its result (20_memory.md R67,
42_convolution.md R203). -/
theorem empty_sizes : regionSizes i s.lenN s.lenM = (0, 0, 0) ∧ outLength i s.lenN s.lenM = 0 := by
  rcases h with ⟨hN, -⟩ | ⟨fa, fb, rfl, hM⟩
  · cases i <;> simp [regionSizes, outLength, hN]
  · simp [regionSizes, outLength, hM]

theorem empty_region {r : Span} (hr : r ∈ regionsOf i s) : r.size = 0 := by
  simp only [regionsOf, regionA, regionB, regionD, (empty_sizes h).1, List.mem_cons, List.not_mem_nil, or_false] at hr
  rcases hr with rfl | rfl | rfl <;> rfl

/-- Length 0 is a power of two, is what a second length must equal, and fits every capacity (00_scope.md R12,
60_exceptions.md R233-R235). -/
theorem empty_lengths : (i.engine = .radix2 → isPow2 s.lenN = true) ∧ (i.needsEqualLengths = true → s.lenM = s.lenN) ∧
    capacityOk s.lmax i s.lenN s.lenM = true := by
  have h0 : isPow2 0 = true := rfl
  rcases h with ⟨hN, hM⟩ | ⟨fa, fb, rfl, hM⟩
  · refine ⟨fun _ => by rw [hN]; rfl, fun he => by rw [hN, hM he], ?_⟩
    cases i <;> simp [capacityOk, transformFits, circularFits, linearFits, usesRadix2, hN, h0]
  · exact ⟨nofun, nofun, by simp [capacityOk, linearFits, hM]⟩

theorem empty_startCheck : startCheck i s = none := by
  obtain ⟨h2, heq, hcap⟩ := empty_lengths h
  have hfind : ∀ f : Span → Bool, (∀ r : Span, r.size = 0 → f r = false) → (regionsOf i s).find? f = none :=
    fun f hf => List.find?_eq_none.mpr fun r hr => by simp [hf r (empty_region h hr)]
  rw [startCheck, if_neg (by simpa using h2), if_neg (by simpa using heq), if_neg (by simp [hcap]),
    hfind misaligned fun r hr => by simp [misaligned, hr]]
  simp only [hfind (outOfRange s.platform) fun r hr => by simp [outOfRange, hr]]

theorem empty_runnable : Runnable i s := by
  have ok : ∀ r ∈ regionsOf i s, RegionOk s.platform r := fun r hr k hk => by simp [empty_region h hr] at hk
  exact ⟨empty_startCheck h, fun r hr d _ => by simp [Span.overlaps, empty_region h hr],
    ok _ (by simp [regionsOf]), ok _ (by simp [regionsOf]), ok _ (by simp [regionsOf])⟩

end

/-- Settles O60: such a command runs, and its result has no words to store. -/
theorem emptyOperandsComplete : Obligations.EmptyOperandsComplete := by
  intro i s h
  have hR := empty_runnable h
  have hout : (BitVec.ofNat 32 (outLength i s.lenN s.lenM) : Word) = 0 := by rw [(empty_sizes h).2]; rfl
  have hwords : resultWords s (resultOf i s) = [] := by
    have hlen := resultOf_words_length hR.checks
    rw [empty_region h (regionD_mem i s)] at hlen
    rw [← List.length_eq_zero_iff, resultWords_length]
    omega
  exact ⟨hR.checks, _, exec_runnable hR, rfl, hout, hout, rfl, by rw [doneWith_mem, hwords]; rfl⟩

end Sys2Proof.Machine
end

section
/-!
PROOFS. What the host and the engine read of memory (20_memory.md R62, R74, R78, R81, 70_reset_and_hazards.md R265-R269):
after a host store, after DONE, after cache maintenance, and after another engine's write.
-/

namespace Sys2Proof.Machine

/-! ## The byte a read sees -/

theorem running_of_not_busy {s : State} (h : s.seq ≠ .busy) : s.running = none := by
  cases hr : s.running with
  | none => rfl
  | some i => exact absurd (running_some hr).1 h

/-- Nothing hits a command where none runs (20_memory.md R75). -/
theorem hitsRunning_none {s : State} (h : s.running = none) (x : Span) : s.hitsRunning x = false := by
  rw [State.hitsRunning, h]

/-- With no command running, a byte that no list and no other engine hides reads as memory's. -/
theorem hostByte_idle {s : State} (h : s.running = none) {a : Nat} (hst : spansHave s.stale a = false)
    (hu : spansHave s.unseen a = false) (hp : peersHide s.peers a = false) : hostByte s a = memRead s.mem a := by
  simp [hostByte, hitsRunning_none h, hst, hu, hp]

/-- A byte of a result that the host has not invalidated is a free value (70_reset_and_hazards.md R269). -/
theorem hostByte_stale {s : State} {a : Nat} (h : spansHave s.stale a = true) :
    hostByte s a = Config.anyByte [a, 2, s.draws] := by
  simp [hostByte, h]

/-- So is one of a result whose DONE it has not observed (log 31). -/
theorem hostByte_unseen {s : State} {a : Nat} (h : spansHave s.unseen a = true) :
    hostByte s a = Config.anyByte [a, 2, s.draws] := by
  simp [hostByte, h]

theorem engineByte_unsettled {s : State} {a : Nat} (h : s.unsettled a = true) (region : Nat) :
    engineByte s region a = Config.anyByte [a, region, s.draws] :=
  if_pos h

theorem engineByte_settled {s : State} {a : Nat} (h : s.unsettled a = false) (region : Nat) :
    engineByte s region a = memRead s.mem a :=
  if_neg (by simp [h])

/-- A byte written anew is hidden by other BUSY engines at most. -/
theorem peersHide_rewritten_inside {ps : List Peer} {x : Span} {a : Nat} (hx : x.has a = true)
    (hp : ∀ p ∈ ps, p.busy = true → p.hides a = false) : peersHide (ps.flatMap (Peer.rewritten x)) a = false := by
  rw [peersHide_rewritten, List.any_eq_false]
  intro p hm
  cases hb : p.busy with
  | true => simp [hp p hm hb]
  | false => simp [hx]

theorem span_has_add (a : Nat) {n k : Nat} (hk : k < n) : (⟨a, n⟩ : Span).has (a + k) = true :=
  decide_eq_true ⟨Nat.le_add_right a k, Nat.add_lt_add_left hk a⟩

/-- A step depends on its script through the script's value alone. -/
theorem step_of_script {s : State} {l : List HostEvent} (h : s.script = l) : step s = step { s with script := l } := by
  rw [← h]

/-! ## A host store -/

/-- After a host store the host reads the bytes stored, where no other BUSY engine hides them (20_memory.md R62). -/
theorem hostByte_hostStore {s : State} (hm : s.mem.wf = true) (hr : s.running = none) {a k : Nat} {w : Width}
    (hk : k < w.bytes) (hp : ∀ p ∈ s.peers, p.busy = true → p.hides (a + k) = false) (v : BitVec 64) :
    hostByte (hostStore s a w v) (a + k) = BitVec.ofNat 8 (v.toNat / 256 ^ k) := by
  have hx := span_has_add a hk
  rw [hostByte_idle (s := hostStore s a w v) hr (spansDrop_has _ _ _ hx) (spansDrop_has _ _ _ hx)
    (peersHide_rewritten_inside hx hp), hostStore_mem, memRead_memWriteBytes_inside _ _ _ _ _ hm hk]

/-- Settles O26: the bytes stored, read back one by one. -/
theorem hostStoreThenLoad : Obligations.HostStoreThenLoad := by
  intro s a w v rest hm hr ht hp
  refine ⟨_, _, step_write_memory v _ ht, (step_of_script rfl).trans (step_read_memory rest ht), ?_,
    fun k hk => memRead_memWriteBytes_inside _ _ _ _ _ hm hk, fun x hx => memRead_memWriteBytes_outside _ _ _ _ _ hm hx⟩
  rw [BitVec.toNat_ofNat, Nat.mod_eq_of_lt (leBytes_width_lt _ _ _)]
  exact leBytes_of_digits _ _ _ fun k hk => hostByte_hostStore hm hr hk (fun p hpm hb => hp p hpm hb k hk) v

/-! ## The host looks at the engine -/

/-- STATUS masked with 3 is STATE (10_state.md R25). -/
theorem readReg_status_state (s : State) : readReg s 0x014 &&& 3 = s.seq.bits.setWidth 32 := by
  rw [← (statusWord_fields s).1, setWidth_lowBits]
  rfl

/-- IRQ_STAT masked with 1 is DONE_IP (10_state.md R31). -/
theorem readReg_irqStat_doneIp {s : State} (h : s.doneIp = true) : readReg s 0x044 &&& 1 = 1 := by
  have bit : ∀ p : BitVec 2, p.getLsbD 0 = true → (p.setWidth 32 &&& 1 : Word) = 1 := by decide
  rw [readReg_irqStat]
  exact bit _ h

/-- An access that shows the host DONE, where STATE is DONE and DONE_IP is set: a read or a POLL of STATUS, or with
DONE_IE set the interrupt or a POLL of IRQ_STAT (70_reset_and_hazards.md R269; log 31). -/
def LooksAt (s : State) (look : HostEvent) : Prop :=
  look = .read (s.platform.mmioBase + 0x014) .w4 ∨ look = .poll (s.platform.mmioBase + 0x014) 3 2 ∨
    (s.doneIe = true ∧ (look = .takeIrq ∨ look = .poll (s.platform.mmioBase + 0x044) 1 1))

/-- After such an access nothing is unseen, and of the machine nothing else has changed. -/
theorem step_look {s : State} {look : HostEvent} {rest : List HostEvent} (hs : s.seq = .done) (hi : s.doneIp = true)
    (hl : LooksAt s look) (h : s.script = look :: rest) :
    ∃ hd, step s = .next { s with script := rest, hostData := hd, unseen := [] } := by
  have status : s.showsDone 0x014 = true := by simp [State.showsDone, hs]
  have tStatus := targetOf_register s.platform (off := 0x014) (by decide) (by decide)
  have tIrq := targetOf_register s.platform (off := 0x044) (by decide) (by decide)
  rcases hl with rfl | rfl | ⟨he, rfl | rfl⟩
  · rw [step_of_script h, step_read_register rest tStatus, status]
    exact ⟨_, rfl⟩
  · rw [step_poll h tStatus, if_pos (by rw [readReg_status_state, hs]; rfl), status]
    exact ⟨_, rfl⟩
  · have hq : s.doneIrq = true := by simp [State.doneIrq, hi, he]
    rw [step_takeIrq h, if_pos (by simp [State.irq, hi, he]), hq]
    exact ⟨_, rfl⟩
  · have hq : s.showsDone 0x044 = true := by simp [State.showsDone, State.doneIrq, hi, he]
    rw [step_poll h tIrq, if_pos (readReg_irqStat_doneIp hi), hq]
    exact ⟨_, rfl⟩

/-- The host then reads memory's word, where nothing else hides a byte of it. -/
theorem step_look_read {s : State} {look : HostEvent} {rest : List HostEvent} {a : Nat} (hs : s.seq = .done)
    (hi : s.doneIp = true) (hl : LooksAt s look) (h : s.script = look :: .read a .w8 :: rest)
    (ht : targetOf s.platform a 8 = .memory) (hst : ∀ j < 8, spansHave s.stale (a + j) = false)
    (hp : ∀ j < 8, peersHide s.peers (a + j) = false) :
    ∃ u v, step s = .next u ∧ step u = .next v ∧ v.hostData = BitVec.ofNat 64 (memReadBytes s.mem a 8) := by
  obtain ⟨hd, hu⟩ := step_look hs hi hl h
  have hr : s.running = none := running_of_not_busy (by simp [hs])
  refine ⟨_, _, hu, (step_of_script rfl).trans (step_read_memory rest ht), congrArg (BitVec.ofNat 64) ?_⟩
  exact leBytes_congr 8 a fun j hj =>
    hostByte_idle (s := { s with script := _, hostData := hd, unseen := [] }) hr (hst j hj) rfl (hp j hj)

/-- Without such an access it reads free values (70_reset_and_hazards.md R265). -/
theorem step_read_unseen {s : State} {rest : List HostEvent} {a : Nat} (h : s.script = .read a .w8 :: rest)
    (ht : targetOf s.platform a 8 = .memory) (hu : ∀ j < 8, spansHave s.unseen (a + j) = true) :
    ∃ u, step s = .next u ∧
      ∀ j < 8, u.hostData.toNat / 256 ^ j % 256 = (Config.anyByte [a + j, 2, s.draws]).toNat := by
  refine ⟨_, (step_of_script h).trans (step_read_memory rest ht), fun j hj => ?_⟩
  exact (hostData_digit s a j .w8 hj).trans (congrArg BitVec.toNat (hostByte_unseen (hu j hj)))

/-! ## The host reads a result -/

theorem doneWith_doneIp (i : Instr) (s : State) (r : Operand) : (doneWith i s r).doneIp = true := by
  have bit : ∀ p : BitVec 2, (p ||| 1).getLsbD 0 = true := by decide
  exact bit s.irqStat

/-- After DONE a byte of region D is hidden by other BUSY engines at most. -/
theorem peersHide_doneWith {i : Instr} {s : State} (r : Operand) {a : Nat} (ha : (regionD i s).has a = true)
    (hp : ∀ p ∈ s.peers, p.busy = true → p.hides a = false) : peersHide (doneWith i s r).peers a = false :=
  peersHide_rewritten_inside ha hp

/-- Until the host has observed DONE a byte of region D is a free value (70_reset_and_hazards.md R265). -/
theorem hostByte_doneWith {i : Instr} {s : State} (r : Operand) {a : Nat} (ha : (regionD i s).has a = true) :
    hostByte (doneWith i s r) a = Config.anyByte [a, 2, (doneWith i s r).draws] :=
  hostByte_unseen (by simp [ha])

theorem region_has_word {r : Span} {k j : Nat} (hk : k < r.size / 8) (hj : j < 8) : r.has (r.base + 8 * k + j) = true := by
  rw [Nat.add_assoc]
  exact span_has_add r.base (by omega)

/-- Settles O33: the look empties what is unseen, and then the host reads what the command stored. -/
theorem resultIsReadByHost : Obligations.ResultIsReadByHost := by
  intro i s k rest hm hr hco hst hR hk ht hp readD
  have hlen := resultOf_words_length hR.checks
  have hD : ∀ j < 8, (regionD i s).has ((regionD i s).base + 8 * k + j) = true := fun j => region_has_word hk
  refine ⟨fun look hl hs => ?_, fun hs => ?_⟩
  · obtain ⟨u, v, hu, hv, hdata⟩ := step_look_read (s := doneWith i s (resultOf i s)) rfl (doneWith_doneIp ..) hl hs ht
      (by simp [hco, hst]) fun j hj => peersHide_doneWith _ (hD j hj) fun p hpm hb => hp p hpm hb j hj
    have hk' : k < (resultOf i s).words.length := by omega
    refine ⟨_, u, v, exec_runnable hR, rfl, hu, hv, ?_⟩
    rw [hdata, doneWith_readWord hm hr hk', List.getD_eq_getElem _ _ hk']
  · obtain ⟨u, hu, hdata⟩ := step_read_unseen (s := doneWith i s (resultOf i s)) hs ht fun j hj => by simp [hD j hj]
    exact ⟨_, u, exec_runnable hR, rfl, hu, hdata⟩

/-! ## Cache maintenance -/

/-- The lines an operation on a span acts on are among the dirty lines (20_memory.md R78). -/
theorem dirtyLines_of_dirtyIn {s : State} {x : Span} {a : Nat} (h : spansHave (s.dirtyIn x) a = true) :
    spansHave s.dirtyLines a = true := by
  simp only [spansHave, State.dirtyIn, State.dirtyLines, spansInter, List.any_map, List.any_eq_true] at h ⊢
  obtain ⟨u, hu, ha⟩ := h
  refine ⟨u, hu, span_lines_mono _ _ _ (fun b hb => ?_) a ha⟩
  rw [span_inter_has, Bool.and_eq_true] at hb
  exact hb.1

/-- A byte that waits for a clean lies in a dirty line. -/
theorem dirtyLines_of_unclean {s : State} {a : Nat} (h : spansHave s.unclean a = true) :
    spansHave s.dirtyLines a = true := by
  simp only [spansHave, State.dirtyLines, List.any_map, List.any_eq_true] at h ⊢
  obtain ⟨u, hu, ha⟩ := h
  exact ⟨u, hu, span_lines_has _ _ _ ha⟩

/-- A clean frees the bytes of the lines written back that the engine wrote since (log 13). -/
theorem memRead_hostClean {s : State} (hm : s.mem.wf = true) (x : Span) (a : Nat) :
    memRead (hostClean s x).mem a =
      if spansHave (s.dirtyIn x) a && spansHave s.stale a then Config.anyByte [a, 4, s.draws] else memRead s.mem a := by
  have hback : spansHave ((s.dirtyIn x).flatMap (spansInter s.stale)) a =
      (spansHave (s.dirtyIn x) a && spansHave s.stale a) := by
    simp only [spansHave_flatMap, spansHave_spansInter, ← List.and_any_distrib_left, Bool.and_comm]
    rfl
  rw [← hback]
  exact memRead_memFillSpans _ _ _ _ hm

/-- An invalidate frees the bytes that the host wrote last and has not cleaned (log 29). -/
theorem memRead_hostInvalidate {s : State} (hm : s.mem.wf = true) (x : Span) (a : Nat) :
    memRead (hostInvalidate s x).mem a =
      if (x.lines s.platform.log2Line).has a && spansHave s.unclean a && !spansHave s.stale a then
        Config.anyByte [a, 5, s.draws]
      else memRead s.mem a := by
  rw [Bool.and_comm (Span.has _ a), ← spansHave_spansInter, ← spansHave_spansDropAll]
  exact memRead_memFillSpans _ _ _ _ hm

/-- Either operation races with a running command that a line written back touches (log 13). -/
theorem maintenance_raced (s : State) (x : Span) :
    (s.raced || (s.dirtyIn x).any s.hitsRunning) = true ↔ s.raced = true ∨ ∃ i, s.running = some i ∧
      ∃ l ∈ s.dirtyIn x, ∃ r ∈ regionsOf i s, r.overlaps l = true := by
  rw [Bool.or_eq_true, List.any_eq_true]
  cases hr : s.running with
  | none => simp [hitsRunning_none hr]
  | some i => simp [hitsRunning_iff hr]

/-- After an invalidate, with no command running, the host reads memory but where a result hides it
(70_reset_and_hazards.md R269). -/
theorem hostByte_hostInvalidate {s : State} (hr : s.running = none) {x : Span} {a : Nat}
    (hx : (x.lines s.platform.log2Line).has a = true) (hu : spansHave s.unseen a = false)
    (hp : peersHide s.peers a = false) : hostByte (hostInvalidate s x) a = memRead (hostInvalidate s x).mem a :=
  hostByte_idle (s := hostInvalidate s x) hr (spansDrop_has _ _ _ hx) hu hp

/-- Settles O34, with L the lines of `State.dirtyIn`. -/
theorem cacheMaintenance : Obligations.CacheMaintenance := by
  intro s x hm
  refine ⟨⟨fun a => spansHave_spansDrop _ _ a, rfl, memRead_hostClean hm x, maintenance_raced s x,
      fun a region hL hst => engineByte_unsettled ?_ region⟩,
    fun a => spansHave_spansDrop _ _ a, fun a => spansHave_spansDrop _ _ a, memRead_hostInvalidate hm x,
    maintenance_raced s x, fun hr a hy hu hp => hostByte_hostInvalidate hr hy hu hp⟩
  rw [State.unsettled, hst, dirtyLines_of_dirtyIn hL, Bool.and_self, Bool.or_true]

/-! ## Without coherence: the engine reads what the host wrote -/

section
variable {s : State} {a k : Nat} {w : Width} (hk : k < w.bytes) (v : BitVec 64) (region : Nat)
include hk

/-- A byte that the host has stored and not cleaned is a free value for the engine (70_reset_and_hazards.md R267). -/
theorem engineByte_hostStore (hi : s.platform.ioCoherent = false) :
    engineByte (hostStore s a w v) region (a + k) = Config.anyByte [a + k, region, s.draws] := by
  refine engineByte_unsettled (s := hostStore s a w v) ?_ region
  simp [State.unsettled, hostStore, hi, span_has_add a hk]

/-- Cleaned, it is the byte stored. -/
theorem engineByte_hostClean_hostStore (hm : s.mem.wf = true) {x : Span} (hx : x.has (a + k) = true) :
    engineByte (hostClean (hostStore s a w v) x) region (a + k) = BitVec.ofNat 8 (v.toNat / 256 ^ k) := by
  have hst : spansHave (hostStore s a w v).stale (a + k) = false := spansDrop_has _ _ _ (span_has_add a hk)
  have hset : (hostClean (hostStore s a w v) x).unsettled (a + k) = false := by
    have hu : spansHave (hostClean (hostStore s a w v) x).unclean (a + k) = false :=
      spansDrop_has _ _ _ (span_lines_has _ _ _ hx)
    have hst' : spansHave (hostClean (hostStore s a w v) x).stale (a + k) = false := hst
    rw [State.unsettled, hu, hst', Bool.false_and, Bool.or_false]
  rw [engineByte_settled hset, memRead_hostClean (memWriteBytes_wf _ _ _ _ hm), hst, Bool.and_false,
    if_neg Bool.false_ne_true]
  exact memRead_memWriteBytes_inside _ _ _ _ _ hm hk

end

/-! ## Without coherence: the host reads what the engine wrote -/

/-- In DONE a byte that the engine wrote is a free value until the host has looked and invalidated it, and then memory's
(70_reset_and_hazards.md R269). -/
theorem step_look_invalidate {s : State} {look : HostEvent} {rest : List HostEvent} {a : Nat} {x : Span} (hs : s.seq = .done)
    (hi : s.doneIp = true) (hl : LooksAt s look) (h : s.script = look :: .invalidate x :: rest) (hm : s.mem.wf = true)
    (hst : spansHave s.stale a = true) (hp : peersHide s.peers a = false) (hx : x.has a = true) :
    ∃ u v, step s = .next u ∧ hostByte u a = Config.anyByte [a, 2, u.draws] ∧ step u = .next v ∧
      hostByte v a = memRead s.mem a := by
  obtain ⟨hd, hu⟩ := step_look hs hi hl h
  have hr : s.running = none := running_of_not_busy (by simp [hs])
  have hno : ¬ ((x.lines s.platform.log2Line).has a && spansHave s.unclean a && !spansHave s.stale a) = true := by
    simp [hst]
  refine ⟨_, _, hu, hostByte_stale hst, step_of_script rfl, ?_⟩
  exact (hostByte_hostInvalidate (s := { s with script := rest, hostData := hd, unseen := [] }) hr (span_lines_has _ _ _ hx)
    rfl hp).trans ((memRead_hostInvalidate hm x a).trans (if_neg hno))

/-! ## Another engine's write and end -/

/-- A write of another engine leaves every other byte as it was, for the engine and for the host
(20_memory.md R81). -/
theorem peerStore_outside {s : State} (hm : s.mem.wf = true) {a x : Nat} (v : BitVec 64) (hx : x < a ∨ a + 8 ≤ x)
    (region : Nat) : memRead (peerStore s a v).mem x = memRead s.mem x ∧
      engineByte (peerStore s a v) region x = engineByte s region x ∧ hostByte (peerStore s a v) x = hostByte s x := by
  have hno : (⟨a, 8⟩ : Span).has x = false := (span_has_eq_false _ _).mpr hx
  have hmem : memRead (peerStore s a v).mem x = memRead s.mem x := memRead_memWriteBytes_outside _ _ _ _ _ hm hx
  have hst : spansHave (peerStore s a v).stale x = spansHave s.stale x := (endRun_outside s hno).1
  have hus : spansHave (peerStore s a v).unseen x = spansHave s.unseen x := (endRun_outside s hno).2.1
  have hph : peersHide (peerStore s a v).peers x = peersHide s.peers x := peersHide_rewritten_outside s.peers hno
  refine ⟨hmem, ?_, ?_⟩
  · rw [engineByte, engineByte, hmem, State.unsettled, State.unsettled, hst]
    rfl
  · rw [hostByte, hostByte, hmem, hst, hus, hph]
    rfl

/-- The engine reads the byte that another engine wrote, where no dirty line of the host covers it
(20_memory.md R78). -/
theorem engineByte_peerStore {s : State} (hm : s.mem.wf = true) {a k : Nat} (hk : k < 8) (v : BitVec 64) (region : Nat)
    (hd : spansHave s.dirtyLines (a + k) = false) :
    engineByte (peerStore s a v) region (a + k) = BitVec.ofNat 8 (v.toNat / 256 ^ k) := by
  have hu : spansHave s.unclean (a + k) = false :=
    Bool.eq_false_iff.mpr fun h => Bool.false_ne_true (hd.symm.trans (dirtyLines_of_unclean h))
  have hset : (peerStore s a v).unsettled (a + k) = false := by
    have hu' : spansHave (peerStore s a v).unclean (a + k) = false := hu
    have hd' : spansHave (peerStore s a v).dirtyLines (a + k) = false := hd
    rw [State.unsettled, hu', hd', Bool.and_false, Bool.or_false]
  rw [engineByte_settled hset]
  exact memRead_memWriteBytes_inside _ _ _ _ _ hm hk

theorem step_peerWrite_ignored {s : State} {a : Nat} (v : BitVec 64) (rest : List HostEvent)
    (h : ¬ s.peerMayWrite a = true) :
    step { s with script := .peerWrite a v :: rest } = .next { s with script := rest } :=
  if_neg h

theorem step_peerWrite_lands {s : State} {a : Nat} (v : BitVec 64) (rest : List HostEvent) (h : s.peerMayWrite a = true)
    (hd : ∀ d ∈ s.platform.device, d.overlaps ⟨a, 8⟩ = false) :
    step { s with script := .peerWrite a v :: rest } = .next (peerStore { s with script := rest } a v) :=
  (if_pos h).trans (if_neg (by simpa using hd))

/-- Once another engine has ended and the host has observed it, it hides nothing (70_reset_and_hazards.md R269). -/
theorem peersHide_peerSeen_peerEnd {s : State} {n a : Nat} (h : ∀ p ∈ s.peers, p.inst ≠ n → p.hides a = false) :
    peersHide (peerSeen (peerEnd s n) n).peers a = false := by
  have ended : ∀ p ∈ (peerEnd s n).peers, p.inst = n → p.busy = false := fun p hp hn => by
    obtain ⟨q, -, rfl⟩ := List.mem_map.mp hp
    split_ifs at hn ⊢ with hqn
    · rfl
    · exact absurd hn hqn
  have others : ∀ p ∈ (peerEnd s n).peers, p.inst ≠ n → p.hides a = false := fun p hp hn => by
    obtain ⟨q, hq, rfl⟩ := List.mem_map.mp hp
    split_ifs at hn ⊢ with hqn
    · exact absurd hqn hn
    · exact h q hq hn
  have seen : (peerSeen (peerEnd s n) n).peers = (peerEnd s n).peers.filter fun p => p.inst ≠ n :=
    if_neg (by simpa using fun p hp hb hn => absurd ((ended p hp hn).symm.trans hb) Bool.false_ne_true)
  rw [seen, peersHide, List.any_eq_false]
  intro p hp
  obtain ⟨hp, hn⟩ := List.mem_filter.mp hp
  simp [others p hp (of_decide_eq_true hn)]

/-- Settles O35, clause by clause: the host's store and clean, its maintenance steps, a result and its invalidate,
another engine's write, and its end. -/
theorem nonCoherentAccesses : Obligations.NonCoherentAccesses := by
  refine ⟨fun s a region k w v x rest hm hi ht hk hx => ?_, fun s x rest => ⟨rfl, rfl⟩,
    fun i s t a hm hi he hd ha hp => ?_, fun s a v rest hm hdev => ?_, fun s n a rest h => ?_⟩
  · exact ⟨_, _, step_write_memory v _ ht, step_of_script rfl, engineByte_hostStore hk v region hi,
      engineByte_hostClean_hostStore (s := { s with script := rest }) hk v region hm hx⟩
  · obtain ⟨-, rfl⟩ := exec_done he hd
    exact ⟨hostByte_doneWith _ ha, fun x rest hx hs => step_look_invalidate (s := doneWith i s (resultOf i s)) rfl
      (doneWith_doneIp ..) (.inl rfl) hs (storeWords_wf _ _ _ hm) (by simp [hi, ha]) (peersHide_doneWith _ ha hp) hx⟩
  · refine ⟨fun hn => step_peerWrite_ignored v rest (mt peerMayWrite_iff.mp hn),
      fun hc => ⟨_, step_peerWrite_lands v rest (peerMayWrite_iff.mpr hc) hdev, rfl,
        fun x region hx => peerStore_outside (s := { s with script := rest }) hm v hx region,
        fun k hk => ⟨memRead_memWriteBytes_inside _ _ _ _ _ hm hk, fun hi => ?_,
          fun region => engineByte_peerStore (s := { s with script := rest }) hm hk v region⟩⟩⟩
    simp [peerStore, hi, span_has_add a hk]
  · exact ⟨_, _, rfl, rfl, rfl, peersHide_peerSeen_peerEnd (s := { s with script := rest }) h⟩

end Sys2Proof.Machine
end

section
/-!
PROOFS. The command word (30_encoding.md R90-R103): encoder and decoder are inverse, the rows of the opcode map, and the
illegal words.
-/

namespace Sys2Proof

/-! ## Words and their fields -/

/-- The bitwise conjunction of two words, field by field. -/
def CmdFields.and (f g : CmdFields) : CmdFields :=
  ⟨f.op &&& g.op, f.eng &&& g.eng, f.fa && g.fa, f.fb && g.fb, f.herm && g.herm, f.res0 &&& g.res0⟩

theorem fieldsOf_and (w m : Word) : fieldsOf (w &&& m) = (fieldsOf w).and (fieldsOf m) := by
  simp [fieldsOf, CmdFields.and, BitVec.extractLsb'_and]

theorem fieldsOf_injective : Function.Injective fieldsOf := Function.LeftInverse.injective word_fieldsOf

/-- A word is a command's encoding exactly when its fields are the command's. -/
theorem encode_eq_iff {i : Instr} {w : Word} : encode i = w ↔ fieldsOf w = i.fields := by
  rw [← fieldsOf_injective.eq_iff, encode, fieldsOf_word, eq_comm]

@[simp] theorem bit_fmtOf (b : Bool) : (fmtOf b).bit = b := by cases b <;> rfl

/-! ## The rows of the opcode map -/

/-- The command a row reads from a word's free fields (30_encoding.md R95). -/
def OpcodeRow.command (r : OpcodeRow) (w : Word) : Instr :=
  r.make (fmtOf (fieldsOf w).fa) (fmtOf (fieldsOf w).fb) (fieldsOf w).herm

/-- A row's mask and match, compared field by field. -/
theorem selects_iff_fields (r : OpcodeRow) (w : Word) :
    r.selects w = true ↔ (fieldsOf w).and (fieldsOf r.mask) = fieldsOf r.value := by
  rw [OpcodeRow.selects, beq_iff_eq, ← fieldsOf_injective.eq_iff, fieldsOf_and]

/-- Every row selects exactly the words that encode the command it reads from them. -/
theorem selects_iff_encode {r : OpcodeRow} (hr : r ∈ opcodeRows) (w : Word) :
    r.selects w = true ↔ encode (r.command w) = w := by
  have allOp (x : BitVec 4) : x &&& 15#4 = x := BitVec.and_allOnes
  have allEng (x : BitVec 2) : x &&& 3#2 = x := BitVec.and_allOnes
  have allRes (x : BitVec 23) : x &&& 8388607#23 = x := BitVec.and_allOnes
  rw [selects_iff_fields, encode_eq_iff, OpcodeRow.command]
  generalize fieldsOf w = f
  obtain ⟨op, eng, fa, fb, herm, res⟩ := f
  simp only [opcodeRows, List.mem_cons, List.not_mem_nil, or_false] at hr
  rcases hr with rfl | rfl | rfl | rfl | rfl | rfl | rfl | rfl | rfl <;>
    simp [CmdFields.and, fieldsOf, Instr.fields, allOp, allEng, allRes]

theorem mnemonic_command {r : OpcodeRow} (hr : r ∈ opcodeRows) (w : Word) : (r.command w).mnemonic = r.mnemonic := by
  simp only [opcodeRows, List.mem_cons, List.not_mem_nil, or_false] at hr
  rcases hr with rfl | rfl | rfl | rfl | rfl | rfl | rfl | rfl | rfl <;> rfl

/-! ## Encoder and decoder are inverse -/

theorem encode_of_decode {w : Word} {i : Instr} (h : decode w = .ok i) : encode i = w := by
  unfold decode at h
  split at h
  · rename_i r hf
    cases h
    have hs : r.selects w = true := by simpa using List.find?_some hf
    exact (selects_iff_encode (List.mem_of_find?_eq_some hf) w).mp hs
  · cases h

theorem decode_encode (i : Instr) : decode (encode i) = .ok i := by
  cases i with
  | fft fa | fftR2 fa | fftBl fa => cases fa <;> decide
  | ifft fa herm | ifftR2 fa herm | ifftBl fa herm => cases fa <;> cases herm <;> decide
  | conv fa fb | cconv fa fb | nconv fa fb => cases fa <;> cases fb <;> decide

/-- Settles O2: each row selects exactly the encodings of the commands it reads, and every command's word decodes. -/
theorem decodeInvertsEncode : Obligations.DecodeInvertsEncode := by
  intro w i
  constructor
  · exact encode_of_decode
  · rintro rfl
    exact decode_encode i

/-- A word decodes to the command of any row it selects, so it selects one row at most. -/
theorem decode_of_selects {r : OpcodeRow} (hr : r ∈ opcodeRows) {w : Word} (h : w &&& r.mask = r.value) :
    decode w = .ok (r.command w) :=
  (decodeInvertsEncode w _).mpr ((selects_iff_encode hr w).mp (beq_iff_eq.mpr h))

/-- Settles O4: rows that select one word read the one command it decodes to. -/
theorem opcodeMap : Obligations.OpcodeMap := by
  refine ⟨rfl, fun w r hr r' hr' h h' => ?_, fun w r hr h => ?_⟩
  · have same : r.command w = r'.command w :=
      Except.ok.inj ((decode_of_selects hr h).symm.trans (decode_of_selects hr' h'))
    rw [← mnemonic_command hr w, same, mnemonic_command hr' w]
  · exact ⟨r.command w, decode_of_selects hr h, mnemonic_command hr w, rfl⟩

/-- Settles O3: each line of the table for every value of its free fields, and the example words. -/
theorem wordsOfTheSyntaxTable : Obligations.WordsOfTheSyntaxTable := by
  refine ⟨fun fa => ?_, fun fa fb => ?_, ?_⟩
  · cases fa <;> decide
  · cases fa <;> cases fb <;> decide
  · decide

/-! ## Illegal words -/

theorem wf_fields (i : Instr) : i.fields.wf = true := by
  cases i with
  | fft fa => exact (Laws.Row.fft fa).1
  | fftR2 fa => exact (Laws.Row.fftR2 fa).1
  | fftBl fa => exact (Laws.Row.fftBl fa).1
  | ifft fa herm => exact (Laws.Row.ifft fa herm).1
  | ifftR2 fa herm => exact (Laws.Row.ifftR2 fa herm).1
  | ifftBl fa herm => exact (Laws.Row.ifftBl fa herm).1
  | conv fa fb => exact (Laws.Row.conv fa fb).1
  | cconv fa fb => exact (Laws.Row.cconv fa fb).1
  | nconv fa fb => exact (Laws.Row.nconv fa fb).1

/-- A chain of checks reports an error when its first check fails or the rest of the chain reports one. -/
theorem check_ne_none (c : Prop) [Decidable c] (e : DecodeError) (rest : Option DecodeError) :
    (if c then some e else rest) ≠ none ↔ c ∨ rest ≠ none := by
  split <;> simp [*]

/-- The clauses of 30_encoding.md R96, each as a condition on the fields. -/
theorem wf_eq_false_iff (f : CmdFields) : f.wf = false ↔
    (f.op ≠ 1 ∧ f.op ≠ 2 ∧ f.op ≠ 4 ∧ f.op ≠ 5 ∧ f.op ≠ 6) ∨ f.eng = 3 ∨
    (f.eng ≠ 0 ∧ (f.op = 4 ∨ f.op = 5 ∨ f.op = 6)) ∨ (f.fb = true ∧ (f.op = 1 ∨ f.op = 2)) ∨
    (f.herm = true ∧ f.op ≠ 2) ∨ f.res0 ≠ 0 := by
  rw [CmdFields.wf, beq_eq_false_iff_ne]
  simp only [CmdFields.illegal, check_ne_none, CmdFields.isTransform, CmdFields.isConvolution, Bool.and_eq_true,
    Bool.not_eq_true', Bool.or_eq_true, Bool.or_eq_false_iff, beq_iff_eq, beq_eq_false_iff_ne, bne_iff_ne, ne_eq,
    not_true, or_false, and_assoc, or_assoc, and_comm (b := ¬ f.eng = 0), and_comm (b := f.fb = true)]

/-- Fields that pass 30_encoding.md R96 are a command's. -/
theorem exists_fields_of_wf {f : CmdFields} (h : f.wf = true) : ∃ i : Instr, f = i.fields := by
  have legal := mt (wf_eq_false_iff f).mpr (by simp [h])
  have engines : ∀ e : BitVec 2, e ≠ 3 → e = 0 ∨ e = 1 ∨ e = 2 := by decide
  obtain ⟨op, eng, fa, fb, herm, res⟩ := f
  simp only [not_or, not_and_or, not_not, Bool.not_eq_true] at legal
  obtain ⟨hop, heng, hconv, hfb, hherm, rfl⟩ := legal
  rcases hop with rfl | rfl | rfl | rfl | rfl
  · rcases engines eng heng with rfl | rfl | rfl
    · exact ⟨.fft (fmtOf fa), by simp_all [Instr.fields]⟩
    · exact ⟨.fftR2 (fmtOf fa), by simp_all [Instr.fields]⟩
    · exact ⟨.fftBl (fmtOf fa), by simp_all [Instr.fields]⟩
  · rcases engines eng heng with rfl | rfl | rfl
    · exact ⟨.ifft (fmtOf fa) herm, by simp_all [Instr.fields]⟩
    · exact ⟨.ifftR2 (fmtOf fa) herm, by simp_all [Instr.fields]⟩
    · exact ⟨.ifftBl (fmtOf fa) herm, by simp_all [Instr.fields]⟩
  · exact ⟨.conv (fmtOf fa) (fmtOf fb), by simp_all [Instr.fields]⟩
  · exact ⟨.cconv (fmtOf fa) (fmtOf fb), by simp_all [Instr.fields]⟩
  · exact ⟨.nconv (fmtOf fa) (fmtOf fb), by simp_all [Instr.fields]⟩

/-- A word decodes exactly when its fields pass 30_encoding.md R96. -/
theorem decodes_iff_wf (w : Word) : (∃ i, decode w = .ok i) ↔ (fieldsOf w).wf = true := by
  simp only [decodeInvertsEncode w _, encode_eq_iff]
  exact ⟨fun ⟨i, h⟩ => h ▸ wf_fields i, exists_fields_of_wf⟩

theorem illegal_iff_not_wf (w : Word) : (∃ e, decode w = .error e) ↔ (fieldsOf w).wf = false := by
  rw [← Bool.not_eq_true, ← decodes_iff_wf]
  cases decode w <;> simp

end Sys2Proof

namespace Sys2Proof.Machine

/-- Settles O5: the words whose fields fail R96, and START with one of them. -/
theorem illegalWords : Obligations.IllegalWords := by
  refine ⟨fun w => ?_, fun s hs ⟨e, he⟩ => ?_, .reservedOp, by decide⟩
  · rw [illegal_iff_not_wf]
    exact wf_eq_false_iff (fieldsOf w)
  · rw [writeReg_ctrl_one, start_illegal hs he]

end Sys2Proof.Machine
end

section
/-!
PROOFS. Infinities, zeros and NaNs of the binary64 operations (40_datapath.md R120, R121), and the complex unit
(R123-R127), whose sums and products commute but for NaN bits.
-/

namespace Sys2Proof.Machine

/-! ## Finite results out of range -/

/-- A signed quotient other than zero has the sign it is given. -/
theorem signedQuotient_neg_iff {neg : Bool} {n d : Nat} (h : signedQuotient neg n d ≠ 0) :
    signedQuotient neg n d < 0 ↔ neg = true := by
  have h0 : (0 : ℝ) ≤ (n : ℝ) / d / 2 ^ 1074 := by positivity
  unfold signedQuotient at *
  cases neg with
  | true =>
    rw [if_pos rfl, neg_one_mul, neg_div] at h ⊢
    exact iff_of_true (neg_lt_zero.mpr (lt_of_le_of_ne h0 (neg_ne_zero.mp h).symm)) rfl
  | false =>
    rw [if_neg Bool.false_ne_true, one_mul]
    exact iff_of_false h0.not_gt Bool.false_ne_true

theorem inRange_zero : InRange 0 := by
  rw [InRange, abs_zero, sub_pos]
  exact pow_lt_pow_right₀ one_lt_two (by norm_num)

/-- The signed rounding of a quotient out of range is the infinity of its sign (40_datapath.md R120). -/
theorem packF64_of_not_inRange {r : ℝ} {neg : Bool} {n d : Nat} (hd : 0 < d) (hr : r = signedQuotient neg n d)
    (h : ¬ InRange r) : packF64 neg (roundMag n d) = packF64 (decide (r < 0)) infMag := by
  subst hr
  have h0 : signedQuotient neg n d ≠ 0 := fun h0 => h (h0 ▸ inRange_zero)
  have hm : roundMag n d = infMag :=
    le_antisymm (roundMag_le_inf n d) (not_lt.mp fun hlt => h ((roundMag_lt_inf_iff_inRange hd neg).mp hlt))
  have hs : decide (signedQuotient neg n d < 0) = neg := by
    rw [Bool.eq_iff_iff, decide_eq_true_iff, signedQuotient_neg_iff h0]
  rw [hm, hs]

theorem addF_overflow (t : Site) {a b : F64} (ha : isFinite a = true) (hb : isFinite b = true)
    (h : ¬ InRange (realOf a + realOf b)) :
    addF t a b = packF64 (decide (realOf a + realOf b < 0)) infMag := by
  have hr := realOf_add_realOf a b
  have hx : intUnits a + intUnits b ≠ 0 := fun hx => h (by rw [hr, hx, Int.cast_zero, zero_div]; exact inRange_zero)
  rw [addF_finite t a b ha hb, if_neg hx]
  exact packF64_of_not_inRange one_pos (by rw [hr, signedQuotient_natAbs]) h

theorem subF_overflow (t : Site) {a b : F64} (ha : isFinite a = true) (hb : isFinite b = true)
    (h : ¬ InRange (realOf a - realOf b)) :
    subF t a b = packF64 (decide (realOf a - realOf b < 0)) infMag := by
  rw [sub_eq_add_neg, ← realOf_negF] at h ⊢
  exact addF_overflow t ha (by rwa [isFinite_negF]) h

theorem mulF_overflow (t : Site) {a b : F64} (ha : isFinite a = true) (hb : isFinite b = true)
    (h : ¬ InRange (realOf a * realOf b)) :
    mulF t a b = packF64 (decide (realOf a * realOf b < 0)) infMag := by
  rw [mulF_finite t a b ha hb]
  exact packF64_of_not_inRange (by positivity) (realOf_mul_realOf a b) h

theorem divF_overflow (t : Site) {a b : F64} (ha : isFinite a = true) (hb : isFinite b = true) (h0 : realOf b ≠ 0)
    (h : ¬ InRange (realOf a / realOf b)) :
    divF t a b = packF64 (decide (realOf a / realOf b < 0)) infMag := by
  have hu := unitsOf_ne_zero h0
  rw [divF_finite t a b ha hb hu]
  exact packF64_of_not_inRange (Nat.pos_of_ne_zero hu) (realOf_div_realOf a b) h

/-! ## Infinities, zeros and NaNs as encodings -/

theorem not_isNaN_of_isInf {x : F64} (h : isInf x = true) : isNaN x = false := by
  rw [isInf, beq_iff_eq] at h
  rw [isNaN, h, decide_eq_false_iff_not]
  exact lt_irrefl _

/-- An infinity is known by its sign. -/
theorem eq_packF64_of_isInf {x : F64} (h : isInf x = true) : x = packF64 (signBit x) infMag := by
  rw [isInf, beq_iff_eq] at h
  rw [← h, packF64_self]

@[simp] theorem isInf_negF (x : F64) : isInf (negF x) = isInf x := by simp [isInf]

/-- A packed value of a magnitude up to the infinities is no NaN. -/
theorem not_isNaN_packF64 {neg : Bool} {mag : Nat} (h : mag ≤ infMag) : isNaN (packF64 neg mag) = false := by
  rw [isNaN, magBits_packF64 (h.trans_lt infMag_lt), decide_eq_false_iff_not]
  exact h.not_gt

/-- The finite values that stand for 0 are those of no units. -/
theorem realOf_eq_zero_iff (x : F64) : realOf x = 0 ↔ unitsOf x = 0 :=
  ⟨fun h => by_contra fun hu => by
      rw [realOf_eq] at h
      have hs : (if signBit x then -1 else 1 : ℝ) ≠ 0 := by split_ifs <;> norm_num
      exact div_ne_zero (mul_ne_zero hs (Nat.cast_ne_zero.mpr hu)) (by positivity) h,
    fun h => by_contra fun hr => unitsOf_ne_zero hr h⟩

theorem unitsOf_eq_zero_iff (x : F64) : unitsOf x = 0 ↔ x = packF64 (signBit x) 0 := by
  rw [unitsOf, unitsOfMag_eq_zero]
  exact ⟨fun h => by rw [← h, packF64_self], fun h => by rw [h, magBits_packF64 (by norm_num)]⟩

theorem unitsOf_ne_zero_of_isInf {x : F64} (h : isInf x = true) : unitsOf x ≠ 0 := by
  rw [isInf, beq_iff_eq] at h
  rw [unitsOf, h, Ne, unitsOfMag_eq_zero]
  decide

/-- A value other than a NaN is finite or an infinity. -/
theorem isFinite_or_isInf {x : F64} (h : isNaN x = false) : isFinite x = true ∨ isInf x = true := by
  rcases f64_cases x with ⟨hn, -⟩ | ⟨-, hi, -⟩ | ⟨-, -, hf⟩
  · rw [hn] at h; cases h
  · exact .inr hi
  · exact .inl hf

/-! ## The operations on infinities and NaNs -/

theorem addF_nan (t : Site) {a b : F64} (h : isNaN a = true ∨ isNaN b = true) : addF t a b = nanF t := by
  rw [addF, if_pos (Bool.or_eq_true_iff.mpr h)]

theorem mulF_nan (t : Site) {a b : F64} (h : isNaN a = true ∨ isNaN b = true) : mulF t a b = nanF t := by
  rw [mulF, if_pos (Bool.or_eq_true_iff.mpr h)]

theorem divF_nan (t : Site) {a b : F64} (h : isNaN a = true ∨ isNaN b = true) : divF t a b = nanF t := by
  rw [divF, if_pos (Bool.or_eq_true_iff.mpr h)]

theorem addF_inf_inf (t : Site) {a b : F64} (ha : isInf a = true) (hb : isInf b = true) :
    addF t a b = if signBit a = signBit b then a else nanF t := by
  simp only [addF, not_isNaN_of_isInf ha, not_isNaN_of_isInf hb, ha, hb]
  cases signBit a <;> cases signBit b <;> rfl

theorem addF_inf_finite (t : Site) {a b : F64} (ha : isInf a = true) (hb : isFinite b = true) : addF t a b = a := by
  simp [addF, not_isNaN_of_isInf ha, not_isNaN_of_isFinite hb, ha, not_isInf_of_isFinite hb]

theorem addF_finite_inf (t : Site) {a b : F64} (ha : isFinite a = true) (hb : isInf b = true) : addF t a b = b := by
  simp [addF, not_isNaN_of_isFinite ha, not_isNaN_of_isInf hb, not_isInf_of_isFinite ha, hb]

/-- A product with an infinity: a NaN where the other operand is a zero. -/
theorem mulF_inf (t : Site) {a b : F64} (ha : isNaN a = false) (hb : isNaN b = false)
    (h : isInf a = true ∨ isInf b = true) :
    mulF t a b = if unitsOf a = 0 ∨ unitsOf b = 0 then nanF t else packF64 (signBit a != signBit b) infMag := by
  simp [mulF, ha, hb, h]

theorem mulF_inf_nonzero (t : Site) {a b : F64} (ha : isNaN a = false) (hb : isNaN b = false)
    (h : isInf a = true ∨ isInf b = true) (ua : unitsOf a ≠ 0) (ub : unitsOf b ≠ 0) :
    mulF t a b = packF64 (signBit a != signBit b) infMag := by
  rw [mulF_inf t ha hb h, if_neg (not_or.mpr ⟨ua, ub⟩)]

theorem divF_inf_inf (t : Site) {a b : F64} (ha : isInf a = true) (hb : isInf b = true) : divF t a b = nanF t := by
  simp [divF, not_isNaN_of_isInf ha, not_isNaN_of_isInf hb, ha, hb]

theorem divF_inf_finite (t : Site) {a b : F64} (ha : isInf a = true) (hb : isFinite b = true) :
    divF t a b = packF64 (signBit a != signBit b) infMag := by
  simp [divF, not_isNaN_of_isInf ha, not_isNaN_of_isFinite hb, ha, not_isInf_of_isFinite hb]

theorem divF_finite_inf (t : Site) {a b : F64} (ha : isFinite a = true) (hb : isInf b = true) :
    divF t a b = packF64 (signBit a != signBit b) 0 := by
  simp [divF, not_isNaN_of_isFinite ha, not_isNaN_of_isInf hb, not_isInf_of_isFinite ha, hb]

/-- A quotient by a zero: a NaN where the dividend is a zero too. -/
theorem divF_zero (t : Site) {a b : F64} (ha : isFinite a = true) (hb : isFinite b = true) (h : unitsOf b = 0) :
    divF t a b = if unitsOf a = 0 then nanF t else packF64 (signBit a != signBit b) infMag := by
  simp [divF, not_isNaN_of_isFinite ha, not_isNaN_of_isFinite hb, not_isInf_of_isFinite ha, not_isInf_of_isFinite hb, h]

/-- The infinity of a sign, as a literal. -/
theorem packF64_infMag (neg : Bool) :
    packF64 neg infMag = if neg then 0xFFF0000000000000 else 0x7FF0000000000000 := by
  cases neg <;> decide

/-- The zero of a sign, as a literal. -/
theorem packF64_zero (neg : Bool) : packF64 neg 0 = if neg then 0x8000000000000000 else 0 := by
  cases neg <;> decide

theorem eq_literal_of_isInf {x : F64} (h : isInf x = true) :
    x = if signBit x then 0xFFF0000000000000 else 0x7FF0000000000000 :=
  (eq_packF64_of_isInf h).trans (packF64_infMag _)

/-- Settles O42: a quotient out of range rounds to ∞, and each clause on an infinity or a zero divisor is one branch of
its operation. -/
theorem overflowGivesInfinity : Obligations.OverflowGivesInfinity := by
  refine ⟨fun t _ _ ha hb =>
    ⟨addF_overflow t ha hb, subF_overflow t ha hb, mulF_overflow t ha hb, divF_overflow t ha hb⟩, fun t a b => ?_⟩
  refine ⟨fun ha hb h => ?_, fun ha hb => ⟨?_, ?_⟩, fun ha hb => ⟨?_, ?_⟩, fun ha hb h => ?_, fun ha hb => ?_,
    fun ha hb h => ?_, fun ha h hb => ?_, fun ha hb => ?_, fun ha hb => ?_, fun ha h hb h0 => ?_⟩
  · rw [addF_inf_inf t ha hb, if_pos h]
    exact eq_literal_of_isInf ha
  · rw [addF_inf_finite t ha hb]
    exact eq_literal_of_isInf ha
  · rw [subF, addF_inf_finite t ha (by rwa [isFinite_negF])]
    exact eq_literal_of_isInf ha
  · rw [addF_finite_inf t ha hb]
    exact eq_literal_of_isInf hb
  · rw [subF, addF_finite_inf t ha (by rwa [isInf_negF]), ← signBit_negF]
    exact eq_literal_of_isInf (by rwa [isInf_negF])
  · rw [subF, addF_inf_inf t ha (by rwa [isInf_negF]), signBit_negF, if_pos (Bool.eq_not_of_ne h)]
    exact eq_literal_of_isInf ha
  · rw [mulF_inf_nonzero t (not_isNaN_of_isInf ha) (not_isNaN_of_isInf hb) (.inl ha) (unitsOf_ne_zero_of_isInf ha)
      (unitsOf_ne_zero_of_isInf hb)]
    exact packF64_infMag _
  · rw [mulF_inf_nonzero t (not_isNaN_of_isInf ha) (not_isNaN_of_isFinite hb) (.inl ha) (unitsOf_ne_zero_of_isInf ha)
      (unitsOf_ne_zero h)]
    exact packF64_infMag _
  · rw [mulF_inf_nonzero t (not_isNaN_of_isFinite ha) (not_isNaN_of_isInf hb) (.inr hb) (unitsOf_ne_zero h)
      (unitsOf_ne_zero_of_isInf hb)]
    exact packF64_infMag _
  · rw [divF_inf_finite t ha hb]
    exact packF64_infMag _
  · rw [divF_finite_inf t ha hb]
    exact packF64_zero _
  · rw [divF_zero t ha hb ((realOf_eq_zero_iff b).mp h0), if_neg (unitsOf_ne_zero h)]
    exact packF64_infMag _

/-! ## The signs of zero results -/

/-- Two finite values that sum to 0, both with the sign bit set, are both -0. -/
theorem negZero_of_signs {a b : F64} (h : intUnits a + intUnits b = 0) :
    (signBit a = true ∧ signBit b = true) ↔ (a = negZeroF ∧ b = negZeroF) := by
  constructor
  · rintro ⟨ha, hb⟩
    rw [intUnits, intUnits, ha, hb, if_pos rfl, if_pos rfl] at h
    have za := (unitsOf_eq_zero_iff a).mp (by omega)
    have zb := (unitsOf_eq_zero_iff b).mp (by omega)
    rw [ha] at za
    rw [hb] at zb
    exact ⟨za, zb⟩
  · rintro ⟨rfl, rfl⟩
    decide

theorem intUnits_add_eq_zero {a b : F64} (h : realOf a + realOf b = 0) : intUnits a + intUnits b = 0 := by
  rw [realOf_add_realOf, div_eq_zero_iff, or_iff_left (by positivity)] at h
  exact_mod_cast h

/-- An exact zero sum of finite operands (40_datapath.md R120). -/
theorem addF_eq_zero (t : Site) {a b : F64} (ha : isFinite a = true) (hb : isFinite b = true)
    (h : realOf a + realOf b = 0) : addF t a b = if a = negZeroF ∧ b = negZeroF then negZeroF else zeroF := by
  have hx := intUnits_add_eq_zero h
  rw [addF_finite t a b ha hb, if_pos hx, packF64_zero]
  simp only [Bool.and_eq_true, negZero_of_signs hx]
  rfl

theorem negF_eq_negZeroF (x : F64) : negF x = negZeroF ↔ x = zeroF := by
  rw [show negZeroF = negF zeroF from rfl]
  exact ⟨fun h => by rw [← negF_negF x, h, negF_negF], fun h => by rw [h]⟩

theorem subF_eq_zero (t : Site) {a b : F64} (ha : isFinite a = true) (hb : isFinite b = true)
    (h : realOf a - realOf b = 0) : subF t a b = if a = negZeroF ∧ b = zeroF then negZeroF else zeroF := by
  rw [subF, addF_eq_zero t ha (by rwa [isFinite_negF]) (by rwa [realOf_negF, ← sub_eq_add_neg])]
  simp only [negF_eq_negZeroF]

/-- Settles O43: the exact zeros of sums and differences, and the sign that a product and a quotient are packed with. -/
theorem signsOfZero : Obligations.SignsOfZero := by
  intro t a b ha hb
  refine ⟨?_, addF_eq_zero t ha hb, subF_eq_zero t ha hb, ?_, fun h => ?_⟩
  · rw [subF_eq_zero t ha ha (sub_self _), if_neg]
    rintro ⟨rfl, h⟩
    exact absurd h (by decide)
  · rw [mulF_finite t a b ha hb, signBit_packF64 ((roundMag_le_inf _ _).trans_lt infMag_lt)]
  · rw [divF_finite t a b ha hb (unitsOf_ne_zero h), signBit_packF64 ((roundMag_le_inf _ _).trans_lt infMag_lt)]

/-! ## NaN results -/

/-- A sum without NaN operands is a NaN exactly where infinities of opposite signs meet. -/
theorem isNaN_addF_iff (t : Site) (a b : F64) : isNaN (addF t a b) = true ↔
    isNaN a = true ∨ isNaN b = true ∨ (isInf a = true ∧ isInf b = true ∧ signBit a ≠ signBit b) := by
  rcases f64_cases a with ⟨na, -⟩ | ⟨na, ia, -⟩ | ⟨na, ia, fa⟩
  · simp [addF_nan t (.inl na), na]
  · rcases f64_cases b with ⟨nb, -⟩ | ⟨nb, ib, -⟩ | ⟨nb, ib, fb⟩
    · simp [addF_nan t (.inr nb), nb]
    · rw [addF_inf_inf t ia ib]
      split_ifs with h <;> simp [na, nb, ia, ib, h]
    · simp [addF_inf_finite t ia fb, na, nb, ib]
  · rcases f64_cases b with ⟨nb, -⟩ | ⟨nb, ib, -⟩ | ⟨nb, ib, fb⟩
    · simp [addF_nan t (.inr nb), nb]
    · simp [addF_finite_inf t fa ib, na, nb, ia]
    · rw [addF_finite t a b fa fb]
      split_ifs <;> simp [not_isNaN_packF64, roundMag_le_inf, na, nb, ia]

theorem isNaN_subF_iff (t : Site) (a b : F64) : isNaN (subF t a b) = true ↔
    isNaN a = true ∨ isNaN b = true ∨ (isInf a = true ∧ isInf b = true ∧ signBit a = signBit b) := by
  rw [subF, isNaN_addF_iff, isNaN_negF, isInf_negF, signBit_negF, Bool.ne_not]

/-- A product without NaN operands is a NaN exactly where an infinity meets a zero. -/
theorem isNaN_mulF_iff (t : Site) (a b : F64) : isNaN (mulF t a b) = true ↔
    isNaN a = true ∨ isNaN b = true ∨ (isInf a = true ∧ realOf b = 0 ∧ isFinite b = true) ∨
      (isInf b = true ∧ realOf a = 0 ∧ isFinite a = true) := by
  simp only [realOf_eq_zero_iff]
  rcases f64_cases a with ⟨na, -⟩ | ⟨na, ia, fa⟩ | ⟨na, ia, fa⟩
  · simp [mulF_nan t (.inl na), na]
  · rcases f64_cases b with ⟨nb, -⟩ | ⟨nb, ib, fb⟩ | ⟨nb, ib, fb⟩
    · simp [mulF_nan t (.inr nb), nb]
    · simp [mulF_inf t na nb (.inl ia), unitsOf_ne_zero_of_isInf, not_isNaN_packF64, na, nb, ia, ib, fa, fb]
    · simp only [mulF_inf t na nb (.inl ia), or_iff_right (unitsOf_ne_zero_of_isInf ia)]
      split_ifs with h <;> simp [not_isNaN_packF64, na, nb, ia, ib, fb, h]
  · rcases f64_cases b with ⟨nb, -⟩ | ⟨nb, ib, fb⟩ | ⟨nb, ib, fb⟩
    · simp [mulF_nan t (.inr nb), nb]
    · simp only [mulF_inf t na nb (.inr ib), or_iff_left (unitsOf_ne_zero_of_isInf ib)]
      split_ifs with h <;> simp [not_isNaN_packF64, na, nb, ia, ib, fa, h]
    · rw [mulF_finite t a b fa fb, not_isNaN_packF64 (roundMag_le_inf _ _)]
      simp [na, nb, ia, ib]

/-- A quotient without NaN operands is a NaN exactly at ∞/∞ and 0/0. -/
theorem isNaN_divF_iff (t : Site) (a b : F64) : isNaN (divF t a b) = true ↔
    isNaN a = true ∨ isNaN b = true ∨ (isInf a = true ∧ isInf b = true) ∨
      (isFinite a = true ∧ realOf a = 0 ∧ isFinite b = true ∧ realOf b = 0) := by
  simp only [realOf_eq_zero_iff]
  rcases f64_cases a with ⟨na, -⟩ | ⟨na, ia, fa⟩ | ⟨na, ia, fa⟩
  · simp [divF_nan t (.inl na), na]
  · rcases f64_cases b with ⟨nb, -⟩ | ⟨nb, ib, -⟩ | ⟨nb, ib, fb⟩
    · simp [divF_nan t (.inr nb), nb]
    · simp [divF_inf_inf t ia ib, ia, ib]
    · simp [divF_inf_finite t ia fb, not_isNaN_packF64, na, nb, ib, fa]
  · rcases f64_cases b with ⟨nb, -⟩ | ⟨nb, ib, fb⟩ | ⟨nb, ib, fb⟩
    · simp [divF_nan t (.inr nb), nb]
    · simp [divF_finite_inf t fa ib, not_isNaN_packF64, na, nb, ia, fb]
    · by_cases hb : unitsOf b = 0
      · rw [divF_zero t fa fb hb]
        split_ifs with ha <;> simp [not_isNaN_packF64, na, nb, ia, fa, fb, ha, hb]
      · rw [divF_finite t a b fa fb hb, not_isNaN_packF64 (roundMag_le_inf _ _)]
        simp [na, nb, ia, hb]

/-- Settles O44, operation by operation. -/
theorem nanResults : Obligations.NaNResults := fun t a b =>
  ⟨isNaN_addF_iff t a b, isNaN_subF_iff t a b, isNaN_divF_iff t a b, isNaN_mulF_iff t a b⟩

/-! ## The complex unit -/

theorem SameButNaN.trans {x y z : F64} (h : SameButNaN x y) (h' : SameButNaN y z) : SameButNaN x z := by
  rcases h with rfl | ⟨hx, hy⟩
  · exact h'
  · exact .inr ⟨hx, by rwa [← h'.isNaN_eq]⟩

/-- Binary64 addition is commutative except for NaN bits. -/
theorem addF_comm_same (t t' : Site) (a b : F64) : SameButNaN (addF t a b) (addF t' b a) := by
  by_cases hn : isNaN a = true ∨ isNaN b = true
  · rw [addF_nan t hn, addF_nan t' hn.symm]
    exact sameButNaN_nanF t t'
  · obtain ⟨na, nb⟩ := not_or.mp hn
    rcases isFinite_or_isInf (Bool.eq_false_iff.mpr na) with fa | ia <;>
      rcases isFinite_or_isInf (Bool.eq_false_iff.mpr nb) with fb | ib
    · rw [addF_finite t a b fa fb, addF_finite t' b a fb fa, Int.add_comm, Bool.and_comm]
      exact .refl _
    · rw [addF_finite_inf t fa ib, addF_inf_finite t' ib fa]
      exact .refl _
    · rw [addF_inf_finite t ia fb, addF_finite_inf t' fb ia]
      exact .refl _
    · rw [addF_inf_inf t ia ib, addF_inf_inf t' ib ia]
      by_cases hs : signBit a = signBit b
      · rw [if_pos hs, if_pos hs.symm, eq_packF64_of_isInf ia, eq_packF64_of_isInf ib, hs]
        exact .refl _
      · rw [if_neg hs, if_neg (Ne.symm hs)]
        exact sameButNaN_nanF t t'

/-- Binary64 multiplication is commutative except for NaN bits: only its NaN results depend on the site. -/
theorem mulF_comm_same (t t' : Site) (a b : F64) : SameButNaN (mulF t a b) (mulF t' b a) := by
  have comm : mulF t a b = mulF t b a := by
    simp only [mulF, Bool.or_comm (isNaN a), Bool.or_comm (isInf a), Bool.or_comm (decide (unitsOf a = 0)),
      Nat.mul_comm (unitsOf a), bne_comm (a := signBit a)]
  rw [comm]
  exact mulF_same (.refl _) (.refl _)

theorem cadd_comm_same (t t' : Site) (p q : C64) : SameC (cadd t p q) (cadd t' q p) :=
  ⟨addF_comm_same _ _ _ _, addF_comm_same _ _ _ _⟩

theorem cmul_comm_same (t t' : Site) (p q : C64) : SameC (cmul t p q) (cmul t' q p) :=
  ⟨subF_same (mulF_comm_same _ _ _ _) (mulF_comm_same _ _ _ _),
    (addF_comm_same _ [] _ _).trans (addF_same (mulF_comm_same _ _ _ _) (mulF_comm_same _ _ _ _))⟩

/-- Settles O45: the formulas are the model's, with their sites in the order of the statement. -/
theorem complexUnitCommutes : Obligations.ComplexUnitCommutes := by
  intro t p q
  refine ⟨⟨fun k => [0, 1, 0, 1, 0, 1, 2, 3, 4, 5, 0, 1].getD k 0 :: t, rfl, rfl, rfl, rfl, fun d h1 h2 => ?_⟩,
    (cadd_comm_same t t p q).1, (cadd_comm_same t t p q).2, (cmul_comm_same t t p q).1, (cmul_comm_same t t p q).2⟩
  obtain ⟨hf, hr⟩ := natF_exact h1 (h2.trans_lt (by norm_num))
  exact ⟨natF d, hf, hr, rfl⟩

end Sys2Proof.Machine
end

section
/-!
PROOFS. The sine/cosine generator and the twiddle ROM (40_datapath.md R130-R133): Gen is a table over the quadrant of
its angle, and the table's parts are correctly rounded, symmetric, and what the ROM derives.
-/

namespace Sys2Proof.Machine

/-! ## Negation that keeps an exact zero -/

theorem negNonzero_zeroF : negNonzero zeroF = zeroF := if_pos rfl

theorem negNonzero_ne_negZeroF {x : F64} : negNonzero x ≠ negZeroF := by
  unfold negNonzero
  split_ifs with h
  · decide
  · rwa [Ne, negF_eq_negZeroF]

theorem negNonzero_negNonzero {x : F64} (h : x ≠ negZeroF) : negNonzero (negNonzero x) = x := by
  by_cases hx : x = zeroF
  · rw [hx, negNonzero_zeroF, negNonzero_zeroF]
  · have hn : negF x ≠ zeroF := fun h0 => h (by rw [← negF_negF x, h0]; rfl)
    rw [negNonzero, negNonzero, if_neg hx, if_neg hn, negF_negF]

/-- Both directions negate alike. -/
theorem signed_negNonzero (s : Direction) (x : F64) : signed s (negNonzero x) = negNonzero (signed s x) := by
  cases s <;> rfl

theorem signed_zeroF (s : Direction) : signed s zeroF = zeroF := by cases s <;> rfl

theorem signed_ne_negZeroF (s : Direction) {x : F64} (h : x ≠ negZeroF) : signed s x ≠ negZeroF := by
  cases s with
  | inverse => exact h
  | forward => exact negNonzero_ne_negZeroF

theorem cosQuarter_one : cosQuarter 1 = zeroF := if_pos rfl

theorem cosQuarter_ne_negZeroF (q : ℚ) : cosQuarter q ≠ negZeroF := by
  obtain ⟨m, hm, h⟩ := cosQuarter_pos q
  intro hz
  have hs : signBit (packF64 false m) = signBit negZeroF := by rw [← h, hz]
  rw [signBit_packF64 hm] at hs
  exact absurd hs (by decide)

/-! ## Gen as a table over the quadrant -/

/-- Gen at the angle (π/2)·(k + q), by the quadrant k. -/
def quadrantGen (q : ℚ) (s : Direction) : Nat → C64
  | 0 => ⟨cosQuarter q, signed s (cosQuarter (1 - q))⟩
  | 1 => ⟨negNonzero (cosQuarter (1 - q)), signed s (cosQuarter q)⟩
  | 2 => ⟨negNonzero (cosQuarter q), signed s (negNonzero (cosQuarter (1 - q)))⟩
  | _ => ⟨cosQuarter (1 - q), signed s (negNonzero (cosQuarter q))⟩

theorem quadrantGen_three (q : ℚ) (s : Direction) :
    quadrantGen q s 3 = ⟨cosQuarter (1 - q), signed s (negNonzero (cosQuarter q))⟩ := rfl

/-- The end of a quadrant is the start of the next one. -/
theorem quadrantGen_end (s : Direction) {k : Nat} (hk : k ≤ 3) : quadrantGen 1 s k = quadrantGen 0 s ((k + 1) % 4) := by
  have h0 := negNonzero_negNonzero (cosQuarter_ne_negZeroF 0)
  interval_cases k <;> simp [quadrantGen, cosQuarter_one, negNonzero_zeroF, signed_zeroF]

theorem gen_mod (r D : Nat) (s : Direction) : gen (r % D) D s = gen r D s := by
  rw [gen, gen, Nat.mod_mod]

/-- Gen of an angle whose quadrant is k, 0 ≤ m/D ≤ 1 of it (40_datapath.md R130). -/
theorem gen_eq_quadrantGen {r D k m : Nat} (s : Direction) (hD : 0 < D) (hk : k ≤ 3) (hm : m ≤ D)
    (h : 4 * r = k * D + m) : gen r D s = quadrantGen ((m : ℚ) / D) s k := by
  have inside : ∀ {r k m : Nat}, r < D → m < D → 4 * r = k * D + m → gen r D s = quadrantGen ((m : ℚ) / D) s k :=
    fun {r k m} hr hm h => by
      rw [gen_quadrant r D k m s hD hr h hm]
      rfl
  have hD' : (D : ℚ) ≠ 0 := Nat.cast_ne_zero.mpr hD.ne'
  rcases hm.lt_or_eq with hm | rfl
  · have hle : k * D ≤ 3 * D := Nat.mul_le_mul_right D hk
    exact inside (by omega) hm h
  · have start : ∀ {r k : Nat}, r < m → 4 * r = k * m → gen r m s = quadrantGen 0 s k := fun hr h => by
      rw [inside (m := 0) hr hD h, Nat.cast_zero, zero_div]
    rw [div_self hD', quadrantGen_end s hk]
    rcases hk.lt_or_eq with hk | rfl
    · have hle : (k + 1) * m ≤ 3 * m := Nat.mul_le_mul_right m hk
      rw [Nat.succ_mul] at hle
      rw [Nat.mod_eq_of_lt (by omega)]
      exact start (by omega) (by rw [h, Nat.succ_mul])
    · obtain rfl : r = m := by omega
      rw [← gen_mod, Nat.mod_self]
      exact start hD (by omega)

/-- Every angle lies in a quadrant. -/
theorem exists_quadrant (r : Nat) {D : Nat} (hD : 0 < D) : ∃ k m, k ≤ 3 ∧ m ≤ D ∧ 4 * (r % D) = k * D + m := by
  have hr := Nat.mod_lt r hD
  refine ⟨4 * (r % D) / D, 4 * (r % D) % D, ?_, (Nat.mod_lt _ hD).le, ?_⟩
  · rw [Nat.lt_succ_iff.symm, Nat.div_lt_iff_lt_mul hD]
    omega
  · rw [Nat.mul_comm (_ / D), Nat.div_add_mod]

/-! ## Correct rounding -/

/-- A correct rounding in the spec's form, where an exact zero gives +0 (40_datapath.md R130). -/
def IsRNEPos (r : ℝ) (v : F64) : Prop := IsRNE r v ∧ v ≠ negZeroF

/-- Correct rounding does not tell the zeros apart. -/
theorem IsRNE.zeroF_of_negZeroF {r : ℝ} (h : IsRNE r negZeroF) : IsRNE r zeroF := by
  have hz : realOf negZeroF = realOf zeroF := by
    rw [show negZeroF = negF zeroF from rfl, realOf_negF, realOf_zeroF, neg_zero]
  refine ⟨by decide, fun w hw => ?_, fun _ _ _ _ => rfl⟩
  rw [← hz]
  exact h.nearest w hw

theorem IsRNEPos.negNonzero {r : ℝ} {v : F64} (h : IsRNEPos r v) : IsRNEPos (-r) (negNonzero v) := by
  refine ⟨?_, negNonzero_ne_negZeroF⟩
  have hn := h.1.neg
  unfold Machine.negNonzero
  split_ifs with hv
  · subst hv
    exact hn.zeroF_of_negZeroF
  · exact hn

theorem IsRNEPos.signed {r : ℝ} {v : F64} (s : Direction) (h : IsRNEPos r v) :
    IsRNEPos (Direction.sign s * r) (signed s v) := by
  cases s with
  | inverse => rwa [Direction.sign, one_mul]
  | forward => rw [Direction.sign, neg_one_mul]; exact h.negNonzero

/-- The table's parts are the rounded cosine and sine of (π/2)·(k + q). -/
theorem quadrantGen_isRNEPos {q : ℚ} (h0 : 0 ≤ q) (h1 : q ≤ 1) (s : Direction) {k : Nat} (hk : k ≤ 3) :
    IsRNEPos (Real.cos (Real.pi / 2 * (k + q))) (quadrantGen q s k).re ∧
    IsRNEPos (Direction.sign s * Real.sin (Real.pi / 2 * (k + q))) (quadrantGen q s k).im := by
  have c : IsRNEPos (Real.cos (Real.pi / 2 * q)) (cosQuarter q) := ⟨cosQuarter_isRNE q h0 h1, cosQuarter_ne_negZeroF q⟩
  have n : IsRNEPos (Real.sin (Real.pi / 2 * q)) (cosQuarter (1 - q)) := by
    refine ⟨?_, cosQuarter_ne_negZeroF _⟩
    have h := cosQuarter_isRNE (1 - q) (by linarith) (by linarith)
    rwa [Rat.cast_sub, Rat.cast_one, mul_sub, mul_one, Real.cos_pi_div_two_sub] at h
  interval_cases k
  · rw [show Real.pi / 2 * ((0 : ℕ) + q) = Real.pi / 2 * q by push_cast; ring]
    exact ⟨c, n.signed s⟩
  · rw [show Real.pi / 2 * ((1 : ℕ) + q) = Real.pi / 2 * q + Real.pi / 2 by push_cast; ring, Real.cos_add_pi_div_two,
      Real.sin_add_pi_div_two]
    exact ⟨n.negNonzero, c.signed s⟩
  · rw [show Real.pi / 2 * ((2 : ℕ) + q) = Real.pi / 2 * q + Real.pi by push_cast; ring, Real.cos_add_pi,
      Real.sin_add_pi]
    exact ⟨c.negNonzero, n.negNonzero.signed s⟩
  · rw [show Real.pi / 2 * ((3 : ℕ) + q) = Real.pi / 2 * q + Real.pi + Real.pi / 2 by push_cast; ring,
      Real.cos_add_pi_div_two, Real.sin_add_pi_div_two, Real.sin_add_pi, Real.cos_add_pi, neg_neg]
    exact ⟨n, c.negNonzero.signed s⟩

/-- Settles O46: the angle's quadrant, and the table's parts there. -/
theorem generatorIsCorrectlyRounded : Obligations.GeneratorIsCorrectlyRounded := by
  intro r D s hD
  obtain ⟨k, m, hk, hm, h⟩ := exists_quadrant r hD
  have hD' : (0 : ℝ) < D := Nat.cast_pos.mpr hD
  have hq : (m : ℚ) / D ≤ 1 := (div_le_one (Nat.cast_pos.mpr hD)).mpr (Nat.cast_le.mpr hm)
  have angle : 2 * Real.pi * ((r % D : ℕ) : ℝ) / D = Real.pi / 2 * (k + ((m / D : ℚ) : ℝ)) := by
    have hc : 4 * ((r % D : ℕ) : ℝ) = k * D + m := by exact_mod_cast h
    push_cast
    field_simp
    linarith
  obtain ⟨⟨hc, hc0⟩, hs, hs0⟩ := quadrantGen_isRNEPos (by positivity) hq s hk
  rw [← gen_mod, gen_eq_quadrantGen s hD hk hm h, angle]
  exact ⟨hc, hs, hc0, hs0⟩

/-! ## Exact values and symmetries -/

theorem cosQuarter_zero : cosQuarter 0 = 0x3FF0000000000000 := by decide +kernel

theorem cosQuarter_two_thirds : cosQuarter (2 / 3) = 0x3FE0000000000000 := by decide +kernel

/-- The opposite angle lies at 1 - q in the quadrant 3 - k. -/
theorem quadrantGen_opposite (q : ℚ) (s : Direction) {k : Nat} (hk : k ≤ 3) :
    (quadrantGen (1 - q) s (3 - k)).re = (quadrantGen q s k).re ∧
    (quadrantGen (1 - q) s (3 - k)).im = negNonzero (quadrantGen q s k).im := by
  have hc := negNonzero_negNonzero (signed_ne_negZeroF s (cosQuarter_ne_negZeroF q))
  have hn := negNonzero_negNonzero (signed_ne_negZeroF s (cosQuarter_ne_negZeroF (1 - q)))
  interval_cases k <;> simp [quadrantGen, signed_negNonzero, hc, hn]

/-- The directions share the cosine, and the forward sine is the inverse one's negation. -/
theorem quadrantGen_directions (q : ℚ) (k : Nat) :
    (quadrantGen q .inverse k).re = (quadrantGen q .forward k).re ∧
    (quadrantGen q .forward k).im = negNonzero (quadrantGen q .inverse k).im := by
  unfold quadrantGen
  split <;> exact ⟨rfl, rfl⟩

theorem gen_ne_negZeroF (r : Nat) {D : Nat} (s : Direction) (hD : 0 < D) : (gen r D s).im ≠ negZeroF :=
  (generatorIsCorrectlyRounded r D s hD).2.2.2

/-- Settles O47: each value is an entry of the table, and each symmetry is one of the table's. -/
theorem generatorValuesAndSymmetries : Obligations.GeneratorValuesAndSymmetries := by
  intro r D s hD hr
  have hD' : (D : ℚ) ≠ 0 := Nat.cast_ne_zero.mpr hD.ne'
  have start : ∀ {k}, k ≤ 3 → 4 * r = k * D → gen r D s = quadrantGen 0 s k := fun hk h => by
    rw [gen_eq_quadrantGen (m := 0) s hD hk (Nat.zero_le D) h, Nat.cast_zero, zero_div]
  obtain ⟨k, m, hk, hm, h⟩ := exists_quadrant r hD
  rw [Nat.mod_eq_of_lt hr] at h
  have table : ∀ s, gen r D s = quadrantGen (m / D) s k := fun s => gen_eq_quadrantGen s hD hk hm h
  refine ⟨fun h => ?_, fun h => ?_, fun h => ?_, fun h => ?_, fun h => ?_, fun h => ?_, ?_, ?_⟩
  · rw [start (k := 0) (by omega) (by omega), quadrantGen, cosQuarter_zero, sub_zero, cosQuarter_one, signed_zeroF]
  · rw [start (k := 1) (by omega) (by omega), quadrantGen, cosQuarter_zero, sub_zero, cosQuarter_one, negNonzero_zeroF]
    cases s <;> rfl
  · rw [start (k := 2) (by omega) (by omega), quadrantGen, cosQuarter_zero, sub_zero, cosQuarter_one, negNonzero_zeroF,
      signed_zeroF]
    rfl
  · rw [start (k := 3) (by omega) (by omega), quadrantGen_three, cosQuarter_zero, sub_zero, cosQuarter_one]
    cases s <;> rfl
  · have hq : ((4 * r : ℕ) : ℚ) / D = 2 / 3 := (div_eq_div_iff hD' three_ne_zero).mpr (by norm_cast; omega)
    rw [gen_eq_quadrantGen (k := 0) (m := 4 * r) s hD (by omega) (by omega) (by omega), quadrantGen, hq,
      cosQuarter_two_thirds]
  · have hq : (r : ℚ) / D = 1 / 3 := (div_eq_div_iff hD' three_ne_zero).mpr (by norm_cast; omega)
    rw [gen_eq_quadrantGen (k := 1) (m := r) s hD (by omega) (by omega) (by omega), quadrantGen, hq,
      show (1 - 1 / 3 : ℚ) = 2 / 3 by norm_num, cosQuarter_two_thirds]
    rfl
  · obtain ⟨hre, him⟩ := quadrantGen_directions (m / D) k
    rw [← table, ← table] at hre him
    exact ⟨hre, by rw [him, negNonzero_negNonzero (gen_ne_negZeroF r _ hD)], him⟩
  · have ho : gen (D - r) D s = quadrantGen (1 - m / D) s (3 - k) := by
      have hle : k * D ≤ 3 * D := Nat.mul_le_mul_right D hk
      rw [gen_eq_quadrantGen (k := 3 - k) (m := D - m) s hD (by omega) (by omega) (by rw [Nat.sub_mul]; omega),
        Nat.cast_sub hm, sub_div, div_self hD']
    rw [ho, table s]
    exact quadrantGen_opposite _ s hk

/-! ## The twiddle ROM -/

/-- Entry t is the cosine at a/m of the quarter wave, where 4t is to LMAX as a is to m. -/
theorem romEntry_eq {m c t a : Nat} (hc : 0 < c) (h : 4 * t = a * c) : romEntry (m * c) t = cosQuarter (a / m) := by
  rw [romEntry, h, Nat.cast_mul, Nat.cast_mul, mul_div_mul_right _ _ (Nat.cast_ne_zero.mpr hc.ne')]

theorem one_sub_div_eq {a m : Nat} (hm : 0 < m) (h : a ≤ m) : 1 - (a : ℚ) / m = ((m - a : ℕ) : ℚ) / m := by
  rw [Nat.cast_sub h, sub_div, div_self (Nat.cast_ne_zero.mpr hm.ne')]

/-- The ROM derives Gen for a period m whose multiple m·c is LMAX, a multiple of 4 (40_datapath.md R133). -/
theorem romTwiddle_eq_gen {m c d j : Nat} (s : Direction) (hm : 0 < m) (hc : 0 < c) (hd : m * c = 4 * d)
    (hj : 2 * j < m) : romTwiddle (m * c) j m s = gen j m s := by
  have ht : 4 * (j * c) = 4 * j * c := (Nat.mul_assoc 4 j c).symm
  have hquarter : m * c / 4 = d := by omega
  have hhalf : m * c / 2 = 2 * d := by omega
  have hside : j * c ≤ d ↔ 4 * j ≤ m := by
    rw [← Nat.mul_le_mul_right_iff (m := m) hc, hd]
    omega
  simp only [romTwiddle, Nat.mul_div_cancel_left c hm, hquarter, hhalf, hside]
  split_ifs with h
  · rw [gen_eq_quadrantGen (k := 0) s hm (by omega) h (by omega), quadrantGen, one_sub_div_eq hm h,
      romEntry_eq hc ht, romEntry_eq (a := m - 4 * j) hc (by rw [Nat.sub_mul]; omega)]
  · rw [gen_eq_quadrantGen (k := 1) (m := 4 * j - m) s hm (by omega) (by omega) (by omega), quadrantGen,
      one_sub_div_eq hm (by omega), show m - (4 * j - m) = 2 * m - 4 * j by omega,
      romEntry_eq (a := 2 * m - 4 * j) hc (by rw [Nat.sub_mul, Nat.mul_assoc 2]; omega),
      romEntry_eq (a := 4 * j - m) hc (by rw [Nat.sub_mul]; omega)]

/-- Settles O48: a power of two m up to LMAX divides it, and LMAX ≥ 4 is a multiple of 4. -/
theorem romEqualsGenerator : Obligations.RomEqualsGenerator := by
  intro l k j s hl _ hk hj
  have hsplit : 2 ^ l = 2 ^ k * 2 ^ (l - k) := by rw [← pow_add, Nat.add_sub_cancel' hk]
  have hfour : 2 ^ l = 4 * 2 ^ (l - 2) := by rw [show 4 = 2 ^ 2 from rfl, ← pow_add, Nat.add_sub_cancel' hl]
  rw [hsplit]
  exact romTwiddle_eq_gen s (by positivity) (by positivity) (hsplit.symm.trans hfour) hj

end Sys2Proof.Machine
end

section
/-!
PROOFS. The engines' schedules (40_datapath.md R136, R139-R142; 41_transforms.md R163, R166, R173): the reversed index
bit by bit, the real path's spectrum element by element, the Bluestein engine's steps, and the source's scenario.
-/

namespace Sys2Proof.Machine

/-! ## The bit reversal of an index -/

theorem bitrev_testBit (b : Nat) : ∀ i k, k < b → (bitrev b i).testBit k = i.testBit (b - 1 - k) := by
  induction b with
  | zero => intro i k hk; omega
  | succ b ih =>
    intro i k hk
    rw [bitrev, Nat.mul_comm, Nat.testBit_two_pow_mul_add _ (bitrev_lt b _)]
    split_ifs with h
    · rw [ih _ _ h, Nat.testBit_div_two]
      congr 1
      omega
    · rw [show k - b = 0 by omega, show b + 1 - 1 - k = 0 by omega, Nat.testBit_zero, Nat.testBit_zero, Nat.mod_mod]

/-- Settles O49: reversing the places twice gives the index back. -/
theorem bitReversalOfAnIndex : Obligations.BitReversalOfAnIndex := by
  intro b i hi
  refine ⟨bitrev_testBit b i, bitrev_lt b i, Nat.eq_of_testBit_eq fun k => ?_⟩
  rcases Nat.lt_or_ge k b with hk | hk
  · rw [bitrev_testBit b _ k hk, bitrev_testBit b _ _ (by omega)]
    congr 1
    omega
  · have high : ∀ {n}, n < 2 ^ b → n.testBit k = false := fun hn =>
      Nat.testBit_lt_two_pow (hn.trans_le (Nat.pow_le_pow_right two_pos hk))
    rw [high hi, high (bitrev_lt b _)]

/-! ## The real path -/

/-- The packing puts even samples in real parts and odd samples in imaginary parts (41_transforms.md R163). -/
theorem packReal_eq {x : List F64} {h : Nat} (hx : x.length = 2 * h) :
    packReal x = (List.range h).map fun m => ⟨x.getD (2 * m) zeroF, x.getD (2 * m + 1) zeroF⟩ := by
  refine List.ext_getElem? fun m => ?_
  rcases Nat.lt_or_ge m h with hm | hm
  · rw [packReal, pairUp_get x m (by omega), List.getElem?_map, List.getElem?_range hm]
    rfl
  · rw [List.getElem?_eq_none (by rwa [packReal, pairUp_length h x hx]),
      List.getElem?_eq_none (by rwa [List.length_map, List.length_range])]

/-- Two ends with the first parts of n pairs after one and their second parts, reversed, after the other: a pair's parts
lie at equal distances up and down from the first end. -/
theorem getD_mirrored {α} (p q d : α) (f : Nat → α × α) (n : Nat) :
    let x := p :: ((List.range n).map f).map Prod.fst ++ q :: (((List.range n).map f).map Prod.snd).reverse
    x.getD (n + 1) d = q ∧ ∀ i < n, x.getD (i + 1) d = (f i).1 ∧ x.getD (2 * (n + 1) - (i + 1)) d = (f i).2 := by
  have hfirst : (p :: ((List.range n).map f).map Prod.fst).length = n + 1 := by simp
  refine ⟨?_, fun i hi => ⟨?_, ?_⟩⟩
  · rw [getD_append_second _ _ _ _ hfirst.le, hfirst, Nat.sub_self, List.getD_cons_zero]
  · rw [getD_append_first _ _ _ _ (by omega), List.getD_cons_succ, List.map_map, getD_map_range _ _ _ _ hi,
      Function.comp_apply]
  · rw [getD_append_second _ _ _ _ (by omega), hfirst, show 2 * (n + 1) - (i + 1) - (n + 1) = n - 1 - i + 1 by omega,
      List.getD_cons_succ, List.map_map, List.getD_eq_getElem?_getD,
      List.getElem?_reverse (by simp; omega), List.length_map, List.length_range,
      show n - 1 - (n - 1 - i) = i by omega, ← List.getD_eq_getElem?_getD, getD_map_range _ _ _ _ hi,
      Function.comp_apply]

/-- The unpacked spectrum of N = 2h elements: its two real bins, and the pairs in between (41_transforms.md R163). -/
theorem unpackReal_getD (t : Site) (z : List C64) (s : Direction) {h : Nat} (h1 : 1 ≤ h) :
    let X := unpackReal t z (2 * h) s
    let ends := real2 (0 :: t) (z.getD 0 zeroC).re (z.getD 0 zeroC).im
    X.getD 0 zeroC = ends.1 ∧ X.getD h zeroC = ends.2 ∧ ∀ k, 1 ≤ k → k < h →
      let pair := rrec ((k - 1) :: 1 :: t) (z.getD k zeroC) (z.getD (h - k) zeroC) k (2 * h) s
      X.getD k zeroC = pair.1 ∧ X.getD (2 * h - k) zeroC = pair.2 := by
  obtain ⟨n, rfl⟩ := Nat.exists_eq_add_of_le' h1
  rw [unpackReal, Nat.mul_div_cancel_left _ two_pos, Nat.add_sub_cancel]
  intro X ends
  obtain ⟨hmid, hpairs⟩ := getD_mirrored ends.1 ends.2 zeroC (fun i => rrec (i :: 1 :: t) (z.getD (i + 1) zeroC)
    (z.getD (n + 1 - (i + 1)) zeroC) (i + 1) (2 * (n + 1)) s) n
  refine ⟨rfl, hmid, fun k hk1 hk => ?_⟩
  obtain ⟨i, rfl⟩ := Nat.exists_eq_add_of_le' hk1
  exact hpairs i (by omega)

theorem cconj_cconj (z : C64) : cconj (cconj z) = z := by rw [cconj, cconj, negF_negF]

/-- Settles O52: the unpacking's pairs are conjugate, and an index above N/2 is the partner of one below. -/
theorem realSpectrumIsConjugate : Obligations.RealSpectrumIsConjugate := by
  intro t x s b hb hx
  obtain ⟨c, rfl⟩ : ∃ c, b = c + 1 := ⟨b - 1, by omega⟩
  have hN : 2 ^ (c + 1) = 2 * 2 ^ c := pow_succ' 2 c
  have hpos : 1 ≤ 2 ^ c := Nat.one_le_two_pow
  have hX : r2r t x s = unpackReal (0 :: t) (r2c (1 :: t) (packReal x) s) (2 * 2 ^ c) s := by
    rw [r2r, if_neg (by omega), hx, hN]
  have hlen : (r2r t x s).length = 2 * 2 ^ c := by
    rw [hX, unpackReal_length _ _ _ _ (by omega) (by omega)]
  obtain ⟨X0, Xh, Xk⟩ := unpackReal_getD (0 :: t) (r2c (1 :: t) (packReal x) s) s hpos
  rw [← hX] at X0 Xh Xk
  simp only [hN, Nat.mul_div_cancel_left _ two_pos]
  have conj : ∀ k, 1 ≤ k → k < 2 ^ c →
      (r2r t x s).getD (2 * 2 ^ c - k) zeroC = cconj ((r2r t x s).getD k zeroC) := fun k h1 hk => by
    rw [(Xk k h1 hk).1, (Xk k h1 hk).2]
    rfl
  rw [packReal_eq (hx.trans hN)] at X0 Xh Xk
  refine ⟨hlen, ⟨1 :: t, 0 :: 0 :: 0 :: t, 1 :: 0 :: 0 :: t, X0, Xh, fun k h1 hk => ?_⟩, fun k h1 hk hne => ?_⟩
  · exact ⟨fun j => j :: (k - 1) :: 1 :: 0 :: t, Xk k h1 hk⟩
  · rcases Nat.lt_or_ge k (2 ^ c) with hlt | hge
    · exact conj k h1 hlt
    · have h := conj (2 * 2 ^ c - k) (by omega) (by omega)
      rw [Nat.sub_sub_self hk.le] at h
      rw [h, cconj_cconj]

/-! ## The Bluestein engine -/

/-- What BLU does with its chirps c and its transform length P (41_transforms.md R166). -/
def chirpTransform (t : Site) (x c : List C64) (P : Nat) : List C64 :=
  let A := r2c (1 :: t) (padComplex (pmul (0 :: t) x c) P) .forward
  let B := r2c (2 :: t) (chirpKernel c P) .forward
  let q := r2c (4 :: t) (pmul (3 :: t) A B) .inverse
  pmul (5 :: t) c (divAll (6 :: t) (q.take x.length) P)

theorem bluestein_eq_chirpTransform (t : Site) {x : List C64} (s : Direction) (h : 2 ≤ x.length) :
    bluestein t x s = chirpTransform t x (chirps x.length s) (nextPow2 (2 * x.length - 1)) := by
  rw [bluestein, if_neg (by omega)]
  rfl

/-- Its steps, with as many chirps as elements and a power of two at least that for P: every step gets sequences of the
length it needs. -/
theorem chirpTransform_steps (t : Site) {x c : List C64} {P : Nat} (hc : c.length = x.length)
    (hpow : isPow2 P = true) (hle : x.length ≤ P) :
    ∃ (u v w : Site) (a Q d : List C64), IsProduct x c a ∧
      IsProduct (r2c u (a ++ List.replicate (P - x.length) zeroC) .forward) (r2c v (chirpKernel c P) .forward) Q ∧
      Q.length = P ∧ IsQuotient (r2c w Q .inverse) d x.length P ∧ IsProduct c d (chirpTransform t x c P) := by
  have transform : ∀ {u y s}, List.length y = P → (r2c u y s).length = P := fun {u y s} hy =>
    (r2c_length u y s (by rwa [hy])).trans hy
  have ha : (pmul (0 :: t) x c).length = x.length := by rw [pmul_length, hc, min_self]
  have hA : (r2c (1 :: t) (padComplex (pmul (0 :: t) x c) P) .forward).length = P :=
    transform (by rw [padComplex_length, ha, max_eq_right hle])
  have hB : (r2c (2 :: t) (chirpKernel c P) .forward).length = P := transform (chirpKernel_length c P)
  have hpad : pmul (0 :: t) x c ++ List.replicate (P - x.length) zeroC = padComplex (pmul (0 :: t) x c) P := by
    rw [padComplex, ha]
  have hQ := pmul_isProduct (3 :: t) _ _ (hA.trans hB.symm)
  have hq := transform (u := 4 :: t) (s := .inverse) (hQ.1.trans hA)
  have hd := divAll_isQuotient (6 :: t) _ x.length P (hle.trans_eq hq.symm)
  exact ⟨1 :: t, 2 :: t, 4 :: t, _, _, _, pmul_isProduct (0 :: t) x c hc.symm, by rw [hpad]; exact hQ,
    hQ.1.trans hA, hd, pmul_isProduct (5 :: t) c _ (hc.trans hd.1.symm)⟩

/-- Settles O54: these are the steps of BLU, with the chirps of its length. -/
theorem bluesteinSchedule : Obligations.BluesteinSchedule := by
  intro t x s h
  have hle := le_nextPow2 (2 * x.length - 1)
  rw [bluestein_eq_chirpTransform t s h]
  exact chirpTransform_steps t (chirps_length x.length s) (isPow2_nextPow2 _) (by omega)

/-! ## The source's scenario -/

/-- A sequence without NaNs that is the same as another but for NaN bits is that sequence. -/
theorem SameList.eq {x y : List C64} (h : SameList x y) (hy : ∀ z ∈ y, isNaN z.re = false ∧ isNaN z.im = false) :
    x = y := by
  induction h with
  | nil => rfl
  | @cons p q _ _ hpq _ ih =>
    obtain ⟨hre, him⟩ := hy q List.mem_cons_self
    have same : ∀ {u v : F64}, SameButNaN u v → isNaN v = false → u = v := fun huv hv =>
      huv.resolve_right fun ⟨_, hn⟩ => by rw [hv] at hn; cases hn
    have hp : p = q := congrArg₂ C64.mk (same hpq.1 hre) (same hpq.2 him)
    rw [hp, ih fun z hz => hy z (List.mem_cons_of_mem q hz)]

/-- The four twiddles of a DFT of length 4 are powers of -i. -/
theorem dft4_twiddle (k n : Nat) :
    Complex.exp ((Direction.sign .forward * (2 * Real.pi * (k * n) / (4 : ℕ)) : ℝ) * Complex.I) =
      (-Complex.I) ^ (k * n) := by
  have h : Complex.exp (-(Real.pi / 2 * Complex.I)) = -Complex.I := by
    rw [Complex.exp_neg, Complex.exp_pi_div_two_mul_I, Complex.inv_I]
  rw [← h, ← Complex.exp_nat_mul]
  congr 1
  rw [Direction.sign]
  push_cast
  ring

/-- The reference DFT of the ramp 0, 1, 2, 3. -/
theorem refDft_ramp {x : List C64} (hl : x.length = 4) (hx : ∀ n < 4, complexOf (x.getD n zeroC) = n) (k : Nat) :
    refDft .forward x k = (-Complex.I) ^ k + 2 * (-Complex.I) ^ (2 * k) + 3 * (-Complex.I) ^ (3 * k) := by
  unfold refDft
  simp only [hl, dft4_twiddle]
  rw [Finset.sum_congr rfl fun n hn => by rw [hx n (Finset.mem_range.mp hn)]]
  simp [Finset.sum_range_succ, Nat.mul_comm k]

/-- A complex value whose parts are whole numbers. -/
theorem complexOf_of_intUnits {z : C64} (a b : ℤ) (hre : intUnits z.re = a * 2 ^ 1074)
    (him : intUnits z.im = b * 2 ^ 1074) : complexOf z = a + b * Complex.I := by
  have whole : ∀ {x : F64} {n : ℤ}, intUnits x = n * 2 ^ 1074 → realOf x = n := fun h => by
    rw [realOf, h, Int.cast_mul, Int.cast_pow, Int.cast_ofNat]
    exact mul_div_cancel_right₀ _ (by positivity)
  rw [complexOf, whole hre, whole him]
  apply Complex.ext <;> simp

/-- A result that is the reference DFT exactly meets the contract. -/
theorem meetsContract_of_exact {s : Direction} {x y : List C64}
    (h : ∀ k < x.length, complexOf (y.getD k zeroC) = refDft s x k) : MeetsContract s x y := by
  intro k hk
  rw [h k hk, sub_self, sub_self, abs_zero]
  constructor <;> positivity

/-- The ramp 0, 1, 2, 3 of the source's scenario, and its transform (41_transforms.md R173). -/
def ramp : List F64 := [0x0000000000000000, 0x3FF0000000000000, 0x4000000000000000, 0x4008000000000000]

def rampSpectrum : List C64 := [⟨0x4018000000000000, 0x0000000000000000⟩, ⟨0xC000000000000000, 0x4000000000000000⟩,
  ⟨0xC000000000000000, 0x0000000000000000⟩, ⟨0xC000000000000000, 0xC000000000000000⟩]

/-- The transform of the ramp, at one site by evaluation, so at every site, since no NaN comes up. -/
theorem xform_ramp (t : Site) : xform t (.real ramp) .forward .auto = rampSpectrum := by
  have same : SameList (xform t (.real ramp) .forward .auto) (xform [] (.real ramp) .forward .auto) :=
    xform_same (.same _) _ _
  rw [show xform [] (.real ramp) .forward .auto = rampSpectrum by decide +kernel] at same
  exact same.eq (by decide)

theorem complexOf_ramp : ∀ n < 4, complexOf ((ramp.map promote).getD n zeroC) = n := by
  intro n hn
  have h : intUnits ((ramp.map promote).getD n zeroC).re = (n : ℤ) * 2 ^ 1074 ∧
      intUnits ((ramp.map promote).getD n zeroC).im = 0 * 2 ^ 1074 := by
    revert n
    decide +kernel
  rw [complexOf_of_intUnits n 0 h.1 h.2]
  simp

theorem complexOf_rampSpectrum : ∀ k < 4,
    complexOf (rampSpectrum.getD k zeroC) = refDft .forward (ramp.map promote) k := by
  intro k hk
  rw [refDft_ramp rfl complexOf_ramp]
  interval_cases k
  · rw [complexOf_of_intUnits 6 0 (by decide +kernel) (by decide +kernel)]
    norm_num
  · rw [complexOf_of_intUnits (-2) 2 (by decide +kernel) (by decide +kernel)]
    norm_num [pow_succ]
    ring
  · rw [complexOf_of_intUnits (-2) 0 (by decide +kernel) (by decide +kernel)]
    norm_num [pow_succ]
  · rw [complexOf_of_intUnits (-2) (-2) (by decide +kernel) (by decide +kernel)]
    norm_num [pow_succ]
    ring

/-- Settles O56: the result is exact. -/
theorem scenarioMeetsContract : Obligations.ScenarioMeetsContract :=
  fun t => ⟨xform_ramp t, meetsContract_of_exact complexOf_rampSpectrum⟩

end Sys2Proof.Machine
end

section
/-!
PROOFS. The radix-2 schedule, the kernel of the Bluestein engine, the dispatcher and the capacities (41_transforms.md
R160-R170, R176; 42_convolution.md R204, R207, R209).
-/

namespace Sys2Proof.Machine

/-! ## The radix-2 engine -/

/-- The stages up to the τ-th on a sequence of 2^b elements in bit-reversed order (41_transforms.md R160). -/
def stagePrefix (t : Site) (x : List C64) (s : Direction) (b τ : Nat) : List C64 :=
  stages t s (2 ^ b) 0 τ (bitReverse x)

theorem stagePrefix_succ (t : Site) (x : List C64) (s : Direction) (b τ : Nat) :
    stagePrefix t x s b (τ + 1) = stage (τ :: t) s (2 ^ τ) (2 ^ b / 2 ^ (τ + 1)) (stagePrefix t x s b τ) := by
  rw [stagePrefix, stages_succ, Nat.zero_add, stagePrefix]

/-- The blocks of stage τ are the whole sequence. -/
theorem length_eq_blocks {a : List C64} {b τ : Nat} (ha : a.length = 2 ^ b) (hτ : τ < b) :
    a.length = 2 ^ b / 2 ^ (τ + 1) * (2 * 2 ^ τ) := by
  rw [← pow_succ', Nat.div_mul_cancel (pow_dvd_pow 2 hτ), ha]

section
variable (t : Site) {x : List C64} (s : Direction) {b : Nat} (hx : x.length = 2 ^ b)
include hx

theorem bitReverse_getD {i : Nat} (hi : i < 2 ^ b) : (bitReverse x).getD i zeroC = x.getD (bitrev b i) zeroC := by
  rw [bitReverse, hx, Nat.log2_two_pow, getD_map_range _ _ _ _ hi]

/-- Also at length 1, where R2C is the identity and there is no stage. -/
theorem r2c_eq_stagePrefix : r2c t x s = stagePrefix t x s b b := by
  rcases Nat.eq_zero_or_pos b with rfl | hb
  · obtain ⟨z, rfl⟩ := List.length_eq_one_iff.mp hx
    rfl
  · rw [r2c, if_neg (by rw [hx]; exact (Nat.one_lt_two_pow hb.ne').not_ge), hx, Nat.log2_two_pow, stagePrefix]

theorem stagePrefix_length {τ : Nat} (hτ : τ ≤ b) : (stagePrefix t x s b τ).length = 2 ^ b := by
  induction τ with
  | zero => exact (bitReverse_length x).trans hx
  | succ τ ih =>
    have hprev := ih (Nat.le_of_succ_le hτ)
    rw [stagePrefix_succ, stage_length _ _ _ _ _ (length_eq_blocks hprev hτ), hprev]

/-- One more stage is a butterfly of length 2^(τ+1) on every pair of every block. -/
theorem stagePrefix_succ_getD {τ g j : Nat} (hτ : τ < b) (hg : g < 2 ^ b / 2 ^ (τ + 1)) (hj : j < 2 ^ τ) :
    let top := g * 2 ^ (τ + 1) + j
    let a := stagePrefix t x s b τ
    let a' := stagePrefix t x s b (τ + 1)
    ∃ u, a'.getD top zeroC = (butterfly u (a.getD top zeroC) (a.getD (top + 2 ^ τ) zeroC) j (2 ^ (τ + 1)) s).1 ∧
      a'.getD (top + 2 ^ τ) zeroC =
        (butterfly u (a.getD top zeroC) (a.getD (top + 2 ^ τ) zeroC) j (2 ^ (τ + 1)) s).2 := by
  have blocks := length_eq_blocks (stagePrefix_length t s hx hτ.le) hτ
  have pair := stage_getD (τ :: t) s (2 ^ τ) (by positivity) _ _ blocks g hg j hj
  rwa [← stagePrefix_succ, ← pow_succ'] at pair

end

/-- Settles O50: the chain is the sequence after each stage. -/
theorem radixTwoSchedule : Obligations.RadixTwoSchedule := by
  refine ⟨fun _ _ => rfl, fun t x s b hx => ⟨stagePrefix t x s b, r2c_eq_stagePrefix t s hx,
    fun τ hτ => stagePrefix_length t s hx hτ, fun i hi => bitReverse_getD hx hi, fun τ hτ g hg j hj => ?_⟩⟩
  obtain ⟨u, hsum, hdiff⟩ := stagePrefix_succ_getD t s hx hτ hg hj
  exact ⟨fun k => k :: u, hsum, hdiff⟩

/-! ## The Bluestein kernel -/

section
variable {c : List C64} {P n : Nat}

theorem chirpKernel_low (hn : n < c.length) (hP : c.length ≤ P) :
    (chirpKernel c P).getD n zeroC = cconj (c.getD n zeroC) := by
  rw [chirpKernel, getD_map_range _ _ _ _ (by omega), if_pos hn]

/-- The upper copy starts above the lower one, since P is at least 2N - 1. -/
theorem chirpKernel_high (h1 : 1 ≤ n) (hn : n < c.length) (hP : 2 * c.length - 1 ≤ P) :
    (chirpKernel c P).getD (P - n) zeroC = cconj (c.getD n zeroC) := by
  have hsub : P - (P - n) = n := by omega
  rw [chirpKernel, getD_map_range _ _ _ _ (by omega), if_neg (by omega), hsub, if_pos hn]

theorem chirpKernel_between (h0 : 1 ≤ c.length) (hn : c.length ≤ n) (hP : n ≤ P - c.length) :
    (chirpKernel c P).getD n zeroC = zeroC := by
  rw [chirpKernel, getD_map_range _ _ _ _ (by omega), if_neg (by omega), if_neg (by omega)]

/-- A lag from j up to i is read in the lower copy, a lag down in the upper one. -/
theorem chirpKernel_lag {i j : Nat} (hi : i < c.length) (hj : j < c.length) (hP : 2 * c.length - 1 ≤ P) :
    (chirpKernel c P).getD ((i + (P - j)) % P) zeroC = cconj (c.getD ((i : Int) - j).natAbs zeroC) := by
  rcases Nat.lt_or_ge i j with h | h
  · have hidx : (i + (P - j)) % P = P - (j - i) := by
      rw [Nat.mod_eq_of_lt (by omega)]
      omega
    rw [hidx, chirpKernel_high (by omega) (by omega) hP, show ((i : Int) - j).natAbs = j - i by omega]
  · have hidx : (i + (P - j)) % P = i - j := by
      rw [show i + (P - j) = i - j + P by omega, Nat.add_mod_right, Nat.mod_eq_of_lt (by omega)]
    rw [hidx, chirpKernel_low (by omega) (by omega), show ((i : Int) - j).natAbs = i - j by omega]

end

/-- Settles O53: the two copies of the chirps do not meet. -/
theorem bluesteinKernelLayout : Obligations.BluesteinKernelLayout := fun _ _ _ h1 hP =>
  ⟨fun hn => chirpKernel_low hn (by omega), fun hpos hn => chirpKernel_high hpos hn hP, chirpKernel_between h1,
    fun _ _ hi hj => chirpKernel_lag hi hj hP⟩

/-! ## The dispatcher -/

theorem usesRadix2_auto (n : Nat) : usesRadix2 .auto n = isPow2 n := rfl

theorem usesRadix2_radix2 (n : Nat) : usesRadix2 .radix2 n = true := rfl

theorem usesRadix2_bluestein (n : Nat) : usesRadix2 .bluestein n = false := rfl

/-- The dispatcher asks the operand only for its length (41_transforms.md R170). -/
theorem xform_eq_of_usesRadix2 {e f : Engine} {x : Operand} (h : usesRadix2 e x.length = usesRadix2 f x.length)
    (t : Site) (s : Direction) : xform t x s e = xform t x s f := by
  cases x with
  | real xs | complex zs =>
    rw [Operand.length] at h
    rw [xform, xform, h]

theorem r2c_of_length_le_one (t : Site) {x : List C64} (s : Direction) (h : x.length ≤ 1) : r2c t x s = x :=
  if_pos h

theorem r2r_of_length_le_one (t : Site) {x : List F64} (s : Direction) (h : x.length ≤ 1) :
    r2r t x s = x.map promote :=
  if_pos h

theorem bluestein_of_length_le_one (t : Site) {x : List C64} (s : Direction) (h : x.length ≤ 1) :
    bluestein t x s = x :=
  if_pos h

/-- At lengths 0 and 1 both engines are the identity, after promotion (41_transforms.md R161, R164, R167). -/
theorem xform_radix2_eq_bluestein (t : Site) {x : Operand} (s : Direction) (h : x.length ≤ 1) :
    xform t x s .radix2 = xform t x s .bluestein := by
  cases x with
  | real xs =>
    have hb : bluestein t (xs.map promote) s = xs.map promote :=
      bluestein_of_length_le_one t s (by rwa [List.length_map])
    exact (r2r_of_length_le_one t s h).trans hb.symm
  | complex zs => exact (r2c_of_length_le_one t s h).trans (bluestein_of_length_le_one t s h).symm

/-- Settles O55: is_pow2 decides for AUTO. -/
theorem dispatcherRule : Obligations.DispatcherRule := by
  intro t x s
  refine ⟨by cases x <;> rfl, by cases x <;> rfl, fun h => ?_, fun ⟨h0, hk⟩ => ?_, xform_radix2_eq_bluestein t s,
    xform_auto_length t x s⟩
  · apply xform_eq_of_usesRadix2
    rw [usesRadix2_auto, usesRadix2_radix2, isPow2_iff]
    exact h
  · apply xform_eq_of_usesRadix2
    rw [usesRadix2_auto, usesRadix2_bluestein, Bool.eq_false_iff, ne_eq, isPow2_iff]
    exact fun h => h.elim h0 fun ⟨k, e⟩ => hk k e

/-! ## The degenerate lengths -/

theorem bitReverse_pair (z w : C64) : bitReverse [z, w] = [z, w] := by
  have hlog : [z, w].length.log2 = 1 := Nat.log2_two_pow (n := 1)
  rw [bitReverse, hlog]
  rfl

/-- Two elements go through one butterfly without a multiply (41_transforms.md R161). -/
theorem r2c_pair (t : Site) (z w : C64) (s : Direction) :
    r2c t [z, w] s = [cadd (1 :: 0 :: 0 :: 0 :: t) z w, csub (2 :: 0 :: 0 :: 0 :: t) z w] := by
  rw [r2c_eq_stagePrefix (b := 1) t s rfl, stagePrefix, bitReverse_pair]
  rfl

/-- Of two real elements only the two real bins remain (41_transforms.md R163). -/
theorem unpackReal_singleton (t : Site) (z : C64) (s : Direction) :
    unpackReal t [z] 2 s = [(real2 (0 :: t) z.re z.im).1, (real2 (0 :: t) z.re z.im).2] := rfl

/-- Two real elements make one complex one, whose transform is itself (41_transforms.md R164). -/
theorem r2r_pair (t : Site) (x y : F64) (s : Direction) :
    r2r t [x, y] s = [(real2 (0 :: 0 :: t) x y).1, (real2 (0 :: 0 :: t) x y).2] := by
  have hpack : r2c (1 :: t) (packReal [x, y]) s = [⟨x, y⟩] := r2c_of_length_le_one (1 :: t) s le_rfl
  rw [r2r, if_neg (by simp), hpack]
  exact unpackReal_singleton (0 :: t) _ s

/-- Settles O51: up to one element the engines are the identity, and two go through one butterfly or one REAL2. -/
theorem degenerateLengths : Obligations.DegenerateLengths := fun t s z w x y =>
  ⟨r2c_of_length_le_one t s (by simp), r2c_of_length_le_one t s (by simp), ⟨_, _, r2c_pair t z w s⟩,
    r2r_of_length_le_one t s (by simp), r2r_of_length_le_one t s (by simp), ⟨_, _, r2r_pair t x y s⟩,
    bluestein_of_length_le_one t s (by simp), bluestein_of_length_le_one t s (by simp)⟩

/-! ## The capacities -/

/-- A padded length fits in a power of two exactly when the length to be padded does. -/
theorem nextPow2_le_two_pow_iff (n l : Nat) : nextPow2 n ≤ 2 ^ l ↔ n ≤ 2 ^ l := ⟨(le_nextPow2 n).trans, nextPow2_le⟩

theorem transformFits_radix2 (l n : Nat) : transformFits (2 ^ l) .radix2 n = true ↔ n ≤ 2 ^ l := decide_eq_true_iff

theorem transformFits_bluestein (l n : Nat) :
    transformFits (2 ^ l) .bluestein n = true ↔ n ≤ 1 ∨ 2 * n - 1 ≤ 2 ^ l := by
  rw [transformFits, usesRadix2_bluestein, if_neg Bool.false_ne_true]
  split_ifs with h2
  · rw [decide_eq_true_iff, nextPow2_le_two_pow_iff, or_iff_right (by omega)]
  · exact iff_of_true rfl (.inl (by omega))

theorem circularFits_iff (l n : Nat) : circularFits (2 ^ l) n = true ↔
    n ≤ 1 ∨ ((∃ k, n = 2 ^ k) ∧ n ≤ 2 ^ l) ∨ ((∀ k, n ≠ 2 ^ k) ∧ 2 * n - 1 ≤ 2 ^ l) := by
  rw [circularFits]
  by_cases h2 : 2 ≤ n
  · have hpow : isPow2 n = true ↔ ∃ k, n = 2 ^ k := by rw [isPow2_iff, or_iff_right (by omega)]
    have hne : (∀ k, n ≠ 2 ^ k) ↔ ¬ ∃ k, n = 2 ^ k := not_exists.symm
    rw [if_pos h2, hne, ← hpow, or_iff_right (by omega)]
    split_ifs with hp
    · simp [hp]
    · simp [hp, nextPow2_le_two_pow_iff]
  · rw [if_neg h2]
    exact iff_of_true rfl (.inl (by omega))

/-- AUTO needs what a circular convolution does: lengths 0 and 1 fit in any LMAX (41_transforms.md R176). -/
theorem transformFits_auto (l n : Nat) : transformFits (2 ^ l) .auto n = circularFits (2 ^ l) n := by
  by_cases h2 : 2 ≤ n
  · simp [transformFits, circularFits, usesRadix2_auto, h2]
  · have hle : n ≤ 2 ^ l := (show n ≤ 1 by omega).trans Nat.one_le_two_pow
    simp [transformFits, circularFits, h2, hle]

theorem linearFits_iff (l n m : Nat) : linearFits (2 ^ l) n m = true ↔ n = 0 ∨ m = 0 ∨ n + m - 1 ≤ 2 ^ l := by
  rw [linearFits, ← or_assoc]
  split_ifs with h
  · exact iff_of_true rfl (.inl h)
  · rw [decide_eq_true_iff, nextPow2_le_two_pow_iff, or_iff_right h]

/-- Settles O37: each command's capacity is one of these four. -/
theorem capacityRule : Obligations.CapacityRule := by
  intro l n m fa fb herm
  refine ⟨fun i hi => ?_, fun i hi => ?_, fun i hi => ?_, linearFits_iff l n m⟩ <;>
    simp only [List.mem_cons, List.not_mem_nil, or_false] at hi
  · rcases hi with rfl | rfl | rfl | rfl <;> simp only [capacityOk, transformFits_auto, circularFits_iff]
  · rcases hi with rfl | rfl <;> exact transformFits_radix2 l n
  · rcases hi with rfl | rfl <;> exact transformFits_bluestein l n

end Sys2Proof.Machine
end

section
/-!
PROOFS. The two length errors among the start checks, and a run whose start checks fail (42_convolution.md R206;
60_exceptions.md R233, R234, R240).
-/

namespace Sys2Proof.Machine

/-! ## The commands of the two length checks -/

theorem engine_radix2_iff (i : Instr) :
    i.engine = .radix2 ↔ ∃ fa, i = .fftR2 fa ∨ ∃ herm, i = .ifftR2 fa herm := by
  cases i <;> simp [Instr.engine]

theorem needsEqualLengths_iff (i : Instr) :
    i.needsEqualLengths = true ↔ ∃ fa fb, i = .cconv fa fb ∨ i = .nconv fa fb := by
  cases i <;> simp [Instr.needsEqualLengths]

/-- A convolution has no ENG field, so no command is under both length checks (30_encoding.md R92). -/
theorem engine_ne_radix2 {i : Instr} (h : i.needsEqualLengths = true) : i.engine ≠ .radix2 := by
  obtain ⟨fa, fb, rfl | rfl⟩ := (needsEqualLengths_iff i).mp h <;> exact nofun

theorem isPow2_eq_false_iff (n : Nat) : isPow2 n = false ↔ n ≠ 0 ∧ ∀ k, n ≠ 2 ^ k := by
  rw [Bool.eq_false_iff, ne_eq, isPow2_iff, not_or, not_exists]

theorem lenM_ne_lenN_iff (s : State) : s.lenM ≠ s.lenN ↔ s.lenB ≠ s.lenA := BitVec.toNat_inj.not

/-! ## The start check that fails -/

/-- A start check that fails gives NOT_POW2 or LEN_MISMATCH on that error's own condition, or it gives another code
(60_exceptions.md R240). -/
theorem startCheck_some {i : Instr} {s : State} {e : StartError} (h : startCheck i s = some e) :
    (i.engine = .radix2 ∧ isPow2 s.lenN = false ∧ e = ⟨.notPow2, 0⟩) ∨
    (i.needsEqualLengths = true ∧ s.lenM ≠ s.lenN ∧ e = ⟨.lenMismatch, 0⟩) ∨
    e.code = .lenRange ∨ e.code = .align ∨ e.code = .addrRange := by
  unfold startCheck at h
  split_ifs at h with hpow hlen hcap
  · cases h; exact .inl ⟨hpow.1, hpow.2, rfl⟩
  · cases h; exact .inr (.inl ⟨hlen.1, hlen.2, rfl⟩)
  · cases h; exact .inr (.inr (.inl rfl))
  · split at h
    · cases h; exact .inr (.inr (.inr (.inl rfl)))
    · split at h <;> cases h
      exact .inr (.inr (.inr (.inr rfl)))

/-- NOT_POW2 comes first of the checks (60_exceptions.md R233). -/
theorem startCheck_notPow2_iff (i : Instr) (s : State) :
    startCheck i s = some ⟨.notPow2, 0⟩ ↔ i.engine = .radix2 ∧ isPow2 s.lenN = false := by
  refine ⟨fun h => ?_, fun h => if_pos h⟩
  rcases startCheck_some h with ⟨he, hp, -⟩ | ⟨-, -, he⟩ | he | he | he
  · exact ⟨he, hp⟩
  all_goals cases he

/-- Only NOT_POW2 comes before LEN_MISMATCH, and no command that needs equal lengths can raise it (60_exceptions.md
R234). -/
theorem startCheck_lenMismatch_iff (i : Instr) (s : State) :
    startCheck i s = some ⟨.lenMismatch, 0⟩ ↔ i.needsEqualLengths = true ∧ s.lenM ≠ s.lenN := by
  refine ⟨fun h => ?_, fun h => ?_⟩
  · rcases startCheck_some h with ⟨-, -, he⟩ | ⟨hq, hne, -⟩ | he | he | he
    case inr.inl => exact ⟨hq, hne⟩
    all_goals cases he
  · rw [startCheck, if_neg fun hp => engine_ne_radix2 h.1 hp.1, if_pos h]

/-- A command that fails a start check is its error entry (log 5). -/
theorem exec_of_failed_check {i : Instr} {s : State} {e : StartError} (h : startCheck i s = some e) :
    exec i s = .next (s.enterError e.code e.addr) := by
  rw [exec_eq_runCommand, runCommand, h]

/-- Settles O38: the two checks by their conditions, and those by the commands and the length registers. -/
theorem lengthErrors : Obligations.LengthErrors := fun i s =>
  ⟨by rw [startCheck_notPow2_iff, engine_radix2_iff, isPow2_eq_false_iff]; rfl,
    by rw [startCheck_lenMismatch_iff, needsEqualLengths_iff, lenM_ne_lenN_iff],
    fun _ => exec_of_failed_check⟩

end Sys2Proof.Machine
end

section
/-!
PROOFS. The error entry (60_exceptions.md R236) and the start checks in their order (60_exceptions.md R237, R238, R240).
-/

namespace Sys2Proof.Machine

/-! ## The error entry -/

theorem readReg_errAddrLo (s : State) : readReg s 0x048 = s.errAddr.extractLsb' 0 32 := rfl

theorem readReg_errAddrHi (s : State) : readReg s 0x04C = s.errAddr.extractLsb' 32 32 := rfl

theorem readReg_outLen (s : State) : readReg s 0x024 = s.outLen := rfl

/-- ERR_ADDR_HI and ERR_ADDR_LO hold err_addr whole (10_state.md R32). -/
theorem readReg_errAddr (s : State) : readReg s 0x04C ++ readReg s 0x048 = s.errAddr := by
  rw [readReg_errAddrHi, readReg_errAddrLo]
  exact (BitVec.extractLsb'_append_extractLsb'_eq_extractLsb' rfl).trans (BitVec.extractLsb'_eq_self ..)

@[simp] theorem enterError_errIp (s : State) (e : ErrCode) (a : Addr) : (s.enterError e a).errIp = true := by
  simp [State.errIp]

@[simp] theorem enterError_doneIp (s : State) (e : ErrCode) (a : Addr) : (s.enterError e a).doneIp = s.doneIp := by
  simp [State.doneIp]

/-- With ERR_IP set, ERR_IE alone raises the interrupt; DONE's source and an ERR_IP that stood before keep theirs
(10_state.md R45). -/
theorem irq_enterError_iff (s : State) (e : ErrCode) (a : Addr) :
    (s.enterError e a).irq = true ↔ s.irq = true ∨ s.errIe = true := by
  have hd : (s.enterError e a).doneIe = s.doneIe := rfl
  have he : (s.enterError e a).errIe = s.errIe := rfl
  simp only [State.irq, enterError_errIp, enterError_doneIp, hd, he, Bool.or_eq_true, Bool.and_eq_true]
  tauto

/-- Settles O36: the three registers as read, then the entry's own fields. -/
theorem errorEntry : Obligations.ErrorEntry := fun s e a =>
  ⟨readReg_errAddrLo _, readReg_errAddrHi _, readReg_outLen _, readReg_errAddr s, readReg_outLen s, rfl, rfl, rfl, rfl,
    enterError_errIp s e a, enterError_doneIp s e a, irq_enterError_iff s e a, rfl⟩

/-! ## The regions' checks -/

theorem misaligned_eq_false_iff (r : Span) : misaligned r = false ↔ r.size = 0 ∨ r.base % 8 = 0 := by
  rw [misaligned, decide_eq_false_iff_not]; omega

theorem outOfRange_eq_false_iff (p : Platform) (r : Span) :
    outOfRange p r = false ↔ r.size = 0 ∨ r.base + r.size ≤ 2 ^ p.paBits := by
  rw [outOfRange, decide_eq_false_iff_not]; omega

@[simp] theorem regionA_base (i : Instr) (s : State) : (regionA i s).base = s.srcA.toNat := rfl
@[simp] theorem regionB_base (i : Instr) (s : State) : (regionB i s).base = s.srcB.toNat := rfl
@[simp] theorem regionD_base (i : Instr) (s : State) : (regionD i s).base = s.dst.toNat := rfl

/-- The error of the first region that is `bad`, with the region's base (60_exceptions.md R237, R238). -/
def regionError (code : ErrCode) (bad : Span → Bool) (i : Instr) (s : State) : Option StartError :=
  ((regionsOf i s).find? bad).map fun r => ⟨code, BitVec.ofNat 64 r.base⟩

/-- The regions are tested in the order A, B, D, and a region's base is its 64-bit register. -/
theorem regionError_eq (code : ErrCode) (bad : Span → Bool) (i : Instr) (s : State) :
    regionError code bad i s =
      if bad (regionA i s) then some ⟨code, s.srcA⟩
      else if bad (regionB i s) then some ⟨code, s.srcB⟩
      else if bad (regionD i s) then some ⟨code, s.dst⟩
      else none := by
  split_ifs with ha hb hd <;> simp [regionError, regionsOf, *]

section
variable {i : Instr} {s : State}

/-- The outcome by the first region that fails, for a check whose passing is `ok`. -/
theorem regionError_cases (code : ErrCode) {bad : Span → Bool} {ok : Span → Prop}
    (hok : ∀ r, bad r = false ↔ ok r) :
    (¬ ok (regionA i s) → regionError code bad i s = some ⟨code, s.srcA⟩) ∧
    (ok (regionA i s) → ¬ ok (regionB i s) → regionError code bad i s = some ⟨code, s.srcB⟩) ∧
    (ok (regionA i s) → ok (regionB i s) → ¬ ok (regionD i s) → regionError code bad i s = some ⟨code, s.dst⟩) ∧
    (ok (regionA i s) → ok (regionB i s) → ok (regionD i s) → regionError code bad i s = none) := by
  simp only [← hok, regionError_eq, Bool.not_eq_false]
  exact ⟨fun ha => by simp [ha], fun ha hb => by simp [ha, hb], fun ha hb hd => by simp [ha, hb, hd],
    fun ha hb hd => by simp [ha, hb, hd]⟩

/-! ## The checks in their order -/

theorem startCheck_lenRange (hp : i.engine = .radix2 → isPow2 s.lenN = true)
    (hq : i.needsEqualLengths = true → s.lenM = s.lenN) (hc : capacityOk s.lmax i s.lenN s.lenM ≠ true) :
    startCheck i s = some ⟨.lenRange, 0⟩ := by
  rw [startCheck, if_neg (by simpa using hp), if_neg (by simpa using hq), if_pos (by simpa using hc)]

/-- Where the length checks pass, every region's base is checked before any region's end (60_exceptions.md R240). -/
theorem startCheck_eq_regionErrors (hp : i.engine = .radix2 → isPow2 s.lenN = true)
    (hq : i.needsEqualLengths = true → s.lenM = s.lenN) (hc : capacityOk s.lmax i s.lenN s.lenM = true) :
    startCheck i s =
      (regionError .align misaligned i s).or (regionError .addrRange (outOfRange s.platform) i s) := by
  rw [startCheck, if_neg (by simpa using hp), if_neg (by simpa using hq), if_neg (by simpa using hc), regionError,
    regionError]
  cases (regionsOf i s).find? misaligned with
  | some r => rfl
  | none => cases (regionsOf i s).find? (outOfRange s.platform) <;> rfl

end

/-- Settles O39: the three length checks by their conditions, then the two region checks, each over regions A, B, D. -/
theorem startChecksInOrder : Obligations.StartChecksInOrder := by
  intro i s pow2 equal fits aligned inRange a b d
  have hpow : pow2 ↔ (i.engine = .radix2 → isPow2 s.lenN = true) := by rw [isPow2_iff]
  obtain ⟨alignA, alignB, alignD, alignNone⟩ :=
    regionError_cases (i := i) (s := s) .align misaligned_eq_false_iff
  obtain ⟨rangeA, rangeB, rangeD, rangeNone⟩ :=
    regionError_cases (i := i) (s := s) .addrRange (outOfRange_eq_false_iff s.platform)
  refine ⟨fun hp => ?_, fun _ hq => ?_, fun hp hq hc => startCheck_lenRange (hpow.mp hp) hq hc, fun hp hq hc => ?_⟩
  · rw [startCheck_notPow2_iff]
    simpa [hpow] using hp
  · rw [startCheck_lenMismatch_iff]
    simpa [equal] using hq
  rw [startCheck_eq_regionErrors (hpow.mp hp) hq hc]
  refine ⟨fun ha => by rw [alignA ha, Option.some_or], fun ha hb => by rw [alignB ha hb, Option.some_or],
    fun ha hb hd => by rw [alignD ha hb hd, Option.some_or], fun ha hb hd => ?_⟩
  rw [alignNone ha hb hd, Option.none_or]
  exact ⟨rangeA, rangeB, rangeD, rangeNone⟩

end Sys2Proof.Machine
end

section
/-!
PROOFS. The reset input: its step and what it leaves in memory (70_reset_and_hazards.md R261, R262).
-/

namespace Sys2Proof.Machine

/-- Filling one span with free bytes changes that span alone. -/
theorem memRead_memFillAny_span {m : Memory} (hm : m.wf = true) (t : Site) (x : Span) (a : Nat) :
    memRead (memFillAny t m x.base x.size) a = if x.has a then Config.anyByte (a :: t) else memRead m a := by
  simpa [memFillSpans] using memRead_memFillSpans t a [x] m hm

/-- With no command running, the reset input leaves memory alone (70_reset_and_hazards.md R262). -/
theorem hwReset_mem_of_not_running {s : State} (h : s.running = none) : s.hwReset.mem = s.mem := by
  simp [State.hwReset, h]

/-- With a command running, the reset input fills its region D with free bytes (70_reset_and_hazards.md R261). -/
theorem hwReset_mem_of_running {s : State} {i : Instr} (h : s.running = some i) :
    s.hwReset.mem = memFillAny [3, s.draws] s.mem (regionD i s).base (regionD i s).size := by
  simp [State.hwReset, h]

/-- Settles O7: the registers are those of `State.resetOn`, and memory by whether a command runs. -/
theorem resetAndMemory : Obligations.ResetAndMemory := by
  refine ⟨fun _ _ => rfl, fun s hm => ⟨(hwReset_keepsRegisters s).irqStat, (hwReset_keepsRegisters s).seq,
    hwReset_mem_of_not_running, fun i hi a => ?_⟩⟩
  rw [hwReset_mem_of_running hi, memRead_memFillAny_span hm]
  exact ⟨fun h => if_neg (by simp [h]), fun h => if_pos h⟩

end Sys2Proof.Machine
end
